-- ==== Sys2Proof/Word.lean ====
section
/-! DEFINITION. The plain words of the engine: bytes and 32-bit words (spec/00_scope.md R13). -/

namespace Sys2Proof

/-- A `u8`: a coefficient, or one byte of a byte string (R13, R120). -/
abbrev Byte := BitVec 8

/-- A 32-bit word: a command, a CSR, bus data (R30, R90). -/
abbrev Word := BitVec 32

end Sys2Proof
end

