-- ==== Sys2Proof/Syntax.lean ====
section
/-! DEFINITION. The commands of the engine (spec/30_encoding.md R96), one constructor per row of spec/opcode_table.json.
Register numbers are names; sizes, counts and exponents are numbers, whose sub-field widths WellFormed checks (R95). -/

namespace Sys2Proof

/-- A polynomial register number (R94, class P). -/
inductive PReg where
  | p0 | p1 | p2 | p3
deriving DecidableEq, Repr

/-- A sparse register number (R94, class S). -/
inductive SReg where
  | s0 | s1
deriving DecidableEq, Repr

/-- A byte-string register number (R94, class B). -/
inductive BReg where
  | b0 | b1 | b2 | b3
deriving DecidableEq, Repr

/-- The command set `TKE-CMD` version 1 (R2, R96). Operands stand in the order of the assembler: destination, sources,
immediates (R101). -/
inductive Instr where
  | nop                                                -- R110
  | wipe (mask : BitVec 11)                            -- R111
  | padd (rd ra rb : PReg)                             -- R122
  | psub (rd ra rb : PReg)                             -- R123
  | pneg (rd ra : PReg)                                -- R124
  | pscale (rd ra : PReg) (f : Byte)                   -- R125
  | psrnd (rd ra : PReg) (ln ld : Nat)                 -- R127
  | pmuld (rd ra rb : PReg)                            -- R131
  | pmuls (rd ra : PReg) (rb : SReg)                   -- R133
  | ptosp (rd : SReg) (ra : PReg)                      -- R135
  | pfrsp (rd : PReg) (ra : SReg)                      -- R136
  | pcteq (ra rb : PReg)                               -- R138
  | sunif (rd : PReg) (ra : BReg)                      -- R151
  | shwt (rd : SReg) (ra : BReg) (h : Nat)             -- R153
  | sderive (rd ra : BReg)                             -- R156
  | srand (rd : BReg) (n : Nat)                        -- R158
  | xefenc (rd ra : BReg)                              -- R172
  | xefdec (rd ra : BReg)                              -- R173
  | d2enc (rd : PReg) (ra : BReg)                      -- R175
  | d2dec (rd : BReg) (ra : PReg)                      -- R176
  | pack (ra : PReg) (l : Nat)                         -- R188
  | unpack (rd : PReg) (l : Nat)                       -- R189
  | bcteq (n : Nat)                                    -- R196
  | bsel (rd ra rb : BReg) (n : Nat)                   -- R197
  | pkekg                                              -- R206
  | pkeenc (ra : BReg)                                 -- R208
  | pkedec                                             -- R214
  | kemkg                                              -- R226
  | kemenc                                             -- R228
  | kemdec                                             -- R230
deriving DecidableEq, Repr

end Sys2Proof
end

