-- ==== Sys2Proof/WellFormed.lean ====
section
/-! DEFINITION. Which commands have an encoding: every immediate fits its sub-field (spec/30_encoding.md R95). -/

namespace Sys2Proof

/-- Every immediate of the command fits the unsigned sub-field that R95 gives it. Registers, masks and the factor of PSCALE
fit by their types. -/
def Instr.wellFormed : Instr → Bool
  | .psrnd _ _ ln ld => decide (ln < 2 ^ 4) && decide (ld < 2 ^ 4)
  | .shwt _ _ h => decide (h < 2 ^ 11)
  | .srand _ n => decide (n < 2 ^ 7)
  | .pack _ l => decide (l < 2 ^ 4)
  | .unpack _ l => decide (l < 2 ^ 4)
  | .bcteq n => decide (n < 2 ^ 11)
  | .bsel _ _ _ n => decide (n < 2 ^ 7)
  | .nop | .wipe _ | .padd _ _ _ | .psub _ _ _ | .pneg _ _ | .pscale _ _ _ | .pmuld _ _ _ | .pmuls _ _ _ | .ptosp _ _
  | .pfrsp _ _ | .pcteq _ _ | .sunif _ _ | .sderive _ _ | .xefenc _ _ | .xefdec _ _ | .d2enc _ _ | .d2dec _ _ | .pkekg
  | .pkeenc _ | .pkedec | .kemkg | .kemenc | .kemdec => true

end Sys2Proof
end

