-- ==== Sys2Proof/Decode.lean ====
section
/-! DEFINITION. The decoder of command words, total and rejecting by name (spec/30_encoding.md R90, R94 to R96, R99), and
after it the encoder (R101). -/

namespace Sys2Proof

/-- Why a word is no command: the four cases of R99. Every one raises `E_ILLCMD` in the same way. -/
inductive DecodeError where
  /-- `OPC` is none of the 30 opcodes of R96. -/
  | reservedOpcode
  /-- A register field the opcode does not use is not 0. -/
  | unusedFieldNotZero
  /-- A register number is outside its class's range. -/
  | registerOutOfClass
  /-- An `IMM` bit outside the opcode's sub-fields is 1. -/
  | immediateBitNotZero
deriving DecidableEq, Repr

/-! ## The fields of a word (R90) -/

/-- `OPC`, bits 31:24. -/
def opcField (w : Word) : Nat := w.toNat / 2 ^ 24

/-- `RD`, bits 23:20. -/
def rdField (w : Word) : Nat := w.toNat / 2 ^ 20 % 16

/-- `RA`, bits 19:16. -/
def raField (w : Word) : Nat := w.toNat / 2 ^ 16 % 16

/-- `RB`, bits 15:12. -/
def rbField (w : Word) : Nat := w.toNat / 2 ^ 12 % 16

/-- `IMM`, bits 11:0. -/
def immField (w : Word) : Nat := w.toNat % 2 ^ 12

/-! ## Operand decoding (R94, R95) -/

/-- A class P register number. -/
def decodeP : Nat → Except DecodeError PReg
  | 0 => .ok .p0
  | 1 => .ok .p1
  | 2 => .ok .p2
  | 3 => .ok .p3
  | _ => .error .registerOutOfClass

/-- A class S register number. -/
def decodeS : Nat → Except DecodeError SReg
  | 0 => .ok .s0
  | 1 => .ok .s1
  | _ => .error .registerOutOfClass

/-- A class B register number. -/
def decodeB : Nat → Except DecodeError BReg
  | 0 => .ok .b0
  | 1 => .ok .b1
  | 2 => .ok .b2
  | 3 => .ok .b3
  | _ => .error .registerOutOfClass

/-- A register field the opcode does not use must be 0. -/
def decodeUnused (v : Nat) : Except DecodeError Unit :=
  if v = 0 then .ok () else .error .unusedFieldNotZero

/-- An immediate of which the opcode uses the low `bits` bits; the others must be 0. -/
def decodeImm (bits v : Nat) : Except DecodeError Nat :=
  if v < 2 ^ bits then .ok v else .error .immediateBitNotZero

/-- The operands of a row: what each of RD, RA, RB and IMM must be, tried in this order (which reason is found first is not
observable, log 24). -/
def decodeFields (w : Word) (rd : Nat → Except DecodeError α) (ra : Nat → Except DecodeError β)
    (rb : Nat → Except DecodeError γ) (bits : Nat) (k : α → β → γ → Nat → Instr) : Except DecodeError Instr :=
  match rd (rdField w), ra (raField w), rb (rbField w), decodeImm bits (immField w) with
  | .ok d, .ok a, .ok b, .ok imm => .ok (k d a b imm)
  | .error e, _, _, _ => .error e
  | _, .error e, _, _ => .error e
  | _, _, .error e, _ => .error e
  | _, _, _, .error e => .error e

/-- The command a word is, by the opcode map of R96; every other word is illegal (R99). -/
def decode (w : Word) : Except DecodeError Instr :=
  match opcField w with
  | 0x00 => decodeFields w decodeUnused decodeUnused decodeUnused 0 fun _ _ _ _ => .nop
  | 0x01 => decodeFields w decodeUnused decodeUnused decodeUnused 11 fun _ _ _ m => .wipe (BitVec.ofNat 11 m)
  | 0x10 => decodeFields w decodeP decodeP decodeP 0 fun d a b _ => .padd d a b
  | 0x11 => decodeFields w decodeP decodeP decodeP 0 fun d a b _ => .psub d a b
  | 0x12 => decodeFields w decodeP decodeP decodeUnused 0 fun d a _ _ => .pneg d a
  | 0x13 => decodeFields w decodeP decodeP decodeUnused 8 fun d a _ f => .pscale d a (BitVec.ofNat 8 f)
  | 0x14 => decodeFields w decodeP decodeP decodeUnused 8 fun d a _ i => .psrnd d a (i % 16) (i / 16)
  | 0x15 => decodeFields w decodeP decodeP decodeP 0 fun d a b _ => .pmuld d a b
  | 0x16 => decodeFields w decodeP decodeP decodeS 0 fun d a b _ => .pmuls d a b
  | 0x17 => decodeFields w decodeS decodeP decodeUnused 0 fun d a _ _ => .ptosp d a
  | 0x18 => decodeFields w decodeP decodeS decodeUnused 0 fun d a _ _ => .pfrsp d a
  | 0x19 => decodeFields w decodeUnused decodeP decodeP 0 fun _ a b _ => .pcteq a b
  | 0x20 => decodeFields w decodeP decodeB decodeUnused 0 fun d a _ _ => .sunif d a
  | 0x21 => decodeFields w decodeS decodeB decodeUnused 11 fun d a _ h => .shwt d a h
  | 0x22 => decodeFields w decodeB decodeB decodeUnused 0 fun d a _ _ => .sderive d a
  | 0x23 => decodeFields w decodeB decodeUnused decodeUnused 7 fun d _ _ n => .srand d n
  | 0x30 => decodeFields w decodeB decodeB decodeUnused 0 fun d a _ _ => .xefenc d a
  | 0x31 => decodeFields w decodeB decodeB decodeUnused 0 fun d a _ _ => .xefdec d a
  | 0x32 => decodeFields w decodeP decodeB decodeUnused 0 fun d a _ _ => .d2enc d a
  | 0x33 => decodeFields w decodeB decodeP decodeUnused 0 fun d a _ _ => .d2dec d a
  | 0x40 => decodeFields w decodeUnused decodeP decodeUnused 4 fun _ a _ l => .pack a l
  | 0x41 => decodeFields w decodeP decodeUnused decodeUnused 4 fun d _ _ l => .unpack d l
  | 0x42 => decodeFields w decodeUnused decodeUnused decodeUnused 11 fun _ _ _ n => .bcteq n
  | 0x43 => decodeFields w decodeB decodeB decodeB 7 fun d a b n => .bsel d a b n
  | 0x80 => decodeFields w decodeUnused decodeUnused decodeUnused 0 fun _ _ _ _ => .pkekg
  | 0x81 => decodeFields w decodeUnused decodeB decodeUnused 0 fun _ a _ _ => .pkeenc a
  | 0x82 => decodeFields w decodeUnused decodeUnused decodeUnused 0 fun _ _ _ _ => .pkedec
  | 0x90 => decodeFields w decodeUnused decodeUnused decodeUnused 0 fun _ _ _ _ => .kemkg
  | 0x91 => decodeFields w decodeUnused decodeUnused decodeUnused 0 fun _ _ _ _ => .kemenc
  | 0x92 => decodeFields w decodeUnused decodeUnused decodeUnused 0 fun _ _ _ _ => .kemdec
  | _ => .error .reservedOpcode

/-- The command of a table word, numbered as spec/opcode_table.json numbers its bits: one 32-bit word, bits at `nbits` and
above 0. A command is written to `CMD` as one word, so no byte order enters (R90). -/
def decodeTableWord (nbits w : Nat) : Option Instr :=
  match decode (BitVec.ofNat 32 (w % 2 ^ nbits)) with
  | .ok i => some i
  | .error _ => none

/-! ## The encoder (R90, R101) -/

/-- The number of a class P register. -/
def PReg.num : PReg → Nat
  | .p0 => 0
  | .p1 => 1
  | .p2 => 2
  | .p3 => 3

/-- The number of a class S register. -/
def SReg.num : SReg → Nat
  | .s0 => 0
  | .s1 => 1

/-- The number of a class B register. -/
def BReg.num : BReg → Nat
  | .b0 => 0
  | .b1 => 1
  | .b2 => 2
  | .b3 => 3

/-- `OPC·2^24 + RD·2^20 + RA·2^16 + RB·2^12 + IMM` (R101). -/
def commandWord (opc rd ra rb imm : Nat) : Word :=
  BitVec.ofNat 32 (opc * 2 ^ 24 + rd * 2 ^ 20 + ra * 2 ^ 16 + rb * 2 ^ 12 + imm)

/-- The word of a command (R96, R101). -/
def encode : Instr → Word
  | .nop => commandWord 0x00 0 0 0 0
  | .wipe mask => commandWord 0x01 0 0 0 mask.toNat
  | .padd d a b => commandWord 0x10 d.num a.num b.num 0
  | .psub d a b => commandWord 0x11 d.num a.num b.num 0
  | .pneg d a => commandWord 0x12 d.num a.num 0 0
  | .pscale d a f => commandWord 0x13 d.num a.num 0 f.toNat
  | .psrnd d a ln ld => commandWord 0x14 d.num a.num 0 (ld * 16 + ln)
  | .pmuld d a b => commandWord 0x15 d.num a.num b.num 0
  | .pmuls d a b => commandWord 0x16 d.num a.num b.num 0
  | .ptosp d a => commandWord 0x17 d.num a.num 0 0
  | .pfrsp d a => commandWord 0x18 d.num a.num 0 0
  | .pcteq a b => commandWord 0x19 0 a.num b.num 0
  | .sunif d a => commandWord 0x20 d.num a.num 0 0
  | .shwt d a h => commandWord 0x21 d.num a.num 0 h
  | .sderive d a => commandWord 0x22 d.num a.num 0 0
  | .srand d n => commandWord 0x23 d.num 0 0 n
  | .xefenc d a => commandWord 0x30 d.num a.num 0 0
  | .xefdec d a => commandWord 0x31 d.num a.num 0 0
  | .d2enc d a => commandWord 0x32 d.num a.num 0 0
  | .d2dec d a => commandWord 0x33 d.num a.num 0 0
  | .pack a l => commandWord 0x40 0 a.num 0 l
  | .unpack d l => commandWord 0x41 d.num 0 0 l
  | .bcteq n => commandWord 0x42 0 0 0 n
  | .bsel d a b n => commandWord 0x43 d.num a.num b.num n
  | .pkekg => commandWord 0x80 0 0 0 0
  | .pkeenc a => commandWord 0x81 0 a.num 0 0
  | .pkedec => commandWord 0x82 0 0 0 0
  | .kemkg => commandWord 0x90 0 0 0 0
  | .kemenc => commandWord 0x91 0 0 0 0
  | .kemdec => commandWord 0x92 0 0 0 0

end Sys2Proof
end

