-- ==== Sys2Proof/Config.lean ====
section
/-! DEFINITION. What one build of the engine fixes, and what the spec leaves open: the hash oracle, the entropy source and
an external XEf code are uninterpreted constants (R12, R14, R15, R166); the capacities are the spec's (R11). -/

namespace Sys2Proof

/-- Which XEf code the engine is built with (R12, R166): the spec's default instance `XEF_DEFAULT` (R168 to R170), or an
external one, of which nothing is known but that it meets the contract of every instance (R167; log 7, log 8). -/
inductive XefCode where
  | xefDefault
  | external
deriving DecidableEq, Repr

namespace Config

/-- Byte `k` of the `SHAKE256` output stream on an input (R14). Free: no body (log 4). -/
opaque shake256Byte : List Byte → Nat → Byte

/-- Byte `k` of the 32-byte `SHA3_256` output on an input (R14). Free: no body (log 4). -/
opaque sha3Byte : List Byte → Nat → Byte

/-- Item `k` of the entropy source: a byte, or a failure of the source (R15). Free: no body (log 5). -/
opaque entropyItem : Nat → Option Byte

/-- Parity bit `k` that the functions offered as external XEf code give a message, for message length `d` and capacity `f`
(R166). Free: no body (log 7). -/
opaque xefParityBit : (d f : Nat) → List Bool → Nat → Bool

/-- Message bit `k` that the functions offered as external XEf code answer on a word (R166, R167 X3). Free: no body (log 7). -/
opaque xefDecodedBit : (d f : Nat) → List Bool → Nat → Bool

end Config

/-- `N_MAX`: coefficients of a polynomial register (R11). -/
def nMax : Nat := 1024

/-- `S_MAX`: slots of a sparse register (R11). -/
def sMax : Nat := 1024

/-- `B_BYTES`: bytes of a byte-string register (R11). -/
def bBytes : Nat := 64

/-- `X_MAX`: bytes of the pack buffer (R11). -/
def xMax : Nat := 1792

/-- The size of the host window in bytes (R60). -/
def windowSize : Nat := 0x4000

/-- The first data offset of the window; below it stand the CSRs (R62). -/
def dataStart : Nat := 0x100

end Sys2Proof
end

