-- ==== Sys2Proof/Machine/Bytes.lean ====
section
/-! DEFINITION. Byte strings, bit strings and their orders (spec/00_scope.md R13, spec/20_memory.md R68). -/

namespace Sys2Proof.Machine

/-- A byte string as one little-endian number: byte `k` weighs `2^(8k)`. -/
def leNat : List Byte → Nat
  | [] => 0
  | b :: bs => b.toNat + 256 * leNat bs

/-- The first `n` bytes of a number, least significant byte first. -/
def leBytes : Nat → Nat → List Byte
  | 0, _ => []
  | n + 1, v => BitVec.ofNat 8 v :: leBytes n (v / 256)

/-- `LE32(c)` (R13). -/
def le32 (c : Word) : List Byte := leBytes 4 c.toNat

/-- `BE16(X, k)` (R13): most significant byte first. -/
def be16 (x : List Byte) (k : Nat) : Nat := (x.getD k 0).toNat * 256 + (x.getD (k + 1) 0).toNat

/-- The eight bits of a byte, most significant first (`BitOf`, R13). -/
def bitsOfByte (b : Byte) : List Bool :=
  [b.getLsbD 7, b.getLsbD 6, b.getLsbD 5, b.getLsbD 4, b.getLsbD 3, b.getLsbD 2, b.getLsbD 1, b.getLsbD 0]

/-- `BitsOf(X, n)` (R13): the first `n` bits of a byte string, most significant bit of each byte first. -/
def bitsOf (x : List Byte) (n : Nat) : List Bool := (x.flatMap bitsOfByte).take n

/-- The byte whose bits, most significant first, are the given ones. -/
def byteOfBits (bits : List Bool) : Byte := BitVec.ofNat 8 (bits.foldl (fun v b => 2 * v + b.toNat) 0)

/-- `BytesOf(bits)` (R13), the inverse of `BitsOf`, for a bit string whose length is a multiple of 8. -/
def bytesOf : List Bool → List Byte
  | a :: b :: c :: d :: e :: f :: g :: h :: rest => byteOfBits [a, b, c, d, e, f, g, h] :: bytesOf rest
  | _ => []

/-- `x` brought to exactly `size` bytes: zeros after it (R21, R23, R26), and cut at `size`, which no command reaches
(log 18). -/
def fit (size : Nat) (x : List Byte) : List Byte := (x ++ List.replicate size 0).take size

end Sys2Proof.Machine
end

