-- ==== Sys2Proof/Machine/State.lean ====
section
/-! DEFINITION. The state of the engine as plain data (spec/10_state.md), with the model's own fields: the events to come,
the answer to the host, the entropy port and the XEf code the engine is built with. -/

namespace Sys2Proof.Machine

/-- `STATE` (R24): BUSY means the command in `CMD` is in flight. -/
inductive RunState where
  | idle
  | busy
deriving DecidableEq, Repr

/-- The errors a command can raise (R241). -/
inductive ErrorCode where
  /-- The word is no command (R242). -/
  | illcmd
  /-- An immediate or `ARG` is outside the command's range (R247). -/
  | operand
  /-- `CFG.PSEL` selects no parameter set (R243). -/
  | param
  /-- A length CSR differs from the size the parameter set demands (R244). -/
  | len
  /-- The entropy source failed (R248). -/
  | entropy
deriving DecidableEq, Repr

/-- One event of the total order of R75. -/
inductive Event where
  /-- A host transaction `MemRead(addr, n)` (R62). -/
  | read (addr n : Nat)
  /-- A host transaction `MemWrite(addr, n, value)`; only the low `n` bytes of `value` count (R63, log 21). -/
  | write (addr n : Nat) (value : Word)
  /-- The engine's turn: its one enabled step, the completion, if BUSY; nothing if IDLE (R24, R92). -/
  | engine
  /-- The reset input (R280). -/
  | reset
deriving DecidableEq, Repr

/-- What the host's last transaction was answered (log 3). -/
inductive HostResponse where
  /-- No transaction since reset. -/
  | noResponse
  /-- A read returned these bytes, the lowest address in bits 7:0 (R61, R62). -/
  | value (v : Word)
  /-- A write was accepted by the bus; whether it landed, was dropped or discarded is the state's business (R63). -/
  | written
  /-- The bus error response (R64): no effect on the engine. -/
  | busError
deriving DecidableEq, Repr

/-- The entropy port (R15, R263): the items a test bench injected and that are not yet drawn, and how many items of the
uninterpreted source were drawn after them (log 5). An item is a byte or a failure. -/
structure EntropyPort where
  injected : List (Option Byte)
  drawn : Nat
deriving DecidableEq, Repr

/-- The bytes of the window's data offsets that are not 0, each at its window offset, in rising order (R50, R66, log 1). -/
abbrev Memory := List Host.Cell

/-- The state of the engine and of its environment. `ID` is a constant and the working storage carries nothing between
commands, so neither is a field (R31, R45). `P0..P3`, `S0`, `S1`, `B0..B3` and the six buffers are regions of `mem`, read
and written by the named operations of Machine/Operands.lean. -/
structure State where
  /-- `STATE` (R24). -/
  run : RunState
  /-- `CFG` (R32). -/
  cfg : Word
  /-- `CMD` (R33). -/
  cmd : Word
  /-- `ARG` (R34). -/
  arg : Word
  /-- `STATUS.DONE` (R35). -/
  done : Bool
  /-- `STATUS.ERR` (R35). -/
  err : Bool
  /-- `STATUS.EQ` (R25). -/
  eq : Bool
  /-- `STATUS.ACCV` (R291). -/
  accv : Bool
  /-- `STATUS.CMDOVR` (R292). -/
  cmdovr : Bool
  /-- `STATUS.ERRCODE` (R241). -/
  errcode : BitVec 4
  /-- `PKLEN[10:0]` (R36). -/
  pklen : BitVec 11
  /-- `SKLEN[10:0]` (R37). -/
  sklen : BitVec 11
  /-- `CTLEN[10:0]` (R38). -/
  ctlen : BitVec 11
  /-- `S0LEN[10:0]` (R39). -/
  s0len : BitVec 11
  /-- `S1LEN[10:0]` (R39). -/
  s1len : BitVec 11
  /-- Every byte of the window's data offsets: `P0..P3`, `S0`, `S1`, `B0..B3` and the buffers (R21 to R23, R26, R66). -/
  mem : Memory
  /-- The model's own: the events still to come, the next one first (R75, log 2). -/
  inputs : List Event
  /-- The model's own: the answer to the host's last transaction (log 3). -/
  response : HostResponse
  /-- The model's own: the entropy port (log 5). -/
  entropy : EntropyPort
  /-- The model's own: the XEf code the engine is built with (R166, log 7). -/
  xef : XefCode
deriving DecidableEq, Repr

/-- Why the machine stops with a fault: NEVER. The spec gives the engine no fault that stops it: every error is a command
completion (R240, R246) and a bus error is an answer to the host with no effect on the engine (R64). So there is no
constructor, nobody raises one, and leaving it empty is safe (log 20). -/
inductive Fault
deriving DecidableEq, Repr

/-- Why the machine has no meaning for a command. -/
inductive Refusal where
  /-- Raised by an arm of `exec` whose command has no meaning yet: safe. No arm raises it. -/
  | notModelled (mnemonic : String)
deriving DecidableEq, Repr

/-- The machine right after reset (R55, R280): IDLE, every CSR, register and buffer 0. The environment's own fields start
with nothing scheduled, nothing answered, nothing injected, and `XEF_DEFAULT` (log 23). -/
def State.reset : State where
  run := .idle
  cfg := 0
  cmd := 0
  arg := 0
  done := false
  err := false
  eq := false
  accv := false
  cmdovr := false
  errcode := 0
  pklen := 0
  sklen := 0
  ctlen := 0
  s0len := 0
  s1len := 0
  mem := []
  inputs := []
  response := .noResponse
  entropy := ⟨[], 0⟩
  xef := .xefDefault

end Sys2Proof.Machine
end

