-- ==== Sys2Proof/Machine/Ops.lean ====
section
/-! DEFINITION. The named operations over the window's memory, the end of a command (completion, and the error completion
that stands for taking an exception), the start of one, and the entropy port. -/

namespace Sys2Proof.Machine

/-! ## The window's memory (R50, R66; log 1) -/

/-- The byte at a window offset; a byte that is not listed is 0, as after reset (R55). -/
def Memory.read : Memory → Nat → Byte
  | [], _ => 0
  | (x, v) :: rest, a => if x = a then v else Memory.read rest a

/-- The cells of a byte string placed at `base`: its bytes that are not 0. -/
def Memory.cells : Nat → List Byte → Memory
  | _, [] => []
  | base, b :: bs => if b = 0 then Memory.cells (base + 1) bs else (base, b) :: Memory.cells (base + 1) bs

/-- The bytes `bs` written at `base`, every other byte unchanged. -/
def Memory.writeRange (m : Memory) (base : Nat) (bs : List Byte) : Memory :=
  m.filter (fun c => decide (c.1 < base)) ++ (Memory.cells base bs ++ m.filter (fun c => decide (base + bs.length ≤ c.1)))

/-- The `n` bytes from `base` on. -/
def Memory.readRange (m : Memory) (base n : Nat) : List Byte := (List.range n).map fun k => m.read (base + k)

/-- The canonical form: offsets strictly rising, and no byte listed that is 0. -/
abbrev Memory.wf (m : Memory) : Prop := List.Pairwise (fun x y => x.1 < y.1) m ∧ ∀ c ∈ m, c.2 ≠ 0

/-- The state with `bs` written at window offset `base`. -/
def State.writeAt (s : State) (base : Nat) (bs : List Byte) : State := { s with mem := s.mem.writeRange base bs }

/-! ## Start and end of a command -/

/-- Command start (R91): the word is latched, the outcome flags of the command before are cleared, the engine is BUSY. -/
def State.startCommand (s : State) (w : Word) : State :=
  { s with cmd := w, done := false, err := false, errcode := 0, run := .busy }

/-- Completion without error (R92, R35). -/
def State.complete (s : State) : State := { s with run := .idle, done := true }

/-- `STATUS.ERRCODE` of an error (R241). -/
def ErrorCode.code : ErrorCode → BitVec 4
  | .illcmd => 1
  | .operand => 2
  | .param => 3
  | .len => 4
  | .entropy => 5

/-- Error completion (R246), what stands for taking an exception: the error is recorded, the engine is IDLE, `CMD` keeps the
failing word, nothing is saved and nothing is vectored. There is no return from it: the host's next command start, or a W1C
write, clears `ERR` and `ERRCODE` (R252). Destinations are untouched; the commands that raise `E_ENTROPY` zero theirs before. -/
def State.raise (s : State) (e : ErrorCode) : State := { s with run := .idle, err := true, errcode := e.code }

/-- A check of a command (R92 steps 2 to 4): where it fails, the error completion and nothing else. -/
def State.require (s : State) (ok : Bool) (e : ErrorCode) (k : State) : State := if ok then k else s.raise e

/-! ## The entropy port (R15, R263; log 5, log 6) -/

/-- The next item of the port: an injected one while there are any, then the uninterpreted source's. -/
def EntropyPort.next (e : EntropyPort) : Option Byte × EntropyPort :=
  match e.injected with
  | x :: rest => (x, { e with injected := rest })
  | [] => (Config.entropyItem e.drawn, { e with drawn := e.drawn + 1 })

/-- `EntropyRead(n)` (R15): `n` bytes, or `none` where the source fails before it gave them all. A failure ends the draw. -/
def EntropyPort.read : Nat → EntropyPort → Option (List Byte) × EntropyPort
  | 0, e => (some [], e)
  | n + 1, e =>
    match e.next with
    | (none, e') => (none, e')
    | (some b, e') =>
      match EntropyPort.read n e' with
      | (some bs, e'') => (some (b :: bs), e'')
      | (none, e'') => (none, e'')

/-- The draws of one command, in call order (R263): the first failure ends them, the remaining calls are not made (R248). -/
def EntropyPort.reads : List Nat → EntropyPort → Option (List (List Byte)) × EntropyPort
  | [], e => (some [], e)
  | n :: ns, e =>
    match e.read n with
    | (none, e') => (none, e')
    | (some x, e') =>
      match EntropyPort.reads ns e' with
      | (some xs, e'') => (some (x :: xs), e'')
      | (none, e'') => (none, e'')

/-- A command draws entropy (R263): on success it goes on with the draws, on failure with what R246 says. The port has moved
on either way. -/
def State.draw (s : State) (ns : List Nat) (ok : List (List Byte) → State → State) (failed : State → State) : State :=
  match s.entropy.reads ns with
  | (some xs, e) => ok xs { s with entropy := e }
  | (none, e) => failed { s with entropy := e }

end Sys2Proof.Machine
end

