-- ==== Sys2Proof/Machine/Params.lean ====
section
/-! DEFINITION. The parameter sets and the sizes derived from them (spec/00_scope.md R7 to R10). -/

namespace Sys2Proof.Machine

/-- The level tag of a parameter set (R7), by the names of the table of R9. -/
inductive LevelTag where
  | tiger128
  | tiger192
  | tiger256
deriving DecidableEq, Repr

/-- `TiGERParams` (R7). -/
structure Params where
  /-- The level tag. -/
  level : LevelTag
  /-- Ring degree `N`. -/
  n : Nat
  /-- Coefficient modulus. -/
  q : Nat
  /-- Rounding modulus of the public key. -/
  p : Nat
  /-- Packing modulus of `c1`. -/
  k1 : Nat
  /-- Packing modulus of `c2`. -/
  k2 : Nat
  /-- Hamming weight of the secret. -/
  hs : Nat
  /-- Hamming weight of the ephemeral. -/
  hr : Nat
  /-- Hamming weight of the errors. -/
  he : Nat
  /-- Message length in bits. -/
  d : Nat
  /-- XEf correction capacity in bits. -/
  f : Nat
  /-- Length in bytes of the implicit-rejection value. -/
  uSize : Nat
deriving DecidableEq, Repr

/-- `pk_bytes = 32 + N·L(p)/8` (R8). -/
def Params.pkBytes (p : Params) : Nat := 32 + p.n * Nat.log2 p.p / 8

/-- `sk_bytes = N + u_size` (R8). -/
def Params.skBytes (p : Params) : Nat := p.n + p.uSize

/-- `c1_bytes = N·L(k1)/8` (R8). -/
def Params.c1Bytes (p : Params) : Nat := p.n * Nat.log2 p.k1 / 8

/-- `c2_bytes = N·L(k2)/8` (R8). -/
def Params.c2Bytes (p : Params) : Nat := p.n * Nat.log2 p.k2 / 8

/-- `ct_bytes = c1_bytes + c2_bytes` (R8). -/
def Params.ctBytes (p : Params) : Nat := p.c1Bytes + p.c2Bytes

/-- `msg_bytes = d/8` (R8). -/
def Params.msgBytes (p : Params) : Nat := p.d / 8

/-- `cw_bytes = d/4`, the bytes of an XEf codeword (R8). -/
def Params.cwBytes (p : Params) : Nat := p.d / 4

/-- TiGER128 (R9). -/
def tiger128 : Params :=
  { level := .tiger128, n := 512, q := 256, p := 128, k1 := 256, k2 := 256, hs := 160, hr := 128, he := 32, d := 128, f := 3,
    uSize := 16 }

/-- TiGER192 (R9). -/
def tiger192 : Params :=
  { level := .tiger192, n := 1024, q := 256, p := 128, k1 := 128, k2 := 128, hs := 84, hr := 84, he := 32, d := 256, f := 5,
    uSize := 32 }

/-- TiGER256 (R9). -/
def tiger256 : Params :=
  { level := .tiger256, n := 1024, q := 256, p := 128, k1 := 128, k2 := 128, hs := 198, hr := 198, he := 32, d := 256, f := 5,
    uSize := 32 }

/-- The parameter set that `CFG.PSEL` selects; 3 selects none (R9, R32). -/
def paramsOf (psel : Nat) : Option Params :=
  match psel with
  | 0 => some tiger128
  | 1 => some tiger192
  | 2 => some tiger256
  | _ => none

/-- A power of two that divides `q` (R7). -/
def powerOfTwoDividing (q x : Nat) : Bool := decide (2 ^ Nat.log2 x = x) && decide (q % x = 0)

/-- `ParamsValid(P)` (R7), less the agreement of the derived sizes, which hold by their formulas. -/
def Params.valid (p : Params) : Bool :=
  decide (p.q = 256) && powerOfTwoDividing p.q p.p && powerOfTwoDividing p.q p.k1 && powerOfTwoDividing p.q p.k2 &&
  (p.n == 512 || p.n == 1024) && decide (p.hs ≤ p.n) && decide (p.hr ≤ p.n) && decide (p.he ≤ p.n) &&
  (p.d == 128 || p.d == 192 || p.d == 256) && (p.f == 3 || p.f == 5) && decide (4 * p.d ≤ p.n)

end Sys2Proof.Machine
end

