-- ==== Sys2Proof/Machine/Ring.lean ====
section
/-! DEFINITION. The ring `Z_256[X]/(X^N + 1)`: pointwise functions, rounding, the two multiplications and the sparse view
(spec/41_polynomial.md R120, R121, R126, R130, R132, R134). A polynomial is the list of its N coefficients. -/

namespace Sys2Proof.Machine

/-- A sign `σ ∈ (+1, −1)` of a sparse term (R13). -/
inductive Sign where
  | plus
  | minus
deriving DecidableEq, Repr

/-- One pair `(idx, sgn)` of a sparse list (R13, R22). -/
structure Term where
  idx : Nat
  sgn : Sign
deriving DecidableEq, Repr

/-- `PolyAdd` (R121): coefficients add modulo 256. -/
def polyAdd (a b : List Byte) : List Byte := List.zipWith (fun x y => x + y) a b

/-- `PolySub` (R121): first minus second, modulo 256. -/
def polySub (a b : List Byte) : List Byte := List.zipWith (fun x y => x - y) a b

/-- `PolyNeg` (R121). -/
def polyNeg (a : List Byte) : List Byte := a.map fun x => -x

/-- `PolyScale` (R121). -/
def polyScale (a : List Byte) (f : Byte) : List Byte := a.map fun x => x * f

/-- `ScaleRound(a, num, den)` (R126): `⌊(x·num + den/2)/den⌋` over the integers, `x` unsigned. -/
def scaleRound (a : List Byte) (num den : Nat) : List Byte :=
  a.map fun x => BitVec.ofNat 8 ((x.toNat * num + den / 2) / den)

/-- `t[k] = Σ a[i]·b[j]` over `i + j = k` (R130), over the integers. -/
def schoolAcc (a b : List Byte) (k : Nat) : Nat :=
  ((List.range (k + 1)).map fun i => (a.getD i 0).toNat * (b.getD (k - i) 0).toNat).sum

/-- `MulSchool(a, b)[i] = (t[i] − t[i+N]) mod 256` (R130). -/
def mulSchool (a b : List Byte) : List Byte :=
  (List.range a.length).map fun i => BitVec.ofInt 8 ((schoolAcc a b i : Int) - (schoolAcc a b (i + a.length) : Int))

/-- `σ·x` (R132). -/
def Sign.apply (σ : Sign) (x : Byte) : Byte :=
  match σ with
  | .plus => x
  | .minus => -x

/-- `d·X^j` for `j < N`: rotation by `j`, the coefficients that pass the top re-entering negated (R132). -/
def rotate (d : List Byte) (j : Nat) : List Byte :=
  (d.drop (d.length - j)).map (fun x => -x) ++ d.take (d.length - j)

/-- `MulSparse(d, s)` (R132): the sum over the terms `(j, σ)` of `σ·d·X^j`. The accumulator is kept modulo 256, which is what
the result takes of it (log 15). -/
def mulSparse (d : List Byte) (s : List Term) : List Byte :=
  s.foldl (fun acc t => polyAdd acc ((rotate d t.idx).map t.sgn.apply)) (List.replicate d.length 0)

/-- What one coefficient yields in the scan of `ToSparse` (R134). -/
def termOf (x : Byte) (i : Nat) : Option Term :=
  if x = 1 then some ⟨i, .plus⟩ else if x = 255 then some ⟨i, .minus⟩ else none

/-- `ToSparse(a)` (R134): scan upwards, 1 and 255 yield a term, others are ignored. -/
def toSparse (a : List Byte) : List Term := a.zipIdx.filterMap fun c => termOf c.1 c.2

/-- The dense coefficient of a sign (R134). -/
def Sign.coeff (σ : Sign) : Byte :=
  match σ with
  | .plus => 1
  | .minus => 255

/-- `FromSparse(s)` (R134): zeros, then 1 or 255 at the listed indices; a later term with the same index overwrites. -/
def fromSparse (n : Nat) (s : List Term) : List Byte :=
  s.foldl (fun a t => a.set t.idx t.sgn.coeff) (List.replicate n 0)

end Sys2Proof.Machine
end

