-- ==== Sys2Proof/Machine/Operands.lean ====
section
/-! DEFINITION. The operands of commands: the layout of the window, the registers and buffers of it, the parameter set, and
the operand ranges (spec/10_state.md R21 to R23, R26, R32; spec/20_memory.md R66; spec/60_exceptions.md R247). -/

namespace Sys2Proof.Machine

/-- The six named buffers (R26). -/
inductive Buffer where
  | ssbuf | msgbuf | pkbuf | skbuf | ctbuf | xbuf
deriving DecidableEq, Repr

/-- Where a buffer stands in the window (R66). -/
def Buffer.base : Buffer → Nat
  | .ssbuf => 0x0100
  | .msgbuf => 0x0120
  | .pkbuf => 0x0400
  | .skbuf => 0x0800
  | .ctbuf => 0x1000
  | .xbuf => 0x1800

/-- The bytes of a buffer (R26, R66). -/
def Buffer.size : Buffer → Nat
  | .ssbuf => 32
  | .msgbuf => 32
  | .pkbuf => 928
  | .skbuf => 1056
  | .ctbuf => 1792
  | .xbuf => 1792

end Sys2Proof.Machine

namespace Sys2Proof

/-- Where a polynomial register stands in the window; coefficient `k` at `base + k` (R66). -/
def PReg.base : PReg → Nat
  | .p0 => 0x2000
  | .p1 => 0x2400
  | .p2 => 0x2800
  | .p3 => 0x2C00

/-- Where the slots of a sparse register stand in the window; slot `k` at `base + 2k` (R66). -/
def SReg.base : SReg → Nat
  | .s0 => 0x3000
  | .s1 => 0x3800

/-- Where a byte-string register stands in the window (R66). -/
def BReg.base : BReg → Nat
  | .b0 => 0x0200
  | .b1 => 0x0240
  | .b2 => 0x0280
  | .b3 => 0x02C0

end Sys2Proof

namespace Sys2Proof.Machine

/-- The implemented data ranges of the window, base and size (R66); every other data offset is reserved. -/
def windowMap : List (Nat × Nat) :=
  [(0x0100, 32), (0x0120, 32), (0x0200, 64), (0x0240, 64), (0x0280, 64), (0x02C0, 64), (0x0400, 928), (0x0800, 1056),
   (0x1000, 1792), (0x1800, 1792), (0x2000, 1024), (0x2400, 1024), (0x2800, 1024), (0x2C00, 1024), (0x3000, 2048),
   (0x3800, 2048)]

/-- A data offset that has storage (R66, R67). -/
def implemented (a : Nat) : Bool := windowMap.any fun r => decide (r.1 ≤ a) && decide (a < r.1 + r.2)

/-- The high byte of a sparse slot, whose bits 6:2 are the slot's bits 14:10 (R22, R61). -/
def slotHigh (a : Nat) : Bool := decide (0x3000 ≤ a) && decide (a < 0x4000) && decide (a % 2 = 1)

/-! ## Polynomial registers (R21) -/

/-- `P[i]` as an operand: its first `n` coefficients. -/
def State.readPoly (s : State) (r : PReg) (n : Nat) : List Byte := s.mem.readRange r.base n

/-- `P[i] <- a`: the coefficients, then zeros up to 1024. -/
def State.writePoly (s : State) (r : PReg) (a : List Byte) : State := s.writeAt r.base (fit nMax a)

/-! ## Byte-string registers (R23) -/

/-- `B[i][0..n)`. -/
def State.readBytes (s : State) (r : BReg) (n : Nat) : List Byte := s.mem.readRange r.base n

/-- `B[i] <- X`: the bytes, then zeros up to 64. -/
def State.writeBytes (s : State) (r : BReg) (x : List Byte) : State := s.writeAt r.base (fit bBytes x)

/-! ## Sparse registers (R22) -/

/-- `SiLEN`. -/
def State.sparseLen (s : State) (r : SReg) : Nat :=
  match r with
  | .s0 => s.s0len.toNat
  | .s1 => s.s1len.toNat

/-- `SiLEN <- v`. -/
def State.setSparseLen (s : State) (r : SReg) (v : Nat) : State :=
  match r with
  | .s0 => { s with s0len := BitVec.ofNat 11 v }
  | .s1 => { s with s1len := BitVec.ofNat 11 v }

/-- The pair a slot holds: `idx = e[9:0]` taken modulo `n`, `sgn = −1` iff `e[15]`; the slot given as its two bytes. -/
def slotTerm (n : Nat) (lo hi : Byte) : Term :=
  ⟨(lo.toNat + 256 * (hi.toNat % 4)) % n, if hi.getLsbD 7 then .minus else .plus⟩

/-- The two bytes of the slot of a pair, low byte first: `e[9:0] = idx`, `e[15] = 1` iff `sgn = −1`. -/
def slotBytes (t : Term) : List Byte :=
  [BitVec.ofNat 8 t.idx, BitVec.ofNat 8 (t.idx / 256 % 4 + (if t.sgn = .minus then 128 else 0))]

/-- The pair in slot `k` of a sparse register. -/
def State.slot (s : State) (r : SReg) (n k : Nat) : Term :=
  slotTerm n (s.mem.read (r.base + 2 * k)) (s.mem.read (r.base + 2 * k + 1))

/-- `S[i]` as an operand: the pairs of its first `SiLEN` slots, indices modulo `n` (a length above 1024, which no run reaches,
counts as 1024; log 14). -/
def State.readSparse (s : State) (r : SReg) (n : Nat) : List Term :=
  (List.range (min (s.sparseLen r) sMax)).map (s.slot r n)

/-- `S[i] <- l`: the length, the slots of the pairs, then zero slots up to 1024. -/
def State.writeSparse (s : State) (r : SReg) (l : List Term) : State :=
  (s.writeAt r.base (fit (2 * sMax) (l.flatMap slotBytes))).setSparseLen r l.length

/-! ## Buffers (R26) -/

/-- The first `n` bytes of a buffer. -/
def State.readBuf (s : State) (b : Buffer) (n : Nat) : List Byte := s.mem.readRange b.base n

/-- A buffer written by a command: the value at offset 0, zeros after it. -/
def State.writeBuf (s : State) (b : Buffer) (x : List Byte) : State := s.writeAt b.base (fit b.size x)

/-- A public key written to `PKBUF` with its length. -/
def State.writePk (s : State) (x : List Byte) : State :=
  { s.writeBuf .pkbuf x with pklen := BitVec.ofNat 11 x.length }

/-- A secret key written to `SKBUF` with its length. -/
def State.writeSk (s : State) (x : List Byte) : State :=
  { s.writeBuf .skbuf x with sklen := BitVec.ofNat 11 x.length }

/-- A ciphertext written to `CTBUF` with its length. -/
def State.writeCt (s : State) (x : List Byte) : State :=
  { s.writeBuf .ctbuf x with ctlen := BitVec.ofNat 11 x.length }

/-! ## Parameter set, seeds and operand ranges -/

/-- `CFG.PSEL`, bits 1:0 (R32). -/
def State.psel (s : State) : Nat := s.cfg.toNat % 4

/-- The record `P` of the rules: the set selected when the command starts (R9). -/
def State.params (s : State) : Option Params := paramsOf s.psel

/-- The parameter check, step (2) of R92: `E_PARAM` where `PSEL` selects no set (R243). -/
def State.withParams (s : State) (k : Params → State) : State :=
  match s.params with
  | some p => k p
  | none => s.raise .param

/-- A seed or coin operand: bytes 0 to 31 of a B register (R23, spec/42_sampling.md). -/
def State.seed (s : State) (r : BReg) : List Byte := s.readBytes r 32

/-- The range of PSRND's exponents (R127, R247). -/
def psrndRange (ln ld : Nat) : Bool := decide (1 ≤ ld) && decide (ld ≤ 8) && decide (ln ≤ ld)

/-- The range of a byte count of SRAND and BSEL (R158, R197, R247). -/
def countRange (n : Nat) : Bool := decide (1 ≤ n) && decide (n ≤ 64)

/-- The byte offset into `XBUF`, `ARG[11:0]` (R95, R81). -/
def State.packOffset (s : State) : Nat := s.arg.toNat % 2 ^ 12

/-- The range of PACK and UNPACK (R188, R247): the width, `ARG[31:12] = 0`, and the whole string inside `XBUF`. -/
def State.packRange (s : State) (n l : Nat) : Bool :=
  decide (1 ≤ l) && decide (l ≤ 8) && decide (s.arg.toNat / 2 ^ 12 = 0) && decide (s.packOffset + n * l / 8 ≤ xMax)

end Sys2Proof.Machine
end

