-- ==== Sys2Proof/Machine/Packer.lean ====
section
/-! DEFINITION. The coefficient packer, the serialized layouts, and the constant-time comparison and selection
(spec/44_pack_compare.md R185 to R187, R192 to R195, R197). -/

namespace Sys2Proof.Machine

/-- The packed string as one little-endian number, `Σ v_i·2^(i·l)` with `v_i` the top `l` bits of coefficient `i` (R186). -/
def packNat (l : Nat) : List Byte → Nat
  | [] => 0
  | x :: rest => x.toNat / 2 ^ (8 - l) + 2 ^ l * packNat l rest

/-- `Compress(a, l)` (R186): `n·l/8` bytes, stream bit `k` at bit `k mod 8` of byte `k div 8` (log 16). -/
def compress (a : List Byte) (l : Nat) : List Byte := leBytes (a.length * l / 8) (packNat l a)

/-- `n` coefficients taken from the stream `v`, `l` bits each, low-order first, placed in the high bits (R187). -/
def unpackNat (l : Nat) : Nat → Nat → List Byte
  | 0, _ => []
  | n + 1, v => BitVec.ofNat 8 (v % 2 ^ l * 2 ^ (8 - l)) :: unpackNat l n (v / 2 ^ l)

/-- `Decompress(X, n, l)` (R187). -/
def decompress (x : List Byte) (n l : Nat) : List Byte := unpackNat l n (leNat x)

/-- `PackPK(seed_a, b)` (R192). -/
def packPk (p : Params) (seedA b : List Byte) : List Byte := seedA ++ compress b (Nat.log2 p.p)

/-- The seed of a public key (`UnpackPK`, R192). -/
def pkSeed (pk : List Byte) : List Byte := pk.take 32

/-- The polynomial of a public key (`UnpackPK`, R192). -/
def pkPoly (p : Params) (pk : List Byte) : List Byte := decompress (pk.drop 32) p.n (Nat.log2 p.p)

/-- `PackSK(s, u)` (R193). -/
def packSk (s u : List Byte) : List Byte := s ++ u

/-- `PackCT(c1, c2)` (R194). -/
def packCt (p : Params) (c1 c2 : List Byte) : List Byte := compress c1 (Nat.log2 p.k1) ++ compress c2 (Nat.log2 p.k2)

/-- `c1` of a ciphertext (`UnpackCT`, R194). -/
def ctFirst (p : Params) (ct : List Byte) : List Byte := decompress (ct.take p.c1Bytes) p.n (Nat.log2 p.k1)

/-- `c2` of a ciphertext (`UnpackCT`, R194). -/
def ctSecond (p : Params) (ct : List Byte) : List Byte := decompress (ct.drop p.c1Bytes) p.n (Nat.log2 p.k2)

/-- `CtEqual(X, Y)` (R195): the OR of all XORs decides; no early exit. -/
def ctEqual (x y : List Byte) : Byte :=
  if (List.zipWith (fun a b => a ^^^ b) x y).foldl (fun acc v => acc ||| v) 0 = 0 then 0xFF else 0x00

/-- `Select(M, X, Y)` (R197): byte-mask blending. -/
def select (m : Byte) (x y : List Byte) : List Byte := List.zipWith (fun a b => (m &&& a) ||| ((m ^^^ 0xFF) &&& b)) x y

end Sys2Proof.Machine
end

