-- ==== Sys2Proof/Machine/Flags.lean ====
section
/-! DEFINITION. The flags: the `STATUS` word, its W1C write, the comparator's `EQ`, and the interrupt line (spec/10_state.md
R25, R35; spec/60_exceptions.md R250). -/

namespace Sys2Proof.Machine

/-- `STATUS` as it reads (R35); reserved bits read 0. -/
def State.status (s : State) : Word :=
  BitVec.ofNat 32 ((decide (s.run = .busy)).toNat + 2 * s.done.toNat + 4 * s.err.toNat + 8 * s.eq.toNat + 16 * s.accv.toNat +
    32 * s.cmdovr.toNat + 256 * s.errcode.toNat)

/-- A host write to `STATUS` (R35): a 1 clears `DONE`, `ERR` (and with it `ERRCODE`), `ACCV`, `CMDOVR`. -/
def State.clearStatus (s : State) (v : Word) : State :=
  { s with
    done := s.done && !v.getLsbD 1
    err := s.err && !v.getLsbD 2
    errcode := if v.getLsbD 2 then 0 else s.errcode
    accv := s.accv && !v.getLsbD 4
    cmdovr := s.cmdovr && !v.getLsbD 5 }

/-- `STATUS.EQ` from the comparator's mask: 1 iff it is 0xFF (R138, R196). -/
def State.setEq (s : State) (mask : Byte) : State := { s with eq := decide (mask = 0xFF) }

/-- The selection mask of BSEL: 0xFF iff `STATUS.EQ` (R197). -/
def State.eqMask (s : State) : Byte := if s.eq then 0xFF else 0x00

/-- The interrupt line (R250): a level, a function of `STATUS` and `CFG`. -/
def State.irq (s : State) : Bool := (s.done && s.cfg.getLsbD 8) || (s.err && s.cfg.getLsbD 9)

end Sys2Proof.Machine
end

