-- ==== Sys2Proof/Machine/XefD2.lean ====
section
/-! DEFINITION. The error-correcting codes XEf and D2 (spec/43_ecc.md R165 to R171, R174, R177), on bit strings as lists. -/

namespace Sys2Proof.Machine

/-- The register lengths `L_0 .. L_(2f−1)` of `XEF_DEFAULT` (R168); register 0 is the block register. -/
def xefLengths (d f : Nat) : List Nat :=
  if d = 128 ∧ f = 3 then [16, 11, 13, 15, 17, 19]
  else if d = 256 ∧ f = 5 then [16, 16, 17, 19, 21, 23, 25, 29, 31, 37]
  else []

/-- `pos(j, i)`: the position of message bit `i` in register `j` of length `len` (R168). -/
def xefPos (d j len i : Nat) : Nat := if j = 0 then i / (d / 16) else i % len

/-- The exclusive or of the message bits that register `j` puts at position `p` (R169). -/
def xefRegisterBit (d j len : Nat) (m : List Bool) (p : Nat) : Bool :=
  m.zipIdx.foldl (fun acc c => if xefPos d j len c.2 = p then acc ^^ c.1 else acc) false

/-- The bits of register `j` (R169). -/
def xefRegister (d j len : Nat) (m : List Bool) : List Bool := (List.range len).map (xefRegisterBit d j len m)

/-- The parity bits of the registers from number `j` on, one register after the other: register `j` at its offset `O_j`
(R168, R169). -/
def xefRegisters (d : Nat) (m : List Bool) : Nat → List Nat → List Bool
  | _, [] => []
  | j, len :: rest => xefRegister d j len m ++ xefRegisters d m (j + 1) rest

/-- `XefParity(m)` of `XEF_DEFAULT` (R169): `d` bits, zeros after the registers. -/
def xefParity (d f : Nat) (m : List Bool) : List Bool :=
  (xefRegisters d m 0 (xefLengths d f) ++ List.replicate d false).take d

/-- How many registers from number `j` on vote for message bit `i`, the syndrome of register `j` starting at offset `off`
(R170). -/
def xefVotes (d : Nat) (syn : List Bool) (i : Nat) : Nat → Nat → List Nat → Nat
  | _, _, [] => 0
  | j, off, len :: rest => (syn.getD (off + xefPos d j len i) false).toNat + xefVotes d syn i (j + 1) (off + len) rest

/-- Bits added pairwise modulo 2. -/
def xorBits (a b : List Bool) : List Bool := List.zipWith (fun x y => x ^^ y) a b

/-- `XefDecode(cw)` of `XEF_DEFAULT` (R170): a bit is flipped when at least `f + 1` registers vote for it. -/
def xefDefaultDecode (d f : Nat) (cw : List Bool) : List Bool :=
  let m := cw.take d
  let syn := xorBits (xefParity d f m) (cw.drop d)
  m.zipIdx.map fun c => c.1 ^^ decide (f + 1 ≤ xefVotes d syn c.2 0 0 (xefLengths d f))

/-- `XefEncode(m)` of `XEF_DEFAULT` (R169). -/
def xefDefaultEncode (d f : Nat) (m : List Bool) : List Bool := m ++ xefParity d f m

/-- Every bit string of `n` bits. -/
def allBits : Nat → List (List Bool)
  | 0 => [[]]
  | n + 1 => (allBits n).flatMap fun b => [false :: b, true :: b]

/-- The codeword that the offered external functions give a message: systematic, `d` parity bits (R167 X1). -/
def xefOfferedEncode (d f : Nat) (m : List Bool) : List Bool := m ++ (List.range d).map (Config.xefParityBit d f m)

/-- What the offered external functions answer on a word: `d` bits (R167 X3). -/
def xefOfferedDecode (d f : Nat) (cw : List Bool) : List Bool := (List.range d).map (Config.xefDecodedBit d f cw)

/-- The offered external functions correct every error of weight at most `f` (R167 X2): they are an `XEF` instance. -/
def xefOfferedCorrects (d f : Nat) : Bool :=
  (allBits d).all fun m => (allBits (2 * d)).all fun e =>
    decide (f < e.count true) || xefOfferedDecode d f (xorBits (xefOfferedEncode d f m) e) == m

/-- `XefEncode` of the code the engine is built with (R166, R167 X1). Functions that are no `XEF` instance cannot be built in:
`XEF_DEFAULT` stands in their place (log 8). -/
def xefEncode (code : XefCode) (d f : Nat) (m : List Bool) : List Bool :=
  match code with
  | .xefDefault => xefDefaultEncode d f m
  | .external => if xefOfferedCorrects d f then xefOfferedEncode d f m else xefDefaultEncode d f m

/-- `XefDecode` of the code the engine is built with (R166, R167 X2 to X4): `d` bits for every word, the message for a word
within `f` errors of its codeword, a fixed function of the word beyond, never an error. -/
def xefDecode (code : XefCode) (d f : Nat) (cw : List Bool) : List Bool :=
  match code with
  | .xefDefault => xefDefaultDecode d f cw
  | .external => if xefOfferedCorrects d f then xefOfferedDecode d f cw else xefDefaultDecode d f cw

/-- The amplitude of a bit: `q/2 = 128` or 0 (R174, R210). -/
def d2Amplitude (b : Bool) : Byte := if b then 128 else 0

/-- `D2Encode(c, N)` (R174): each bit sets two adjacent coefficients; zeros after them. -/
def d2Encode (c : List Bool) (n : Nat) : List Byte :=
  ((c.flatMap fun b => [d2Amplitude b, d2Amplitude b]) ++ List.replicate n 0).take n

/-- `D2Decode(a, n)` (R177): bit `i` is 1 iff `a[2i] + a[2i+1] ≥ 128`, the sum taken over the integers. -/
def d2Decode (a : List Byte) (n : Nat) : List Bool :=
  (List.range n).map fun i => decide (128 ≤ (a.getD (2 * i) 0).toNat + (a.getD (2 * i + 1) 0).toNat)

end Sys2Proof.Machine
end

