-- ==== Sys2Proof/Machine/Ecc.lean ====
section
/-! DEFINITION. The error-correction commands (spec/43_ecc.md). -/

namespace Sys2Proof.Machine

/-- XEFENC (R172): `B[d] <- BytesOf(XefEncode(BitsOf(B[a], d)))`, zeros after it. -/
def execXefenc (d a : BReg) (s : State) : Host.Outcome State Fault Refusal :=
  .next (s.withParams fun p =>
    (s.writeBytes d (bytesOf (xefEncode s.xef p.d p.f (bitsOf (s.readBytes a p.msgBytes) p.d)))).complete)

/-- XEFDEC (R173): `B[d] <- BytesOf(XefDecode(BitsOf(B[a], 2·d)))`, zeros after it; never an error, whatever the word. -/
def execXefdec (d a : BReg) (s : State) : Host.Outcome State Fault Refusal :=
  .next (s.withParams fun p =>
    (s.writeBytes d (bytesOf (xefDecode s.xef p.d p.f (bitsOf (s.readBytes a p.cwBytes) (2 * p.d))))).complete)

/-- D2ENC (R175): `P[d] <- D2Encode(BitsOf(B[a], 2·d), N)`. -/
def execD2enc (d : PReg) (a : BReg) (s : State) : Host.Outcome State Fault Refusal :=
  .next (s.withParams fun p => (s.writePoly d (d2Encode (bitsOf (s.readBytes a p.cwBytes) (2 * p.d)) p.n)).complete)

/-- D2DEC (R176): `B[d] <- BytesOf(D2Decode(P[a], 2·d))`, zeros after it. -/
def execD2dec (d : BReg) (a : PReg) (s : State) : Host.Outcome State Fault Refusal :=
  .next (s.withParams fun p => (s.writeBytes d (bytesOf (d2Decode (s.readPoly a p.n) (2 * p.d)))).complete)

end Sys2Proof.Machine
end

