-- ==== Sys2Proof/Machine/Oracle.lean ====
section
/-! DEFINITION. The hash oracle (spec/00_scope.md R14, spec/60_exceptions.md R262): two total pure functions, uninterpreted.
The output lengths and the prefix law hold by construction (log 4). -/

namespace Sys2Proof.Machine

/-- `SHAKE256(X, n)`: the first `n` bytes of the output stream on `X` (R14). -/
def shake256 (x : List Byte) (n : Nat) : List Byte := (List.range n).map (Config.shake256Byte x)

/-- `SHA3_256(X)`: 32 bytes (R14). -/
def sha3 (x : List Byte) : List Byte := (List.range 32).map (Config.sha3Byte x)

end Sys2Proof.Machine
end

