-- ==== Sys2Proof/Machine/Sampler.lean ====
section
/-! DEFINITION. The samplers and the seed derivation (spec/42_sampling.md R150, R152, R155). -/

namespace Sys2Proof.Machine

/-- `UniformPoly(seed, N)` (R150): the bytes of the stream are the coefficients. -/
def uniformPoly (seed : List Byte) (n : Nat) : List Byte := shake256 seed n

/-- Entries `i` and `j` of a list exchanged (R152). -/
def swapAt (pos : List Nat) (i j : Nat) : List Nat := (pos.set i (pos.getD j 0)).set j (pos.getD i 0)

/-- The first loop of `SampleSparse` (R152): a truncated Fisher–Yates shuffle of `0 .. N−1`, drawing `BE16(st, 2i)`. -/
def shuffle (st : List Byte) (n h : Nat) : List Nat :=
  (List.range h).foldl (fun pos i => swapAt pos i (i + be16 st (2 * i) % (n - i))) (List.range n)

/-- The sign of term `i` (R152): `+1` iff the low bit of `st[2h + i]` is 1. -/
def signOf (st : List Byte) (h i : Nat) : Sign := if (st.getD (2 * h + i) 0).getLsbD 0 then .plus else .minus

/-- The list that `SampleSparse` emits from the stream `st` of `3h` bytes (R152). -/
def sampleFrom (st : List Byte) (n h : Nat) : List Term :=
  let pos := shuffle st n h
  (List.range h).map fun i => ⟨pos.getD i 0, signOf st h i⟩

/-- `SampleSparse(seed, N, h)` (R152). -/
def sampleSparse (seed : List Byte) (n h : Nat) : List Term := sampleFrom (shake256 seed (3 * h)) n h

/-- `Derive(base, counter)` (R155). -/
def derive (base : List Byte) (counter : Word) : List Byte := shake256 (base ++ le32 counter) 32

end Sys2Proof.Machine
end

