-- ==== Sys2Proof/Machine/Pke.lean ====
section
/-! DEFINITION. Public-key encryption: the functions and the commands (spec/45_pke.md). The commands touch no P, S or B
register and not `XBUF` (R45). -/

namespace Sys2Proof.Machine

/-! ## The functions -/

/-- The public key that `PkeKeyGen` returns (R205). -/
def pkeKeyGenPk (p : Params) (seedA seedS : List Byte) : List Byte :=
  packPk p seedA (scaleRound (mulSparse (uniformPoly seedA p.n) (sampleSparse seedS p.n p.hs)) p.p 256)

/-- The dense secret key that `PkeKeyGen` returns (R205). -/
def pkeKeyGenSk (p : Params) (seedS : List Byte) : List Byte := fromSparse p.n (sampleSparse seedS p.n p.hs)

/-- The ephemeral `r`, seeded by the coin itself (R207 step 1). -/
def pkeEphemeral (p : Params) (coin : List Byte) : List Term := sampleSparse coin p.n p.hr

/-- The error polynomial `e1` (counter 0) or `e2` (counter 1), densified (R207 steps 2 and 3). -/
def pkeError (p : Params) (coin : List Byte) (counter : Word) : List Byte :=
  fromSparse p.n (sampleSparse (derive coin counter) p.n p.he)

/-- `EccEncode(m)` (R165): the message polynomial of R207 step 6. -/
def eccEncode (code : XefCode) (p : Params) (msg : List Byte) : List Byte :=
  d2Encode (xefEncode code p.d p.f (bitsOf msg p.d)) p.n

/-- `EccDecode(a)` (R165), as bytes. -/
def eccDecode (code : XefCode) (p : Params) (a : List Byte) : List Byte :=
  bytesOf (xefDecode code p.d p.f (d2Decode a (2 * p.d)))

/-- `c1 = a·r + e1` (R207 step 5; not rounded, R212). -/
def pkeC1 (p : Params) (pk coin : List Byte) : List Byte :=
  polyAdd (mulSparse (uniformPoly (pkSeed pk) p.n) (pkeEphemeral p coin)) (pkeError p coin 0)

/-- `c2 = m_poly + (b.scale(q/p))·r + e2` (R207 step 7; the message is not scaled again, R210). -/
def pkeC2 (code : XefCode) (p : Params) (pk msg coin : List Byte) : List Byte :=
  polyAdd
    (polyAdd (eccEncode code p msg)
      (mulSparse (polyScale (pkPoly p pk) (BitVec.ofNat 8 (256 / p.p))) (pkeEphemeral p coin)))
    (pkeError p coin 1)

/-- `PkeEncrypt(P, pk, msg, coin)` (R207). -/
def pkeEncrypt (code : XefCode) (p : Params) (pk msg coin : List Byte) : List Byte :=
  packCt p (pkeC1 p pk coin) (pkeC2 code p pk msg coin)

/-- `diff = c2 − c1·s`, the sparse form of `s` rebuilt by scanning (R213). -/
def pkeDiff (p : Params) (sDense ct : List Byte) : List Byte :=
  polySub (ctSecond p ct) (mulSparse (ctFirst p ct) (toSparse sDense))

/-- The rounding of decryption: `PolyScale(ScaleRound(diff, 2, 256), 128)` (R213, R215). -/
def pkeRecover (diff : List Byte) : List Byte := polyScale (scaleRound diff 2 256) 128

/-- `PkeDecrypt(P, s_dense, ct)` (R213): total, no oracle, no entropy. -/
def pkeDecrypt (code : XefCode) (p : Params) (sDense ct : List Byte) : List Byte :=
  eccDecode code p (pkeRecover (pkeDiff p sDense ct))

/-! ## The commands -/

/-- What a failed key generation leaves (R246): both key buffers zero, both lengths 0. -/
def State.noKeys (s : State) : State := (s.writePk []).writeSk []

/-- PKEKG (R206): two draws, `seed_a` then `seed_s`; `PKBUF`, `PKLEN`, `SKBUF`, `SKLEN` written. -/
def execPkekg (s : State) : Host.Outcome State Fault Refusal :=
  .next (s.withParams fun p => s.draw [32, 32]
    (fun xs s => ((s.writePk (pkeKeyGenPk p (xs.getD 0 []) (xs.getD 1 []))).writeSk (pkeKeyGenSk p (xs.getD 1 []))).complete)
    (fun s => s.noKeys.raise .entropy))

/-- PKEENC (R208): the coin is `B[a][0..32)`; `E_LEN` unless `PKLEN = pk_bytes`. -/
def execPkeenc (a : BReg) (s : State) : Host.Outcome State Fault Refusal :=
  .next (s.withParams fun p => s.require (decide (s.pklen.toNat = p.pkBytes)) .len
    (s.writeCt (pkeEncrypt s.xef p (s.readBuf .pkbuf p.pkBytes) (s.readBuf .msgbuf p.msgBytes) (s.seed a))).complete)

/-- PKEDEC (R214): `MSGBUF` from `SKBUF[0..N)` and `CTBUF`; `E_LEN` unless `SKLEN ∈ (N, sk_bytes)` and `CTLEN = ct_bytes`. -/
def execPkedec (s : State) : Host.Outcome State Fault Refusal :=
  .next (s.withParams fun p =>
    s.require ((decide (s.sklen.toNat = p.n) || decide (s.sklen.toNat = p.skBytes)) && decide (s.ctlen.toNat = p.ctBytes)) .len
      (s.writeBuf .msgbuf (pkeDecrypt s.xef p (s.readBuf .skbuf p.n) (s.readBuf .ctbuf p.ctBytes))).complete)

end Sys2Proof.Machine
end

