-- ==== Sys2Proof/Machine/Kem.lean ====
section
/-! DEFINITION. The KEM with the Fujisaki–Okamoto transform: the functions and the commands (spec/46_kem.md). -/

namespace Sys2Proof.Machine

/-! ## The functions -/

/-- The secret key that `KemKeyGen` returns (R225); its public key is that of `PkeKeyGen`. -/
def kemKeyGenSk (p : Params) (seedS u : List Byte) : List Byte := packSk (pkeKeyGenSk p seedS) u

/-- The ciphertext of `KemEncaps(P, pk, δ)` (R227): the coin is `SHA3_256(δ)`. -/
def kemEncapsCt (code : XefCode) (p : Params) (pk delta : List Byte) : List Byte := pkeEncrypt code p pk delta (sha3 delta)

/-- The shared secret `SHAKE256(c ‖ z, 32)` (R227, R229). -/
def kemSecret (c z : List Byte) : List Byte := shake256 (c ++ z) 32

/-- `δ̂` of decapsulation (R229). -/
def kemDelta (code : XefCode) (p : Params) (sk c : List Byte) : List Byte := pkeDecrypt code p (sk.take p.n) c

/-- The mask of the re-encryption check (R229): 0xFF where the ciphertext re-encrypts to itself. -/
def kemMatch (code : XefCode) (p : Params) (pk sk c : List Byte) : Byte :=
  ctEqual c (kemEncapsCt code p pk (kemDelta code p sk c))

/-- `KemDecaps(P, pk, sk, c)` (R229): implicit rejection by byte-mask blending. -/
def kemDecaps (code : XefCode) (p : Params) (pk sk c : List Byte) : List Byte :=
  kemSecret c (select (kemMatch code p pk sk c) (kemDelta code p sk c) ((sk.drop p.n).take p.uSize))

/-! ## The commands -/

/-- KEMKG (R226): three draws, `seed_a`, `seed_s`, `u`. -/
def execKemkg (s : State) : Host.Outcome State Fault Refusal :=
  .next (s.withParams fun p => s.draw [32, 32, p.uSize]
    (fun xs s => ((s.writePk (pkeKeyGenPk p (xs.getD 0 []) (xs.getD 1 []))).writeSk
      (kemKeyGenSk p (xs.getD 1 []) (xs.getD 2 []))).complete)
    (fun s => s.noKeys.raise .entropy))

/-- KEMENC (R228): `E_LEN` before any draw; one draw `δ`; `CTBUF`, `CTLEN`, `SSBUF` written, or zeroed on `E_ENTROPY`. -/
def execKemenc (s : State) : Host.Outcome State Fault Refusal :=
  .next (s.withParams fun p => s.require (decide (s.pklen.toNat = p.pkBytes)) .len
    (s.draw [p.msgBytes]
      (fun xs s => ((s.writeCt (kemEncapsCt s.xef p (s.readBuf .pkbuf p.pkBytes) (xs.getD 0 []))).writeBuf .ssbuf
        (kemSecret (kemEncapsCt s.xef p (s.readBuf .pkbuf p.pkBytes) (xs.getD 0 [])) (xs.getD 0 []))).complete)
      (fun s => ((s.writeCt []).writeBuf .ssbuf []).raise .entropy)))

/-- KEMDEC (R230): `SSBUF` from the three buffers, `EQ <- 0` on either outcome; a mismatch is no error (R232). -/
def execKemdec (s : State) : Host.Outcome State Fault Refusal :=
  .next (s.withParams fun p =>
    s.require (decide (s.pklen.toNat = p.pkBytes) && decide (s.sklen.toNat = p.skBytes) && decide (s.ctlen.toNat = p.ctBytes)) .len
      ({ s.writeBuf .ssbuf (kemDecaps s.xef p (s.readBuf .pkbuf p.pkBytes) (s.readBuf .skbuf p.skBytes)
        (s.readBuf .ctbuf p.ctBytes)) with eq := false }).complete)

end Sys2Proof.Machine
end

