-- ==== Sys2Proof/Machine/PackCompare.lean ====
section
/-! DEFINITION. Packing, comparison and selection commands (spec/44_pack_compare.md). -/

namespace Sys2Proof.Machine

/-- PACK (R188): `XBUF[off .. off + N·l/8) <- Compress(P[a], l)`, every other byte of `XBUF` unchanged. -/
def execPack (a : PReg) (l : Nat) (s : State) : Host.Outcome State Fault Refusal :=
  .next (s.withParams fun p => s.require (s.packRange p.n l) .operand
    (s.writeAt (Buffer.xbuf.base + s.packOffset) (fit (p.n * l / 8) (compress (s.readPoly a p.n) l))).complete)

/-- UNPACK (R189): `P[d] <- Decompress(XBUF[off .. off + N·l/8), N, l)`. -/
def execUnpack (d : PReg) (l : Nat) (s : State) : Host.Outcome State Fault Refusal :=
  .next (s.withParams fun p => s.require (s.packRange p.n l) .operand
    (s.writePoly d
      (decompress (s.mem.readRange (Buffer.xbuf.base + s.packOffset) (p.n * l / 8)) p.n l)).complete)

/-- BCTEQ (R196): `EQ` from the comparison of the first `n` bytes of `CTBUF` and `XBUF`; `E_OPERAND` if `n > 1792`. -/
def execBcteq (n : Nat) (s : State) : Host.Outcome State Fault Refusal :=
  .next (s.withParams fun _ => s.require (decide (n ≤ xMax)) .operand
    (s.setEq (ctEqual (s.readBuf .ctbuf n) (s.readBuf .xbuf n))).complete)

/-- BSEL (R197): `B[d]` blended from `B[a]` and `B[b]` by the mask of `EQ`, zeros after `n` bytes; `E_OPERAND` unless
`1 ≤ n ≤ 64`. -/
def execBsel (d a b : BReg) (n : Nat) (s : State) : Host.Outcome State Fault Refusal :=
  .next (s.withParams fun _ => s.require (countRange n) .operand
    (s.writeBytes d (select s.eqMask (s.readBytes a n) (s.readBytes b n))).complete)

end Sys2Proof.Machine
end

