-- ==== Sys2Proof/Machine/Polynomial.lean ====
section
/-! DEFINITION. The polynomial commands (spec/41_polynomial.md). Each reads its sources in full before it writes (R97). -/

namespace Sys2Proof.Machine

/-- PADD (R122): `P[d] <- PolyAdd(P[a], P[b])`. -/
def execPadd (d a b : PReg) (s : State) : Host.Outcome State Fault Refusal :=
  .next (s.withParams fun p => (s.writePoly d (polyAdd (s.readPoly a p.n) (s.readPoly b p.n))).complete)

/-- PSUB (R123): `P[d] <- PolySub(P[a], P[b])`. -/
def execPsub (d a b : PReg) (s : State) : Host.Outcome State Fault Refusal :=
  .next (s.withParams fun p => (s.writePoly d (polySub (s.readPoly a p.n) (s.readPoly b p.n))).complete)

/-- PNEG (R124): `P[d] <- PolyNeg(P[a])`. -/
def execPneg (d a : PReg) (s : State) : Host.Outcome State Fault Refusal :=
  .next (s.withParams fun p => (s.writePoly d (polyNeg (s.readPoly a p.n))).complete)

/-- PSCALE (R125): `P[d] <- PolyScale(P[a], f)`. -/
def execPscale (d a : PReg) (f : Byte) (s : State) : Host.Outcome State Fault Refusal :=
  .next (s.withParams fun p => (s.writePoly d (polyScale (s.readPoly a p.n) f)).complete)

/-- PSRND (R127): `P[d] <- ScaleRound(P[a], 2^ln, 2^ld)`; `E_OPERAND` unless `1 ≤ ld ≤ 8` and `ln ≤ ld`. -/
def execPsrnd (d a : PReg) (ln ld : Nat) (s : State) : Host.Outcome State Fault Refusal :=
  .next (s.withParams fun p => s.require (psrndRange ln ld) .operand
    (s.writePoly d (scaleRound (s.readPoly a p.n) (2 ^ ln) (2 ^ ld))).complete)

/-- PMULD (R131): `P[d] <- MulSchool(P[a], P[b])`. -/
def execPmuld (d a b : PReg) (s : State) : Host.Outcome State Fault Refusal :=
  .next (s.withParams fun p => (s.writePoly d (mulSchool (s.readPoly a p.n) (s.readPoly b p.n))).complete)

/-- PMULS (R133): `P[d] <- MulSparse(P[a], S[b])`. -/
def execPmuls (d a : PReg) (b : SReg) (s : State) : Host.Outcome State Fault Refusal :=
  .next (s.withParams fun p => (s.writePoly d (mulSparse (s.readPoly a p.n) (s.readSparse b p.n))).complete)

/-- PTOSP (R135): `S[d] <- ToSparse(P[a])`. -/
def execPtosp (d : SReg) (a : PReg) (s : State) : Host.Outcome State Fault Refusal :=
  .next (s.withParams fun p => (s.writeSparse d (toSparse (s.readPoly a p.n))).complete)

/-- PFRSP (R136): `P[d] <- FromSparse(S[a])`. -/
def execPfrsp (d : PReg) (a : SReg) (s : State) : Host.Outcome State Fault Refusal :=
  .next (s.withParams fun p => (s.writePoly d (fromSparse p.n (s.readSparse a p.n))).complete)

/-- PCTEQ (R138): `EQ` from the comparison of the first N coefficients. -/
def execPcteq (a b : PReg) (s : State) : Host.Outcome State Fault Refusal :=
  .next (s.withParams fun p => (s.setEq (ctEqual (s.readPoly a p.n) (s.readPoly b p.n))).complete)

end Sys2Proof.Machine
end

