-- ==== Sys2Proof/Machine/Sampling.lean ====
section
/-! DEFINITION. The sampling commands (spec/42_sampling.md). -/

namespace Sys2Proof.Machine

/-- SUNIF (R151): `P[d] <- UniformPoly(B[a][0..32), N)`. -/
def execSunif (d : PReg) (a : BReg) (s : State) : Host.Outcome State Fault Refusal :=
  .next (s.withParams fun p => (s.writePoly d (uniformPoly (s.seed a) p.n)).complete)

/-- SHWT (R153): `S[d] <- SampleSparse(B[a][0..32), N, h)`; `E_OPERAND` if `h > N`. -/
def execShwt (d : SReg) (a : BReg) (h : Nat) (s : State) : Host.Outcome State Fault Refusal :=
  .next (s.withParams fun p => s.require (decide (h ≤ p.n)) .operand
    (s.writeSparse d (sampleSparse (s.seed a) p.n h)).complete)

/-- SDERIVE (R156): `B[d] <- Derive(B[a][0..32), ARG)`, zeros after it. -/
def execSderive (d a : BReg) (s : State) : Host.Outcome State Fault Refusal :=
  .next (s.withParams fun _ => (s.writeBytes d (derive (s.seed a) s.arg)).complete)

/-- SRAND (R158): `B[d]` from one draw of `n` bytes; `E_OPERAND` unless `1 ≤ n ≤ 64`; on `E_ENTROPY` `B[d]` is zeroed (R246). -/
def execSrand (d : BReg) (n : Nat) (s : State) : Host.Outcome State Fault Refusal :=
  .next (s.withParams fun _ => s.require (countRange n) .operand
    (s.draw [n] (fun xs s => (s.writeBytes d xs.flatten).complete) (fun s => (s.writeBytes d []).raise .entropy)))

end Sys2Proof.Machine
end

