-- ==== Sys2Proof/Machine/System.lean ====
section
/-! DEFINITION. The system commands NOP and WIPE (spec/40_system.md). -/

namespace Sys2Proof.Machine

/-- A step of WIPE: done where its mask bit is set. -/
def State.wipeIf (bit : Bool) (f : State → State) (s : State) : State := if bit then f s else s

/-- A wiped range of the window: `size` zeros at `base`. -/
def State.zeroAt (base size : Nat) (s : State) : State := s.writeAt base (List.replicate size 0)

/-- WIPE's pseudocode (R111): each mask bit wipes the full physical size of its item and clears its length. The four B
registers, the four P registers and the two S registers each fill one range of the window (R66). -/
def State.wipe (mask : BitVec 11) (s : State) : State :=
  let s := s.wipeIf (mask.getLsbD 0) (State.zeroAt Buffer.ssbuf.base Buffer.ssbuf.size)
  let s := s.wipeIf (mask.getLsbD 1) (State.zeroAt Buffer.msgbuf.base Buffer.msgbuf.size)
  let s := s.wipeIf (mask.getLsbD 2) (fun s => { s.zeroAt Buffer.pkbuf.base Buffer.pkbuf.size with pklen := 0 })
  let s := s.wipeIf (mask.getLsbD 3) (fun s => { s.zeroAt Buffer.skbuf.base Buffer.skbuf.size with sklen := 0 })
  let s := s.wipeIf (mask.getLsbD 4) (fun s => { s.zeroAt Buffer.ctbuf.base Buffer.ctbuf.size with ctlen := 0 })
  let s := s.wipeIf (mask.getLsbD 5) (State.zeroAt Buffer.xbuf.base Buffer.xbuf.size)
  let s := s.wipeIf (mask.getLsbD 6) (State.zeroAt BReg.b0.base (4 * bBytes))
  let s := s.wipeIf (mask.getLsbD 7) (State.zeroAt PReg.p0.base (4 * nMax))
  let s := s.wipeIf (mask.getLsbD 8) (fun s => { s.zeroAt SReg.s0.base (4 * sMax) with s0len := 0, s1len := 0 })
  let s := s.wipeIf (mask.getLsbD 9) (fun s => { s with arg := 0 })
  s.wipeIf (mask.getLsbD 10) (fun s => { s with eq := false })

/-- NOP (R110): nothing but the completion; `PSEL` is not looked at. -/
def execNop (s : State) : Host.Outcome State Fault Refusal := .next s.complete

/-- WIPE (R111); `PSEL` is not looked at. -/
def execWipe (mask : BitVec 11) (s : State) : Host.Outcome State Fault Refusal := .next (s.wipe mask).complete

end Sys2Proof.Machine
end

