-- ==== Sys2Proof/Machine/Dispatch.lean ====
section
/-! DEFINITION. The dispatch of the commands to their meanings, one arm per row of spec/opcode_table.json. `exec i s` is the
completion event of command `i` (spec/30_encoding.md R92, steps 2 to 5). -/

namespace Sys2Proof.Machine

def exec (i : Instr) (s : State) : Host.Outcome State Fault Refusal :=
  match i with
  | .nop => Sys2Proof.Machine.execNop s
  | .wipe mask => Sys2Proof.Machine.execWipe mask s
  | .padd d a b => Sys2Proof.Machine.execPadd d a b s
  | .psub d a b => Sys2Proof.Machine.execPsub d a b s
  | .pneg d a => Sys2Proof.Machine.execPneg d a s
  | .pscale d a f => Sys2Proof.Machine.execPscale d a f s
  | .psrnd d a ln ld => Sys2Proof.Machine.execPsrnd d a ln ld s
  | .pmuld d a b => Sys2Proof.Machine.execPmuld d a b s
  | .pmuls d a b => Sys2Proof.Machine.execPmuls d a b s
  | .ptosp d a => Sys2Proof.Machine.execPtosp d a s
  | .pfrsp d a => Sys2Proof.Machine.execPfrsp d a s
  | .pcteq a b => Sys2Proof.Machine.execPcteq a b s
  | .sunif d a => Sys2Proof.Machine.execSunif d a s
  | .shwt d a h => Sys2Proof.Machine.execShwt d a h s
  | .sderive d a => Sys2Proof.Machine.execSderive d a s
  | .srand d n => Sys2Proof.Machine.execSrand d n s
  | .xefenc d a => Sys2Proof.Machine.execXefenc d a s
  | .xefdec d a => Sys2Proof.Machine.execXefdec d a s
  | .d2enc d a => Sys2Proof.Machine.execD2enc d a s
  | .d2dec d a => Sys2Proof.Machine.execD2dec d a s
  | .pack a l => Sys2Proof.Machine.execPack a l s
  | .unpack d l => Sys2Proof.Machine.execUnpack d l s
  | .bcteq n => Sys2Proof.Machine.execBcteq n s
  | .bsel d a b n => Sys2Proof.Machine.execBsel d a b n s
  | .pkekg => Sys2Proof.Machine.execPkekg s
  | .pkeenc a => Sys2Proof.Machine.execPkeenc a s
  | .pkedec => Sys2Proof.Machine.execPkedec s
  | .kemkg => Sys2Proof.Machine.execKemkg s
  | .kemenc => Sys2Proof.Machine.execKemenc s
  | .kemdec => Sys2Proof.Machine.execKemdec s

end Sys2Proof.Machine
end

