-- ==== Sys2Proof/Machine/Window.lean ====
section
/-! DEFINITION. The host's transactions on the register window, the bus error, and the reset event (spec/20_memory.md R60 to
R67, spec/10_state.md R30 to R39, spec/70_reset_and_hazards.md R280, R291, R292). -/

namespace Sys2Proof.Machine

/-- `ID` (R31): a constant. -/
def idWord : Word := 0x544B4501

/-- The offsets of the CSRs that a write acts on (R30, R66). -/
def csrCfg : Nat := 0x04
def csrCmd : Nat := 0x08
def csrArg : Nat := 0x0C
def csrStatus : Nat := 0x10
def csrPklen : Nat := 0x14
def csrSklen : Nat := 0x18
def csrCtlen : Nat := 0x1C
def csrS0len : Nat := 0x20
def csrS1len : Nat := 0x24

/-- The CSR word number `k`, at offset `4k` (R30); reserved offsets below the data read 0 (R67). -/
def State.csr (s : State) (k : Nat) : Word :=
  match k with
  | 0 => idWord
  | 1 => s.cfg
  | 2 => s.cmd
  | 3 => s.arg
  | 4 => s.status
  | 5 => s.pklen.setWidth 32
  | 6 => s.sklen.setWidth 32
  | 7 => s.ctlen.setWidth 32
  | 8 => s.s0len.setWidth 32
  | 9 => s.s1len.setWidth 32
  | _ => 0

/-- The byte the window shows at an offset while the engine is idle (R61, R66, R67). -/
def State.windowByte (s : State) (a : Nat) : Byte :=
  if a < dataStart then BitVec.ofNat 8 ((s.csr (a / 4)).toNat / 2 ^ (8 * (a % 4)))
  else if implemented a then s.mem.read a else 0

/-- A legal access: width 1, 2 or 4, naturally aligned, inside the window (R64). -/
def accessLegal (addr n : Nat) : Bool :=
  (n == 1 || n == 2 || n == 4) && decide (addr % n = 0) && decide (addr + n ≤ windowSize)

/-- A legal write: a CSR only as a 32-bit word (R63, R64). -/
def writeLegal (addr n : Nat) : Bool := accessLegal addr n && (decide (dataStart ≤ addr) || n == 4)

/-- The state after an access the busy engine refused (R291). -/
def State.accessRefused (s : State) : State := { s with accv := true }

/-- `MemRead(addr, n)` (R62): the bytes, little-endian; a data offset of the busy engine reads 0 and sets `ACCV`. -/
def State.hostRead (s : State) (addr n : Nat) : State :=
  if accessLegal addr n then
    if decide (dataStart ≤ addr) && decide (s.run = .busy) then { s.accessRefused with response := .value 0 }
    else { s with response := .value (BitVec.ofNat 32 (leNat ((List.range n).map fun k => s.windowByte (addr + k)))) }
  else { s with response := .busError }

/-- The bits of `CFG` that are implemented: `PSEL` 1:0, `IEN_DONE` 8, `IEN_ERR` 9 (R32). -/
def cfgMask : Word := 0x303

/-- A host-written sparse length: `min(v mod 2048, 1024)` (R39). -/
def sparseLenOf (v : Word) : Nat := min (v.toNat % 2048) sMax

/-- A write of an idle engine's CSR other than `CMD` and `STATUS` (R31 to R39); `ID` and reserved offsets ignore it. -/
def State.writeCsr (s : State) (addr : Nat) (v : Word) : State :=
  if addr = csrCfg then { s with cfg := v &&& cfgMask }
  else if addr = csrArg then { s with arg := v }
  else if addr = csrPklen then { s with pklen := BitVec.ofNat 11 v.toNat }
  else if addr = csrSklen then { s with sklen := BitVec.ofNat 11 v.toNat }
  else if addr = csrCtlen then { s with ctlen := BitVec.ofNat 11 v.toNat }
  else if addr = csrS0len then s.setSparseLen .s0 (sparseLenOf v)
  else if addr = csrS1len then s.setSparseLen .s1 (sparseLenOf v)
  else s

/-- What a byte written to a data offset stores: the high byte of a sparse slot keeps only bits 15 and 9:8 of it (R63). -/
def storedByte (a : Nat) (v : Byte) : Byte := if slotHigh a then v &&& 0x83 else v

/-- A byte written to a data offset of the idle engine; a reserved offset discards it (R63, R67). -/
def State.storeByte (s : State) (a : Nat) (v : Byte) : State :=
  if implemented a then s.writeAt a [storedByte a v] else s

/-- Bytes written to rising data offsets (R61, R63). -/
def State.storeBytes (s : State) (a : Nat) (bs : List Byte) : State :=
  match bs with
  | [] => s
  | b :: rest => (s.storeByte a b).storeBytes (a + 1) rest

/-- A legal host write by where it goes and whether the engine is busy (R63, R91, R291, R292). A `STATUS` write acts in both
states; a `CMD` write starts a command, or is dropped with `CMDOVR`; every other write of the busy engine is dropped with
`ACCV` (log 17). -/
def State.landWrite (s : State) (addr n : Nat) (v : Word) : State :=
  if addr = csrStatus then s.clearStatus v
  else if s.run = .busy then
    if addr = csrCmd then { s with cmdovr := true } else s.accessRefused
  else if addr = csrCmd then s.startCommand v
  else if dataStart ≤ addr then s.storeBytes addr (leBytes n v.toNat)
  else s.writeCsr addr v

/-- `MemWrite(addr, n, v)` (R63): it lands as `landWrite` says, or it is a bus error without effect (R64). -/
def State.hostWrite (s : State) (addr n : Nat) (v : Word) : State :=
  if writeLegal addr n then { s.landWrite addr n v with response := .written } else { s with response := .busError }

/-- The reset event (R280, R281): every piece of the engine's state at its reset value, a command in flight abandoned. The
environment's fields stay: the events still to come, the entropy port, the XEf code (log 11). -/
def State.resetEngine (s : State) : State :=
  { State.reset with inputs := s.inputs, entropy := s.entropy, xef := s.xef }

end Sys2Proof.Machine
end

