-- ==== Sys2Proof/Machine/Step.lean ====
section
/-! DEFINITION. One step of the machine: the next event of the total order (spec/20_memory.md R75). -/

namespace Sys2Proof.Machine

/-- The engine's turn (R24, R92): BUSY, the command in `CMD` completes, or is illegal and ends with `E_ILLCMD` (R99, R242);
IDLE, nothing is enabled and the engine holds its state (R275). -/
def engineTurn (s : State) : Host.Outcome State Fault Refusal :=
  match s.run with
  | .idle => .next s
  | .busy =>
    match decode s.cmd with
    | .ok i => exec i s
    | .error _ => .next (s.raise .illcmd)

/-- One event takes place. -/
def deliver (e : Event) (s : State) : Host.Outcome State Fault Refusal :=
  match e with
  | .read addr n => .next (s.hostRead addr n)
  | .write addr n v => .next (s.hostWrite addr n v)
  | .engine => engineTurn s
  | .reset => .next s.resetEngine

/-- One step: the next scheduled event, or, where none is scheduled, the engine's turn, so that a started command completes
(R92, R296; log 2). -/
def step (s : State) : Host.Outcome State Fault Refusal :=
  match s.inputs with
  | [] => engineTurn s
  | e :: rest => deliver e { s with inputs := rest }

/-- The state in which the very next step runs the command word `w`: the state right after an accepted `CMD` write of it
(R91), the engine's turn next (log 10). -/
def State.withFetchWord (s : State) (nbits w : Nat) : State :=
  { s.startCommand (BitVec.ofNat 32 (w % 2 ^ nbits)) with
    inputs := match s.inputs with
      | [] => []
      | e :: rest => .engine :: e :: rest }

end Sys2Proof.Machine
end

