-- ==== Sys2Proof/Safety.lean ====
section
/-! DEFINITION. The terms statements are written in: the opcode map as the spec prints it (spec/30_encoding.md R96), what a
command leaves unchanged, how it fails, and the invariants of the engine. -/

namespace Sys2Proof

/-- A row of the opcode map: a word `w` selects it iff `w AND mask = pattern` (R96). -/
structure OpcodeRow where
  pattern : Word
  mask : Word
deriving DecidableEq, Repr

/-- The row of each command, its match and mask copied from the table of R96. -/
def opcodeRow : Instr → OpcodeRow
  | .nop => ⟨0x00000000, 0xFFFFFFFF⟩
  | .wipe _ => ⟨0x01000000, 0xFFFFF800⟩
  | .padd _ _ _ => ⟨0x10000000, 0xFFCCCFFF⟩
  | .psub _ _ _ => ⟨0x11000000, 0xFFCCCFFF⟩
  | .pneg _ _ => ⟨0x12000000, 0xFFCCFFFF⟩
  | .pscale _ _ _ => ⟨0x13000000, 0xFFCCFF00⟩
  | .psrnd _ _ _ _ => ⟨0x14000000, 0xFFCCFF00⟩
  | .pmuld _ _ _ => ⟨0x15000000, 0xFFCCCFFF⟩
  | .pmuls _ _ _ => ⟨0x16000000, 0xFFCCEFFF⟩
  | .ptosp _ _ => ⟨0x17000000, 0xFFECFFFF⟩
  | .pfrsp _ _ => ⟨0x18000000, 0xFFCEFFFF⟩
  | .pcteq _ _ => ⟨0x19000000, 0xFFFCCFFF⟩
  | .sunif _ _ => ⟨0x20000000, 0xFFCCFFFF⟩
  | .shwt _ _ _ => ⟨0x21000000, 0xFFECF800⟩
  | .sderive _ _ => ⟨0x22000000, 0xFFCCFFFF⟩
  | .srand _ _ => ⟨0x23000000, 0xFFCFFF80⟩
  | .xefenc _ _ => ⟨0x30000000, 0xFFCCFFFF⟩
  | .xefdec _ _ => ⟨0x31000000, 0xFFCCFFFF⟩
  | .d2enc _ _ => ⟨0x32000000, 0xFFCCFFFF⟩
  | .d2dec _ _ => ⟨0x33000000, 0xFFCCFFFF⟩
  | .pack _ _ => ⟨0x40000000, 0xFFFCFFF0⟩
  | .unpack _ _ => ⟨0x41000000, 0xFFCFFFF0⟩
  | .bcteq _ => ⟨0x42000000, 0xFFFFF800⟩
  | .bsel _ _ _ _ => ⟨0x43000000, 0xFFCCCF80⟩
  | .pkekg => ⟨0x80000000, 0xFFFFFFFF⟩
  | .pkeenc _ => ⟨0x81000000, 0xFFFCFFFF⟩
  | .pkedec => ⟨0x82000000, 0xFFFFFFFF⟩
  | .kemkg => ⟨0x90000000, 0xFFFFFFFF⟩
  | .kemenc => ⟨0x91000000, 0xFFFFFFFF⟩
  | .kemdec => ⟨0x92000000, 0xFFFFFFFF⟩

/-- The word selects the row of the command (R96). -/
def Instr.selects (i : Instr) (w : Word) : Prop := w &&& (opcodeRow i).mask = (opcodeRow i).pattern

namespace Machine

/-! ## What a command leaves -/

/-- Every byte of the window outside the given ranges (base, size) reads in `t` as in `s`. -/
def SameOutside (s t : State) (ranges : List (Nat × Nat)) : Prop :=
  ∀ a, (∀ r ∈ ranges, a < r.1 ∨ r.1 + r.2 ≤ a) → t.mem.read a = s.mem.read a

/-- `t` is `s` after a completion without error whose only destinations are the given ranges of the window: `DONE` set, the
engine IDLE, every other byte and every other field unchanged. -/
def CompletesIn (s t : State) (ranges : List (Nat × Nat)) : Prop :=
  t = { s with run := .idle, done := true, mem := t.mem } ∧ SameOutside s t ranges

/-- `s` after an error completion that touches nothing but `STATUS` and `STATE` (R246). -/
def State.failed (s : State) (code : BitVec 4) : State := { s with run := .idle, err := true, errcode := code }

/-- The command raises `E_PARAM` (code 3) wherever `CFG.PSEL = 3`, with no other effect (R243, R246). -/
def RaisesParam (i : Instr) : Prop :=
  ∀ s : State, s.cfg.toNat % 4 = 3 → exec i s = .next (s.failed 3)

/-- Every word with this opcode that matches no row of R96 ends with `E_ILLCMD` (code 1) and no other effect (R99, R242). -/
def RaisesIllcmd (opc : Nat) : Prop :=
  ∀ s : State, s.run = .busy → s.cmd.toNat / 2 ^ 24 = opc → (∀ i : Instr, ¬ i.selects s.cmd) →
    engineTurn s = .next (s.failed 1)

/-- Bit `i` of the byte string at `base`, most significant bit of each byte first (`BitOf`, R13). -/
def State.bitAt (s : State) (base i : Nat) : Bool := (s.mem.read (base + i / 8)).getLsbD (7 - i % 8)

/-- An access that is no bus error: width 1, 2 or 4, naturally aligned, inside the window (R62, R64). -/
def LegalAccess (addr n : Nat) : Prop := (n = 1 ∨ n = 2 ∨ n = 4) ∧ addr % n = 0 ∧ addr + n ≤ 0x4000

/-! ## Invariants -/

/-- The window's memory: canonical, no byte at a reserved offset, bits 14:10 of every sparse slot 0 (R22, R66; log 1). -/
structure MemoryInv (s : State) : Prop where
  canonical : s.mem.wf
  located : ∀ c ∈ s.mem, implemented c.1 = true
  slots : ∀ c ∈ s.mem, slotHigh c.1 = true → c.2 &&& 0x7C = 0

/-- The invariants of `STATUS` (R35) and the range of `ERRCODE` (R241). -/
structure StatusInv (s : State) : Prop where
  exclusive : ¬ (s.done = true ∧ s.err = true)
  busy : s.run = .busy → s.done = false ∧ s.err = false
  errcode : s.errcode ≠ 0 ↔ s.err = true
  range : s.errcode.toNat ≤ 5

/-- The reserved bits of `CFG` read 0 (R32), and a sparse length is at most 1024 (R39). -/
structure CsrInv (s : State) : Prop where
  cfg : s.cfg &&& 0xFFFFFCFC = 0
  s0len : s.s0len.toNat ≤ 1024
  s1len : s.s1len.toNat ≤ 1024

end Machine

end Sys2Proof
end

