-- ==== Sys2Proof/Certificates/Slice0/Obligations.lean ====
section
/-! DEFINITION. The statements for the provers, one per obligation of OBLIGATIONS.json. -/

open Sys2Proof Sys2Proof.Machine

/-! ## Encoding -/

/-- Decoding the word of a well-formed command gives the command back (R96, R101). -/
def Obligations.DecodeOfEncodeIsTheCommand : Prop :=
  ∀ i : Instr, i.wellFormed = true → decode (encode i) = .ok i

/-- A word has one meaning: it is the word of the command it decodes to, and that command is well-formed (R96, R101). -/
def Obligations.EncodeOfDecodeIsTheWord : Prop :=
  ∀ (w : Word) (i : Instr), decode w = .ok i → i.wellFormed = true ∧ encode i = w

/-- The decoder is the table of R96: a word decodes to a command only if it selects that command's row, and every word that
selects a row decodes to a command of that row. -/
def Obligations.DecoderFollowsTheOpcodeMap : Prop :=
  ∀ w : Word,
    (∀ i, decode w = .ok i → i.selects w) ∧
    (∀ j : Instr, j.selects w → ∃ i, decode w = .ok i ∧ opcodeRow i = opcodeRow j)

/-- Words written out in the examples of the rules decode to the commands they stand for; a reserved opcode does not. -/
def Obligations.ExampleWordsDecode : Prop :=
  decode 0x010007FF = .ok (.wipe 0x7FF) ∧ decode 0x10012000 = .ok (.padd .p0 .p1 .p2) ∧
  decode 0x14010087 = .ok (.psrnd .p0 .p1 7 8) ∧ decode 0x16010000 = .ok (.pmuls .p0 .p1 .s0) ∧
  decode 0x210100A0 = .ok (.shwt .s0 .b1 160) ∧ decode 0x31210000 = .ok (.xefdec .b2 .b1) ∧
  decode 0x40010007 = .ok (.pack .p1 7) ∧ decode 0x43201004 = .ok (.bsel .b2 .b0 .b1 4) ∧
  decode 0x82000000 = .ok .pkedec ∧ decode 0x92000000 = .ok .kemdec ∧
  decode 0x02000000 = .error .reservedOpcode

/-! ## Steps -/

/-- A step of the busy engine runs the command that the word in `CMD` decodes to; an idle engine has no enabled step and holds
its state (R24, R92, R275). The schedule is the model's (log 2). -/
def Obligations.StepRunsTheDecodedCommand : Prop :=
  ∀ s : State,
    (∀ i, s.run = .busy → decode s.cmd = .ok i →
      (s.inputs = [] → step s = exec i s) ∧
      (∀ rest, s.inputs = .engine :: rest → step s = exec i { s with inputs := rest })) ∧
    (s.run = .idle →
      (s.inputs = [] → step s = .next s) ∧
      (∀ rest, s.inputs = .engine :: rest → step s = .next { s with inputs := rest }))

/-- A word that selects no row of R96 ends with `E_ILLCMD` (code 1) and no other effect, whatever `PSEL` is (R99, R242). The
schedule is the model's (log 2). -/
def Obligations.IllegalWordEndsWithIllcmd : Prop :=
  ∀ s : State, s.run = .busy → (∀ i : Instr, ¬ i.selects s.cmd) →
    (s.inputs = [] → step s = .next (s.failed 1)) ∧
    (∀ rest, s.inputs = .engine :: rest → step s = .next (State.failed { s with inputs := rest } 1))

/-- A 32-bit write to `CMD`: the idle engine latches and starts it, the busy engine drops it and sets `CMDOVR` (R91, R292). The
schedule and the answer to the host are the model's (log 2, log 3). -/
def Obligations.CommandWriteStartsOrIsDropped : Prop :=
  ∀ (s : State) (v : Word) (rest : List Event), s.inputs = .write 0x0008 4 v :: rest →
    (s.run = .idle → step s = .next { s with
      inputs := rest, response := .written,
      cmd := v, done := false, err := false, errcode := 0, run := .busy }) ∧
    (s.run = .busy → step s = .next { s with inputs := rest, response := .written, cmdovr := true })

/-- The busy engine answers 0 to a read of a data offset and drops a write to anything but `CMD` and `STATUS`, and sets `ACCV`
in both cases; nothing else changes (R62, R63, R291). The schedule and the answers are the model's (log 2, log 3), and so is
that `ID` and the reserved offsets count among the other writes (log 17). -/
def Obligations.BusyEngineRefusesAccesses : Prop :=
  ∀ (s : State) (addr n : Nat) (rest : List Event), s.run = .busy → LegalAccess addr n →
    (0x0100 ≤ addr → s.inputs = .read addr n :: rest →
      step s = .next { s with inputs := rest, response := .value 0, accv := true }) ∧
    (∀ v, (0x0100 ≤ addr ∨ (n = 4 ∧ addr ≠ 0x0008 ∧ addr ≠ 0x0010)) → s.inputs = .write addr n v :: rest →
      step s = .next { s with inputs := rest, response := .written, accv := true })

/-- What the host does to `ACCV`, `CMDOVR` and the bus while a command is in flight does not disturb it: its result is exactly
what it would have been (R291, R292). -/
def Obligations.AccessesDoNotDisturbTheCommand : Prop :=
  ∀ (i : Instr) (s t : State) (a c : Bool) (r : HostResponse) (l : List Event), exec i s = .next t →
    exec i { s with accv := a, cmdovr := c, response := r, inputs := l } =
      .next { t with accv := a, cmdovr := c, response := r, inputs := l }

/-- An illegal access gets the bus error response and has no effect on the engine, not even `ACCV` (R64). The schedule and the
form of the response are the model's (log 2, log 3, log 20). -/
def Obligations.BusErrorHasNoEffect : Prop :=
  ∀ (s : State) (addr n : Nat) (v : Word) (rest : List Event),
    (¬ LegalAccess addr n → s.inputs = .read addr n :: rest →
      step s = .next { s with inputs := rest, response := .busError }) ∧
    (¬ LegalAccess addr n ∨ (addr < 0x0100 ∧ n ≠ 4) → s.inputs = .write addr n v :: rest →
      step s = .next { s with inputs := rest, response := .busError })

/-- What the window shows at an offset: the CSRs below 0x0028, the byte of storage at an implemented data offset, 0 at a
reserved offset; which data offsets are implemented, and where the registers stand in them (R30, R31, R61, R66, R67). -/
def Obligations.WindowShowsTheMap : Prop :=
  (∀ a, implemented a = true ↔
    (0x0100 ≤ a ∧ a < 0x0140) ∨ (0x0200 ≤ a ∧ a < 0x0300) ∨ (0x0400 ≤ a ∧ a < 0x07A0) ∨ (0x0800 ≤ a ∧ a < 0x0C20) ∨
    (0x1000 ≤ a ∧ a < 0x1700) ∨ (0x1800 ≤ a ∧ a < 0x1F00) ∨ (0x2000 ≤ a ∧ a < 0x4000)) ∧
  (∀ r : PReg, r.base = 0x2000 + 0x400 * r.num) ∧ (∀ r : SReg, r.base = 0x3000 + 0x800 * r.num) ∧
  (∀ r : BReg, r.base = 0x0200 + 0x40 * r.num) ∧
  ∀ s : State,
    (∀ a, implemented a = true → s.windowByte a = s.mem.read a) ∧
    (∀ a, 0x0028 ≤ a → implemented a = false → s.windowByte a = 0) ∧
    ∀ j, j < 4 →
      s.windowByte j = (0x544B4501#32).extractLsb' (8 * j) 8 ∧
      s.windowByte (0x04 + j) = s.cfg.extractLsb' (8 * j) 8 ∧
      s.windowByte (0x08 + j) = s.cmd.extractLsb' (8 * j) 8 ∧
      s.windowByte (0x0C + j) = s.arg.extractLsb' (8 * j) 8 ∧
      s.windowByte (0x10 + j) = s.status.extractLsb' (8 * j) 8 ∧
      s.windowByte (0x14 + j) = (s.pklen.setWidth 32).extractLsb' (8 * j) 8 ∧
      s.windowByte (0x18 + j) = (s.sklen.setWidth 32).extractLsb' (8 * j) 8 ∧
      s.windowByte (0x1C + j) = (s.ctlen.setWidth 32).extractLsb' (8 * j) 8 ∧
      s.windowByte (0x20 + j) = (s.s0len.setWidth 32).extractLsb' (8 * j) 8 ∧
      s.windowByte (0x24 + j) = (s.s1len.setWidth 32).extractLsb' (8 * j) 8

/-- A legal read that the engine serves returns the addressed bytes of the window, little-endian, and has no side effect; so a
word read and its four byte reads agree (R61, R62, R65). The schedule and the answer are the model's (log 2, log 3). -/
def Obligations.ReadReturnsTheWindowBytes : Prop :=
  ∀ (s : State) (addr n : Nat) (rest : List Event), LegalAccess addr n → (addr < 0x0100 ∨ s.run = .idle) →
    s.inputs = .read addr n :: rest →
    ∃ v : Word, step s = .next { s with inputs := rest, response := .value v } ∧
      ∀ k, k < 4 → v.extractLsb' (8 * k) 8 = if k < n then s.windowByte (addr + k) else 0

/-- A legal write of the idle engine to data offsets stores the bytes of the value, little-endian; a reserved offset discards
its byte, and the high byte of a sparse slot keeps bits 15 and 9:8 of the slot only (R61, R63, R67). The schedule and the
answer are the model's (log 2, log 3). -/
def Obligations.WriteStoresTheBytes : Prop :=
  ∀ (s : State) (addr n : Nat) (v : Word) (rest : List Event), LegalAccess addr n → 0x0100 ≤ addr → s.run = .idle →
    s.inputs = .write addr n v :: rest →
    ∃ t, step s = .next t ∧ t = { s with inputs := rest, response := .written, mem := t.mem } ∧
      ∀ a, t.mem.read a =
        if addr ≤ a ∧ a < addr + n ∧ implemented a = true then
          if 0x3000 ≤ a ∧ a % 2 = 1 then v.extractLsb' (8 * (a - addr)) 8 &&& 0x83 else v.extractLsb' (8 * (a - addr)) 8
        else s.mem.read a

/-- Writes of the idle engine's CSRs store their implemented bits and change nothing else; `ID` and reserved offsets ignore
writes (R31, R32, R34, R36 to R39, R67). The schedule and the answer are the model's (log 2, log 3). -/
def Obligations.CsrWritesStoreTheirFields : Prop :=
  ∀ (s u : State) (addr : Nat) (v : Word) (rest : List Event), s.run = .idle → s.inputs = .write addr 4 v :: rest →
    u = { s with inputs := rest, response := .written } →
    (addr = 0x04 → step s = .next { u with cfg := v &&& 0x00000303 }) ∧
    (addr = 0x0C → step s = .next { u with arg := v }) ∧
    (addr = 0x14 → step s = .next { u with pklen := v.extractLsb' 0 11 }) ∧
    (addr = 0x18 → step s = .next { u with sklen := v.extractLsb' 0 11 }) ∧
    (addr = 0x1C → step s = .next { u with ctlen := v.extractLsb' 0 11 }) ∧
    (addr = 0x20 → step s = .next { u with s0len := BitVec.ofNat 11 (min (v.toNat % 2048) 1024) }) ∧
    (addr = 0x24 → step s = .next { u with s1len := BitVec.ofNat 11 (min (v.toNat % 2048) 1024) }) ∧
    (addr = 0x00 ∨ (0x28 ≤ addr ∧ addr < 0x0100 ∧ addr % 4 = 0) → step s = .next u)

/-- The fields of `STATUS`, its W1C write in both states, and the level of `irq` as a function of what reads (R35, R250). The
schedule and the answer are the model's (log 2, log 3). -/
def Obligations.StatusReadsAndClearsItsFields : Prop :=
  ∀ s : State,
    (s.status.getLsbD 0 = decide (s.run = .busy) ∧ s.status.getLsbD 1 = s.done ∧ s.status.getLsbD 2 = s.err ∧
      s.status.getLsbD 3 = s.eq ∧ s.status.getLsbD 4 = s.accv ∧ s.status.getLsbD 5 = s.cmdovr ∧
      s.status.extractLsb' 6 2 = 0 ∧ s.status.extractLsb' 8 4 = s.errcode ∧ s.status.extractLsb' 12 20 = 0) ∧
    s.irq = ((s.status.getLsbD 1 && s.cfg.getLsbD 8) || (s.status.getLsbD 2 && s.cfg.getLsbD 9)) ∧
    ∀ (v : Word) (rest : List Event), s.inputs = .write 0x0010 4 v :: rest →
      step s = .next { s with
        inputs := rest, response := .written,
        done := s.done && !v.getLsbD 1, err := s.err && !v.getLsbD 2,
        errcode := if v.getLsbD 2 then 0 else s.errcode,
        accv := s.accv && !v.getLsbD 4, cmdovr := s.cmdovr && !v.getLsbD 5 }

/-- The reset event puts every piece of the engine's state at its reset value, in either `STATE`, and a command in flight leaves
nothing; what reads then is IDLE, the constant `ID`, 0 at every other offset, `irq` low (R55, R280, R281). That the environment's
fields stay is the model's choice (log 11), and so is the schedule (log 2). -/
def Obligations.ResetRestoresTheResetState : Prop :=
  (∀ (s : State) (rest : List Event), s.inputs = .reset :: rest →
    step s = .next { State.reset with inputs := rest, entropy := s.entropy, xef := s.xef }) ∧
  State.reset.run = .idle ∧ State.reset.irq = false ∧ State.reset.status = 0 ∧ State.reset.cfg = 0 ∧
  (∀ a, State.reset.mem.read a = 0) ∧
  (∀ a, State.reset.windowByte a =
    if a = 0 then 0x01 else if a = 1 then 0x45 else if a = 2 then 0x4B else if a = 3 then 0x54 else 0)

/-! ## Every command -/

/-- Every command completes (R92): it answers a next state that is IDLE, with either `DONE` or `ERR` and a code set and the
other left as it was; `CFG`, `CMD`, `ACCV`, `CMDOVR` are unchanged (R246), and so are the host's side and the XEf instance. -/
def Obligations.EveryCommandCompletes : Prop :=
  ∀ (i : Instr) (s : State), ∃ t, exec i s = .next t ∧ t.run = .idle ∧ t.cfg = s.cfg ∧ t.cmd = s.cmd ∧ t.accv = s.accv ∧
    t.cmdovr = s.cmdovr ∧ t.inputs = s.inputs ∧ t.response = s.response ∧ t.xef = s.xef ∧
    ((t.done = true ∧ t.err = s.err ∧ t.errcode = s.errcode) ∨
      (t.done = s.done ∧ t.err = true ∧ 2 ≤ t.errcode.toNat ∧ t.errcode.toNat ≤ 5))

/-- `E_PARAM` (code 3) is raised by every command except NOP and WIPE when `CFG.PSEL = 3`, with no other effect (R243); NOP and
WIPE complete without an error whatever `PSEL` is. -/
def Obligations.EveryOtherCommandRaisesParam : Prop :=
  (∀ i : Instr, i ≠ .nop → (∀ m, i ≠ .wipe m) → RaisesParam i) ∧
  ∀ (i : Instr) (s : State), (i = .nop ∨ ∃ m, i = .wipe m) → ∃ t, exec i s = .next t ∧ t.done = true ∧ t.err = s.err

/-- Who writes what, whatever the outcome: `EQ` only PCTEQ, BCTEQ, KEMDEC and WIPE (R25); `ARG` only WIPE (R34); `PKLEN` and
`SKLEN` only the key generations and WIPE, `CTLEN` only the encryptions and WIPE (R36 to R38); `S0LEN`, `S1LEN` only SHWT, PTOSP
and WIPE (R39); entropy is drawn by SRAND, PKEKG, KEMKG, KEMENC alone (R263). -/
def Obligations.OnlyTheNamedCommandsWrite : Prop :=
  ∀ (i : Instr) (s t : State), exec i s = .next t → (∀ m, i ≠ .wipe m) →
    t.arg = s.arg ∧
    ((∀ a b, i ≠ .pcteq a b) → (∀ n, i ≠ .bcteq n) → i ≠ .kemdec → t.eq = s.eq) ∧
    (i ≠ .pkekg → i ≠ .kemkg → t.pklen = s.pklen ∧ t.sklen = s.sklen) ∧
    ((∀ a, i ≠ .pkeenc a) → i ≠ .kemenc → t.ctlen = s.ctlen) ∧
    ((∀ d a h, i ≠ .shwt d a h) → (∀ d a, i ≠ .ptosp d a) → t.s0len = s.s0len ∧ t.s1len = s.s1len) ∧
    ((∀ d n, i ≠ .srand d n) → i ≠ .pkekg → i ≠ .kemkg → i ≠ .kemenc → t.entropy = s.entropy)

/-! ## Invariants -/

/-- The three invariants hold right after reset. -/
def Obligations.InvariantsHoldAtReset : Prop :=
  MemoryInv State.reset ∧ StatusInv State.reset ∧ CsrInv State.reset

/-- Every step, from every state, keeps the memory's canonical form, stores nothing at a reserved offset and keeps bits 14:10
of every sparse slot 0 (R22, R66, R67). The canonical form is the model's (log 1). -/
def Obligations.EveryStepKeepsTheMemory : Prop :=
  ∀ s t : State, MemoryInv s → step s = .next t → MemoryInv t

/-- Every step keeps the invariants of `STATUS` (R35), produces no reserved error code (R241), and keeps the reserved bits of
`CFG` 0 (R32) and the sparse lengths at most 1024 (R22, R39). -/
def Obligations.EveryStepKeepsTheFlagsAndCsrs : Prop :=
  ∀ s t : State, step s = .next t → (StatusInv s → StatusInv t) ∧ (CsrInv s → CsrInv t)

/-! ## System commands -/

/-- NOP (R110) does nothing but complete. WIPE (R111): each mask bit zeroes its item in full, with its length; everything else is
unchanged. Both whatever `PSEL` is. -/
def Obligations.NopCompletesAndWipeZeroes : Prop :=
  (encode .nop = 0x00000000 ∧ RaisesIllcmd 0x00 ∧ ∀ s : State, exec .nop s = .next { s with run := .idle, done := true }) ∧
  RaisesIllcmd 0x01 ∧
  ∀ (m : BitVec 11) (s : State),
    (encode (.wipe m)).toNat = 0x01000000 + m.toNat ∧
    ∃ t, exec (.wipe m) s = .next t ∧
      t = { s with
        run := .idle, done := true, mem := t.mem
        pklen := if m.getLsbD 2 then 0 else s.pklen
        sklen := if m.getLsbD 3 then 0 else s.sklen
        ctlen := if m.getLsbD 4 then 0 else s.ctlen
        s0len := if m.getLsbD 8 then 0 else s.s0len
        s1len := if m.getLsbD 8 then 0 else s.s1len
        arg := if m.getLsbD 9 then 0 else s.arg
        eq := if m.getLsbD 10 then false else s.eq } ∧
      ∀ a, t.mem.read a =
        if (m.getLsbD 0 = true ∧ 0x0100 ≤ a ∧ a < 0x0120) ∨ (m.getLsbD 1 = true ∧ 0x0120 ≤ a ∧ a < 0x0140) ∨
          (m.getLsbD 2 = true ∧ 0x0400 ≤ a ∧ a < 0x07A0) ∨ (m.getLsbD 3 = true ∧ 0x0800 ≤ a ∧ a < 0x0C20) ∨
          (m.getLsbD 4 = true ∧ 0x1000 ≤ a ∧ a < 0x1700) ∨ (m.getLsbD 5 = true ∧ 0x1800 ≤ a ∧ a < 0x1F00) ∨
          (m.getLsbD 6 = true ∧ 0x0200 ≤ a ∧ a < 0x0300) ∨ (m.getLsbD 7 = true ∧ 0x2000 ≤ a ∧ a < 0x3000) ∨
          (m.getLsbD 8 = true ∧ 0x3000 ≤ a ∧ a < 0x4000)
        then 0 else s.mem.read a

/-! ## Polynomial commands -/

/-- PADD (R121, R122) and PSUB (R121, R123): coefficients add, or first minus second, modulo 256; lanes `N` to 1023 of the
destination become 0; nothing else changes. -/
def Obligations.PaddAndPsubCombineCoefficients : Prop :=
  ∀ d a b : PReg,
    (encode (.padd d a b)).toNat = 0x10000000 + d.num * 2 ^ 20 + a.num * 2 ^ 16 + b.num * 2 ^ 12 ∧
    (encode (.psub d a b)).toNat = 0x11000000 + d.num * 2 ^ 20 + a.num * 2 ^ 16 + b.num * 2 ^ 12 ∧
    RaisesParam (.padd d a b) ∧ RaisesIllcmd 0x10 ∧ RaisesParam (.psub d a b) ∧ RaisesIllcmd 0x11 ∧
    ∀ (s : State) (p : Params), s.params = some p →
      (∃ t, exec (.padd d a b) s = .next t ∧ CompletesIn s t [(d.base, 1024)] ∧
        (∀ k, k < p.n → t.mem.read (d.base + k) = s.mem.read (a.base + k) + s.mem.read (b.base + k)) ∧
        ∀ k, p.n ≤ k → k < 1024 → t.mem.read (d.base + k) = 0) ∧
      (∃ t, exec (.psub d a b) s = .next t ∧ CompletesIn s t [(d.base, 1024)] ∧
        (∀ k, k < p.n → t.mem.read (d.base + k) = s.mem.read (a.base + k) - s.mem.read (b.base + k)) ∧
        ∀ k, p.n ≤ k → k < 1024 → t.mem.read (d.base + k) = 0)

/-- PNEG (R121, R124) and PSCALE (R121, R125): coefficients negate, or multiply by `f`, modulo 256. -/
def Obligations.PnegAndPscaleMapCoefficients : Prop :=
  ∀ (d a : PReg) (f : Byte),
    (encode (.pneg d a)).toNat = 0x12000000 + d.num * 2 ^ 20 + a.num * 2 ^ 16 ∧
    (encode (.pscale d a f)).toNat = 0x13000000 + d.num * 2 ^ 20 + a.num * 2 ^ 16 + f.toNat ∧
    RaisesParam (.pneg d a) ∧ RaisesIllcmd 0x12 ∧ RaisesParam (.pscale d a f) ∧ RaisesIllcmd 0x13 ∧
    ∀ (s : State) (p : Params), s.params = some p →
      (∃ t, exec (.pneg d a) s = .next t ∧ CompletesIn s t [(d.base, 1024)] ∧
        (∀ k, k < p.n → t.mem.read (d.base + k) = -s.mem.read (a.base + k)) ∧
        ∀ k, p.n ≤ k → k < 1024 → t.mem.read (d.base + k) = 0) ∧
      (∃ t, exec (.pscale d a f) s = .next t ∧ CompletesIn s t [(d.base, 1024)] ∧
        (∀ k, k < p.n → t.mem.read (d.base + k) = s.mem.read (a.base + k) * f) ∧
        ∀ k, p.n ≤ k → k < 1024 → t.mem.read (d.base + k) = 0)

/-- PSRND (R126, R127): `⌊(x·2^ln + 2^ld/2)/2^ld⌋` of every coefficient, not reduced; `E_OPERAND` (code 2) outside
`1 ≤ ld ≤ 8`, `ln ≤ ld`. -/
def Obligations.PsrndRoundsCoefficients : Prop :=
  ∀ (d a : PReg) (ln ld : Nat), ln < 16 → ld < 16 →
    (encode (.psrnd d a ln ld)).toNat = 0x14000000 + d.num * 2 ^ 20 + a.num * 2 ^ 16 + ld * 16 + ln ∧
    RaisesParam (.psrnd d a ln ld) ∧ RaisesIllcmd 0x14 ∧
    ∀ (s : State) (p : Params), s.params = some p →
      (¬ (1 ≤ ld ∧ ld ≤ 8 ∧ ln ≤ ld) → exec (.psrnd d a ln ld) s = .next (s.failed 2)) ∧
      (1 ≤ ld → ld ≤ 8 → ln ≤ ld →
        ∃ t, exec (.psrnd d a ln ld) s = .next t ∧ CompletesIn s t [(d.base, 1024)] ∧
          (∀ k, k < p.n →
            (t.mem.read (d.base + k)).toNat = ((s.mem.read (a.base + k)).toNat * 2 ^ ln + 2 ^ ld / 2) / 2 ^ ld) ∧
          ∀ k, p.n ≤ k → k < 1024 → t.mem.read (d.base + k) = 0)

/-- PMULD (R130, R131): coefficient `k` is `(t[k] − t[k+N]) mod 256`, `t[m]` the sum of `a[i]·b[j]` over `i + j = m`. -/
def Obligations.PmuldMultipliesInTheRing : Prop :=
  ∀ d a b : PReg,
    (encode (.pmuld d a b)).toNat = 0x15000000 + d.num * 2 ^ 20 + a.num * 2 ^ 16 + b.num * 2 ^ 12 ∧
    RaisesParam (.pmuld d a b) ∧ RaisesIllcmd 0x15 ∧
    ∀ (s : State) (p : Params), s.params = some p →
      ∃ t, exec (.pmuld d a b) s = .next t ∧ CompletesIn s t [(d.base, 1024)] ∧
        (∀ k, k < p.n → t.mem.read (d.base + k) = BitVec.ofInt 8
          (∑ i ∈ Finset.range p.n, ∑ j ∈ Finset.range p.n,
            ((if i + j = k then 1 else 0) - (if i + j = k + p.n then 1 else 0)) *
              (((s.mem.read (a.base + i)).toNat * (s.mem.read (b.base + j)).toNat : Nat) : Int))) ∧
        ∀ k, p.n ≤ k → k < 1024 → t.mem.read (d.base + k) = 0

/-- PMULS (R132, R133): coefficient `k` is the sum over the list's terms `(j, σ)` and all `i` of `σ·d[i]` where `i + j = k` and
of `−σ·d[i]` where `i + j = k + N`, modulo 256. A term is read from the two bytes `e` of its slot, low byte first: its index is
`e[9:0]` modulo `N`, its sign is minus iff `e[15]` (R22). The length premise is the invariant of R39. -/
def Obligations.PmulsAddsTheRotatedTerms : Prop :=
  ∀ (d a : PReg) (b : SReg),
    (encode (.pmuls d a b)).toNat = 0x16000000 + d.num * 2 ^ 20 + a.num * 2 ^ 16 + b.num * 2 ^ 12 ∧
    RaisesParam (.pmuls d a b) ∧ RaisesIllcmd 0x16 ∧
    ∀ (s : State) (p : Params), s.params = some p → s.sparseLen b ≤ 1024 →
      let e : Nat → Nat := fun m => (s.mem.read (b.base + 2 * m)).toNat + 256 * (s.mem.read (b.base + 2 * m + 1)).toNat
      let idx : Nat → Nat := fun m => e m % 1024 % p.n
      ∃ t, exec (.pmuls d a b) s = .next t ∧ CompletesIn s t [(d.base, 1024)] ∧
        (∀ k, k < p.n → t.mem.read (d.base + k) = BitVec.ofInt 8
          (∑ m ∈ Finset.range (s.sparseLen b), ∑ i ∈ Finset.range p.n,
            (if e m / 2 ^ 15 % 2 = 1 then -1 else 1) *
            ((if i + idx m = k then 1 else 0) - (if i + idx m = k + p.n then 1 else 0)) *
              ((s.mem.read (a.base + i)).toNat : Int))) ∧
        ∀ k, p.n ≤ k → k < 1024 → t.mem.read (d.base + k) = 0

/-- PTOSP (R134, R135): the coefficients equal to 1 or 255, in rising order, become the slots of the list, 255 with the sign
bit; the length is their number, every further slot is 0; the other sparse register is unchanged. -/
def Obligations.PtospListsTheTernaryCoefficients : Prop :=
  ∀ (d : SReg) (a : PReg),
    (encode (.ptosp d a)).toNat = 0x17000000 + d.num * 2 ^ 20 + a.num * 2 ^ 16 ∧
    RaisesParam (.ptosp d a) ∧ RaisesIllcmd 0x17 ∧
    ∀ (s : State) (p : Params), s.params = some p →
      let live : Nat → Bool := fun i => s.mem.read (a.base + i) == 1 || s.mem.read (a.base + i) == 255
      let rank : Nat → Nat := fun i => ((List.range i).filter live).length
      ∃ t, exec (.ptosp d a) s = .next t ∧
        t = { s with run := .idle, done := true, mem := t.mem, s0len := t.s0len, s1len := t.s1len } ∧
        (∀ r, t.sparseLen r = if r = d then rank p.n else s.sparseLen r) ∧
        SameOutside s t [(d.base, 2048)] ∧
        (∀ i, i < p.n → live i = true →
          t.mem.read (d.base + 2 * rank i) = BitVec.ofNat 8 i ∧
          t.mem.read (d.base + 2 * rank i + 1) =
            BitVec.ofNat 8 (i / 256) ||| if s.mem.read (a.base + i) = 255 then 0x80 else 0) ∧
        ∀ m, 2 * rank p.n ≤ m → m < 2048 → t.mem.read (d.base + m) = 0

/-- PFRSP (R134, R136): coefficient `k` is 1 or 255 by the sign of the LAST pair with index `k`, 0 where no pair has it. A pair
is read from the two bytes `e` of its slot, low byte first: its index is `e[9:0]` modulo `N`, its sign is minus iff `e[15]`
(R22). The length premise is the invariant of R39. -/
def Obligations.PfrspWritesTheListedCoefficients : Prop :=
  ∀ (d : PReg) (a : SReg),
    (encode (.pfrsp d a)).toNat = 0x18000000 + d.num * 2 ^ 20 + a.num * 2 ^ 16 ∧
    RaisesParam (.pfrsp d a) ∧ RaisesIllcmd 0x18 ∧
    ∀ (s : State) (p : Params), s.params = some p → s.sparseLen a ≤ 1024 →
      let e : Nat → Nat := fun m => (s.mem.read (a.base + 2 * m)).toNat + 256 * (s.mem.read (a.base + 2 * m + 1)).toNat
      let idx : Nat → Nat := fun m => e m % 1024 % p.n
      ∃ t, exec (.pfrsp d a) s = .next t ∧ CompletesIn s t [(d.base, 1024)] ∧
        (∀ m, m < s.sparseLen a → (∀ m', m < m' → m' < s.sparseLen a → idx m' ≠ idx m) →
          t.mem.read (d.base + idx m) = if e m / 2 ^ 15 % 2 = 1 then 255 else 1) ∧
        ∀ k, k < 1024 → (∀ m, m < s.sparseLen a → idx m ≠ k) → t.mem.read (d.base + k) = 0

/-- PCTEQ (R138): `EQ` is 1 iff the first `N` coefficients agree; nothing else changes. -/
def Obligations.PcteqComparesTheCoefficients : Prop :=
  ∀ a b : PReg,
    (encode (.pcteq a b)).toNat = 0x19000000 + a.num * 2 ^ 16 + b.num * 2 ^ 12 ∧
    RaisesParam (.pcteq a b) ∧ RaisesIllcmd 0x19 ∧
    ∀ (s : State) (p : Params), s.params = some p →
      exec (.pcteq a b) s = .next { s with
        run := .idle, done := true
        eq := decide (∀ k, k < p.n → s.mem.read (a.base + k) = s.mem.read (b.base + k)) }

/-! ## Sampling commands -/

/-- SUNIF (R150, R151): coefficient `k` is byte `k` of the SHAKE256 stream on the 32-byte seed. -/
def Obligations.SunifExpandsTheSeed : Prop :=
  ∀ (d : PReg) (a : BReg),
    (encode (.sunif d a)).toNat = 0x20000000 + d.num * 2 ^ 20 + a.num * 2 ^ 16 ∧
    RaisesParam (.sunif d a) ∧ RaisesIllcmd 0x20 ∧
    ∀ (s : State) (p : Params), s.params = some p →
      ∃ t, exec (.sunif d a) s = .next t ∧ CompletesIn s t [(d.base, 1024)] ∧
        (∀ k, k < p.n → t.mem.read (d.base + k) = Config.shake256Byte (s.mem.readRange a.base 32) k) ∧
        ∀ k, p.n ≤ k → k < 1024 → t.mem.read (d.base + k) = 0

/-- SHWT (R152, R153): the sampled list becomes the slots, its length `h`; the sign of pair `m` is the low bit of byte `2h + m`
of the stream, its index the entry `m` of the shuffled positions; `E_OPERAND` (code 2) iff `h > N`. -/
def Obligations.ShwtSamplesTheList : Prop :=
  ∀ (d : SReg) (a : BReg) (h : Nat), h < 2048 →
    (encode (.shwt d a h)).toNat = 0x21000000 + d.num * 2 ^ 20 + a.num * 2 ^ 16 + h ∧
    RaisesParam (.shwt d a h) ∧ RaisesIllcmd 0x21 ∧
    ∀ (s : State) (p : Params), s.params = some p →
      let seed := s.mem.readRange a.base 32
      let pos := shuffle (shake256 seed (3 * h)) p.n h
      (p.n < h → exec (.shwt d a h) s = .next (s.failed 2)) ∧
      (h ≤ p.n →
        ∃ t, exec (.shwt d a h) s = .next t ∧
          t = { s with run := .idle, done := true, mem := t.mem, s0len := t.s0len, s1len := t.s1len } ∧
          (∀ r, t.sparseLen r = if r = d then h else s.sparseLen r) ∧
          SameOutside s t [(d.base, 2048)] ∧
          (∀ m, m < h →
            t.mem.read (d.base + 2 * m) = BitVec.ofNat 8 (pos.getD m 0) ∧
            t.mem.read (d.base + 2 * m + 1) = BitVec.ofNat 8 (pos.getD m 0 / 256) |||
              if (Config.shake256Byte seed (2 * h + m)).getLsbD 0 then 0 else 0x80) ∧
          ∀ m, 2 * h ≤ m → m < 2048 → t.mem.read (d.base + m) = 0)

/-- The shuffle of R152 step by step: it starts from the identity, step `i` swaps entries `i` and `i + (BE16(st, 2i) mod (N − i))`
and nothing else; after `h ≤ N` steps it is a permutation of `0 .. N − 1`, so the `h` sampled indices are distinct and below `N`
(the spec's own inference, R154 (b)). -/
def Obligations.SamplerPositionsAreDistinct : Prop :=
  ∀ (st : List Byte) (n h : Nat), h ≤ n →
    (∀ k, k < n → (shuffle st n 0).getD k 0 = k) ∧
    (∀ i, i < n → ∀ k, k < n →
      let j := i + ((st.getD (2 * i) 0).toNat * 256 + (st.getD (2 * i + 1) 0).toNat) % (n - i)
      (shuffle st n (i + 1)).getD k 0 = (shuffle st n i).getD (if k = i then j else if k = j then i else k) 0) ∧
    (shuffle st n h).Perm (List.range n) ∧
    (sampleFrom st n h).length = h ∧ ((sampleFrom st n h).map Term.idx).Nodup ∧ ∀ x ∈ sampleFrom st n h, x.idx < n

/-- SDERIVE (R155, R156): 32 bytes of SHAKE256 on the seed and the four counter bytes, least significant first, then zeros. -/
def Obligations.SderiveHashesSeedAndCounter : Prop :=
  ∀ d a : BReg,
    (encode (.sderive d a)).toNat = 0x22000000 + d.num * 2 ^ 20 + a.num * 2 ^ 16 ∧
    RaisesParam (.sderive d a) ∧ RaisesIllcmd 0x22 ∧
    ∀ (s : State) (p : Params), s.params = some p →
      ∃ t, exec (.sderive d a) s = .next t ∧ CompletesIn s t [(d.base, 64)] ∧
        (∀ k, k < 32 → t.mem.read (d.base + k) = Config.shake256Byte
          (s.mem.readRange a.base 32 ++ [s.arg.extractLsb' 0 8, s.arg.extractLsb' 8 8, s.arg.extractLsb' 16 8,
            s.arg.extractLsb' 24 8]) k) ∧
        ∀ k, 32 ≤ k → k < 64 → t.mem.read (d.base + k) = 0

/-- SRAND (R158, R246): the drawn bytes, then zeros; on a failed draw `E_ENTROPY` (code 5) and the register zeroed; `E_OPERAND`
(code 2) outside `1 ≤ n ≤ 64`, without a draw. What a draw does to the port is the model's (log 5, log 6). -/
def Obligations.SrandWritesTheDraw : Prop :=
  ∀ (d : BReg) (n : Nat), n < 128 →
    (encode (.srand d n)).toNat = 0x23000000 + d.num * 2 ^ 20 + n ∧
    RaisesParam (.srand d n) ∧ RaisesIllcmd 0x23 ∧
    ∀ (s : State) (p : Params), s.params = some p →
      (n = 0 ∨ 64 < n → exec (.srand d n) s = .next (s.failed 2)) ∧
      (1 ≤ n → n ≤ 64 →
        (∀ y e, s.entropy.read n = (some y, e) →
          ∃ t, exec (.srand d n) s = .next t ∧ CompletesIn { s with entropy := e } t [(d.base, 64)] ∧
            (∀ k, k < n → t.mem.read (d.base + k) = y.getD k 0) ∧ ∀ k, n ≤ k → k < 64 → t.mem.read (d.base + k) = 0) ∧
        (∀ e, s.entropy.read n = (none, e) →
          ∃ t, exec (.srand d n) s = .next t ∧
            t = { s with run := .idle, err := true, errcode := 5, entropy := e, mem := t.mem } ∧
            SameOutside s t [(d.base, 64)] ∧ ∀ k, k < 64 → t.mem.read (d.base + k) = 0))

/-- The port gives the injected bytes in order, then the free source, byte after byte, and its counter moves past every item
drawn; a failure, injected or of the source, ends the draw (R15, R263). The draws of one command follow each other: each
starts where the one before ended, the first failure ends them all, and together they consume what one draw of all their
bytes would (R263, R248). What is consumed is the model's choice (log 5, log 6). -/
def Obligations.EntropyPortReadsItsStream : Prop :=
  (∀ (ys : List Byte) (rest : List (Option Byte)) (c n : Nat),
    EntropyPort.read ys.length ⟨ys.map some ++ rest, c⟩ = (some ys, ⟨rest, c⟩) ∧
    (ys.length < n → EntropyPort.read n ⟨ys.map some ++ none :: rest, c⟩ = (none, ⟨rest, c⟩))) ∧
  (∀ (ys : List Byte) (c m : Nat),
    let good := ((List.range m).takeWhile fun k => (Config.entropyItem (c + k)).isSome).length
    EntropyPort.read (ys.length + m) ⟨ys.map some, c⟩ =
      (((List.range m).mapM fun k => Config.entropyItem (c + k)).map fun zs => ys ++ zs, ⟨[], c + min m (good + 1)⟩)) ∧
  (∀ (xss : List (List Byte)) (rest : List (Option Byte)) (c : Nat),
    EntropyPort.reads (xss.map List.length) ⟨xss.flatten.map some ++ rest, c⟩ = (some xss, ⟨rest, c⟩)) ∧
  (∀ (xss : List (List Byte)) (ys : List Byte) (rest : List (Option Byte)) (c n : Nat) (ns : List Nat), ys.length < n →
    EntropyPort.reads (xss.map List.length ++ n :: ns) ⟨(xss.flatten ++ ys).map some ++ none :: rest, c⟩ =
      (none, ⟨rest, c⟩)) ∧
  ∀ (ns : List Nat) (e : EntropyPort),
    (e.reads ns).2 = (e.read ns.sum).2 ∧ (e.reads ns).1.map List.flatten = (e.read ns.sum).1 ∧
    ∀ xss, (e.reads ns).1 = some xss → xss.map List.length = ns

/-! ## Error-correction commands -/

/-- XEFENC (R166, R167 X1, R172): the codeword of the first `d` bits, then zeros; its first half is the message itself. -/
def Obligations.XefencWritesTheCodeword : Prop :=
  ∀ d a : BReg,
    (encode (.xefenc d a)).toNat = 0x30000000 + d.num * 2 ^ 20 + a.num * 2 ^ 16 ∧
    RaisesParam (.xefenc d a) ∧ RaisesIllcmd 0x30 ∧
    ∀ (s : State) (p : Params), s.params = some p →
      ∃ t, exec (.xefenc d a) s = .next t ∧ CompletesIn s t [(d.base, 64)] ∧
        (∀ i, i < 2 * p.d → t.bitAt d.base i =
          (xefEncode s.xef p.d p.f ((List.range p.d).map (s.bitAt a.base))).getD i false) ∧
        (∀ k, k < p.msgBytes → t.mem.read (d.base + k) = s.mem.read (a.base + k)) ∧
        ∀ k, p.cwBytes ≤ k → k < 64 → t.mem.read (d.base + k) = 0

/-- XEFDEC (R166, R173): the decoded bits of the first `2d` bits, then zeros; never an error, whatever the word; an error-free
codeword decodes to its message. -/
def Obligations.XefdecWritesTheMessage : Prop :=
  ∀ d a : BReg,
    (encode (.xefdec d a)).toNat = 0x31000000 + d.num * 2 ^ 20 + a.num * 2 ^ 16 ∧
    RaisesParam (.xefdec d a) ∧ RaisesIllcmd 0x31 ∧
    ∀ (s : State) (p : Params), s.params = some p →
      ∃ t, exec (.xefdec d a) s = .next t ∧ CompletesIn s t [(d.base, 64)] ∧
        (∀ i, i < p.d → t.bitAt d.base i =
          (xefDecode s.xef p.d p.f ((List.range (2 * p.d)).map (s.bitAt a.base))).getD i false) ∧
        (∀ m : List Bool, m.length = p.d →
          (∀ i, i < 2 * p.d → s.bitAt a.base i = (xefEncode s.xef p.d p.f m).getD i false) →
          ∀ i, i < p.d → t.bitAt d.base i = m.getD i false) ∧
        ∀ k, p.msgBytes ≤ k → k < 64 → t.mem.read (d.base + k) = 0

/-- `XEF_DEFAULT` bit by bit, over the register lengths of the table of R168, with `place j i = O_j + pos(j, i)`. Encoder (R169):
the codeword is the message, then `d` parity bits; parity bit `k` is the sum modulo 2 of the message bits `i` with
`place j i = k` over all registers `j`, so the padding bits are 0. Decoder (R170), whatever the word: bit `i` is flipped iff at
least `f + 1` registers vote for it, register `j` by the syndrome bit at `place j i`. -/
def Obligations.XefDefaultParityIsTheRegisterSum : Prop :=
  ∀ (d f : Nat) (len : List Nat),
    (d = 128 ∧ f = 3 ∧ len = [16, 11, 13, 15, 17, 19]) ∨
      (d = 256 ∧ f = 5 ∧ len = [16, 16, 17, 19, 21, 23, 25, 29, 31, 37]) →
    let place : Nat → Nat → Nat := fun j i => (len.take j).sum + if j = 0 then i / (d / 16) else i % len.getD j 0
    let parity : List Bool → Nat → Bool := fun m k => (xefEncode .xefDefault d f m).getD (d + k) false
    (∀ m : List Bool, m.length = d →
      (xefEncode .xefDefault d f m).length = 2 * d ∧ (xefEncode .xefDefault d f m).take d = m ∧
      ∀ k, k < d → parity m k = decide
        ((∑ j ∈ Finset.range (2 * f), ∑ i ∈ Finset.range d,
          if place j i = k ∧ m.getD i false = true then 1 else 0) % 2 = 1)) ∧
    ∀ w : List Bool, w.length = 2 * d →
      (xefDecode .xefDefault d f w).length = d ∧
      ∀ i, i < d → (xefDecode .xefDefault d f w).getD i false =
        (w.getD i false ^^ decide (f + 1 ≤ ∑ j ∈ Finset.range (2 * f),
          (parity (w.take d) (place j i) ^^ w.getD (d + place j i) false).toNat))

/-- `XEF_DEFAULT` meets the contract of every instance (R167; that it does is the spec's own inference, R171), and with it every
code the engine can be built with (log 8): the codeword is the message followed by `d` parity bits (X1), every word of `2d`
bits decodes to `d` bits (X3), and every error of weight at most `f`, on message bits, parity bits or both, is corrected (X2).
Both are functions of their arguments alone (X4): they are written so. -/
def Obligations.XefDefaultCorrectsUpToFErrors : Prop :=
  ∀ (code : XefCode) (d f : Nat), (d = 128 ∧ f = 3) ∨ (d = 256 ∧ f = 5) →
    (∀ m : List Bool, m.length = d → (xefEncode code d f m).take d = m ∧ (xefEncode code d f m).length = 2 * d) ∧
    (∀ w : List Bool, w.length = 2 * d → (xefDecode code d f w).length = d) ∧
    ∀ m e : List Bool, m.length = d → e.length = 2 * d → e.count true ≤ f →
      xefDecode code d f (xorBits (xefEncode code d f m) e) = m

/-- D2ENC (R174, R175): bit `i`, most significant bit of each byte first, sets coefficients `2i` and `2i + 1` to 128 or 0; every
other coefficient is 0. -/
def Obligations.D2encRepeatsEachBit : Prop :=
  ∀ (d : PReg) (a : BReg),
    (encode (.d2enc d a)).toNat = 0x32000000 + d.num * 2 ^ 20 + a.num * 2 ^ 16 ∧
    RaisesParam (.d2enc d a) ∧ RaisesIllcmd 0x32 ∧
    ∀ (s : State) (p : Params), s.params = some p →
      ∃ t, exec (.d2enc d a) s = .next t ∧ CompletesIn s t [(d.base, 1024)] ∧
        (∀ i, i < 2 * p.d →
          t.mem.read (d.base + 2 * i) = (if s.bitAt a.base i then 128 else 0) ∧
          t.mem.read (d.base + 2 * i + 1) = (if s.bitAt a.base i then 128 else 0)) ∧
        ∀ k, 4 * p.d ≤ k → k < 1024 → t.mem.read (d.base + k) = 0

/-- D2DEC (R176, R177): bit `i` is 1 iff the integer sum of coefficients `2i` and `2i + 1` is at least 128; zeros after the
codeword. -/
def Obligations.D2decThresholdsEachPair : Prop :=
  ∀ (d : BReg) (a : PReg),
    (encode (.d2dec d a)).toNat = 0x33000000 + d.num * 2 ^ 20 + a.num * 2 ^ 16 ∧
    RaisesParam (.d2dec d a) ∧ RaisesIllcmd 0x33 ∧
    ∀ (s : State) (p : Params), s.params = some p →
      ∃ t, exec (.d2dec d a) s = .next t ∧ CompletesIn s t [(d.base, 64)] ∧
        (∀ i, i < 2 * p.d → t.bitAt d.base i =
          decide (128 ≤ (s.mem.read (a.base + 2 * i)).toNat + (s.mem.read (a.base + 2 * i + 1)).toNat)) ∧
        ∀ k, p.cwBytes ≤ k → k < 64 → t.mem.read (d.base + k) = 0

/-! ## Packing, comparison, selection -/

/-- PACK (R186, R188): stream bit `k` is bit `8 − l + (k mod l)` of coefficient `k div l`, and stands at bit `k mod 8` of byte
`k div 8` of the string at `ARG[11:0]` of `XBUF`; every other byte is unchanged; `E_OPERAND` (code 2) outside the ranges. -/
def Obligations.PackWritesTheBitStream : Prop :=
  ∀ (a : PReg) (l : Nat), l < 16 →
    (encode (.pack a l)).toNat = 0x40000000 + a.num * 2 ^ 16 + l ∧
    RaisesParam (.pack a l) ∧ RaisesIllcmd 0x40 ∧
    ∀ (s : State) (p : Params), s.params = some p →
      let off := s.arg.toNat % 4096
      (¬ (1 ≤ l ∧ l ≤ 8 ∧ s.arg.toNat / 4096 = 0 ∧ off + p.n * l / 8 ≤ 1792) → exec (.pack a l) s = .next (s.failed 2)) ∧
      (1 ≤ l → l ≤ 8 → s.arg.toNat / 4096 = 0 → off + p.n * l / 8 ≤ 1792 →
        ∃ t, exec (.pack a l) s = .next t ∧ CompletesIn s t [(0x1800 + off, p.n * l / 8)] ∧
          ∀ k, k < p.n * l → (t.mem.read (0x1800 + off + k / 8)).getLsbD (k % 8) =
            (s.mem.read (a.base + k / l)).getLsbD (8 - l + k % l))

/-- UNPACK (R187, R189): bit `8 − l + u` of coefficient `i` is stream bit `i·l + u`, its low `8 − l` bits are 0; `XBUF` is
unchanged; `E_OPERAND` (code 2) outside the ranges. -/
def Obligations.UnpackReadsTheBitStream : Prop :=
  ∀ (d : PReg) (l : Nat), l < 16 →
    (encode (.unpack d l)).toNat = 0x41000000 + d.num * 2 ^ 20 + l ∧
    RaisesParam (.unpack d l) ∧ RaisesIllcmd 0x41 ∧
    ∀ (s : State) (p : Params), s.params = some p →
      let off := s.arg.toNat % 4096
      (¬ (1 ≤ l ∧ l ≤ 8 ∧ s.arg.toNat / 4096 = 0 ∧ off + p.n * l / 8 ≤ 1792) → exec (.unpack d l) s = .next (s.failed 2)) ∧
      (1 ≤ l → l ≤ 8 → s.arg.toNat / 4096 = 0 → off + p.n * l / 8 ≤ 1792 →
        ∃ t, exec (.unpack d l) s = .next t ∧ CompletesIn s t [(d.base, 1024)] ∧
          (∀ i, i < p.n →
            (∀ u, u < 8 - l → (t.mem.read (d.base + i)).getLsbD u = false) ∧
            (∀ u, u < l → (t.mem.read (d.base + i)).getLsbD (8 - l + u) =
              (s.mem.read (0x1800 + off + (i * l + u) / 8)).getLsbD ((i * l + u) % 8))) ∧
          ∀ k, p.n ≤ k → k < 1024 → t.mem.read (d.base + k) = 0)

/-- The compression laws (the spec's own inference from R186 and R187, R190): unpacking a packed sequence clears the low `8 − l`
bits of every coefficient; packing an unpacked string gives the string back. -/
def Obligations.CompressionLaws : Prop :=
  (∀ (a : List Byte) (l : Nat), 1 ≤ l → l ≤ 8 → 8 ∣ a.length * l →
    decompress (compress a l) a.length l = a.map fun x => x - BitVec.ofNat 8 (x.toNat % 2 ^ (8 - l))) ∧
  ∀ (x : List Byte) (n l : Nat), 1 ≤ l → l ≤ 8 → 8 * x.length = n * l → compress (decompress x n l) l = x

/-- BCTEQ (R195, R196): `EQ` is 1 iff the first `n` bytes of `CTBUF` and `XBUF` agree; `E_OPERAND` (code 2) iff `n > 1792`;
nothing else changes. -/
def Obligations.BcteqComparesTheBuffers : Prop :=
  ∀ n : Nat, n < 2048 →
    (encode (.bcteq n)).toNat = 0x42000000 + n ∧
    RaisesParam (.bcteq n) ∧ RaisesIllcmd 0x42 ∧
    ∀ (s : State) (p : Params), s.params = some p →
      (1792 < n → exec (.bcteq n) s = .next (s.failed 2)) ∧
      (n ≤ 1792 → exec (.bcteq n) s = .next { s with
        run := .idle, done := true
        eq := decide (∀ k, k < n → s.mem.read (0x1000 + k) = s.mem.read (0x1800 + k)) })

/-- BSEL (R197): the first `n` bytes of the first source where `EQ = 1`, of the second where `EQ = 0`, then zeros; `EQ` is
unchanged; `E_OPERAND` (code 2) outside `1 ≤ n ≤ 64`. -/
def Obligations.BselSelectsByEq : Prop :=
  ∀ (d a b : BReg) (n : Nat), n < 128 →
    (encode (.bsel d a b n)).toNat = 0x43000000 + d.num * 2 ^ 20 + a.num * 2 ^ 16 + b.num * 2 ^ 12 + n ∧
    RaisesParam (.bsel d a b n) ∧ RaisesIllcmd 0x43 ∧
    ∀ (s : State) (p : Params), s.params = some p →
      (n = 0 ∨ 64 < n → exec (.bsel d a b n) s = .next (s.failed 2)) ∧
      (1 ≤ n → n ≤ 64 →
        ∃ t, exec (.bsel d a b n) s = .next t ∧ CompletesIn s t [(d.base, 64)] ∧
          (∀ k, k < n → t.mem.read (d.base + k) = if s.eq then s.mem.read (a.base + k) else s.mem.read (b.base + k)) ∧
          ∀ k, n ≤ k → k < 64 → t.mem.read (d.base + k) = 0)

/-! ## Public-key encryption -/

/-- PKEKG (R205, R206, R246): two draws; `PKBUF` is the seed and the packed rounded product, `SKBUF` the dense secret, zeros
after each, the lengths set; where a draw fails, `E_ENTROPY` (code 5) with both buffers and both lengths 0. What a draw does to
the port is the model's (log 5, log 6). -/
def Obligations.PkekgGeneratesTheKeys : Prop :=
  encode .pkekg = 0x80000000 ∧ RaisesParam .pkekg ∧ RaisesIllcmd 0x80 ∧
  ∀ (s : State) (p : Params), s.params = some p →
    (∀ seedA seedS e, s.entropy.reads [32, 32] = (some [seedA, seedS], e) →
      let secret := sampleSparse seedS p.n p.hs
      let b := scaleRound (mulSparse (uniformPoly seedA p.n) secret) p.p 256
      ∃ t, exec .pkekg s = .next t ∧
        t = { s with
          run := .idle, done := true, entropy := e, mem := t.mem
          pklen := BitVec.ofNat 11 p.pkBytes, sklen := BitVec.ofNat 11 p.n } ∧
        SameOutside s t [(0x0400, 928), (0x0800, 1056)] ∧
        t.mem.readRange 0x0400 928 = seedA ++ compress b 7 ++ List.replicate (928 - p.pkBytes) 0 ∧
        t.mem.readRange 0x0800 1056 = fromSparse p.n secret ++ List.replicate (1056 - p.n) 0) ∧
    (∀ e, s.entropy.reads [32, 32] = (none, e) →
      ∃ t, exec .pkekg s = .next t ∧
        t = { s with run := .idle, err := true, errcode := 5, entropy := e, mem := t.mem, pklen := 0, sklen := 0 } ∧
        SameOutside s t [(0x0400, 928), (0x0800, 1056)] ∧
        t.mem.readRange 0x0400 928 = List.replicate 928 0 ∧ t.mem.readRange 0x0800 1056 = List.replicate 1056 0)

/-- PKEENC (R207, R208): `CTBUF` is the packed pair `(c1, c2)` of the eight steps, zeros after it, `CTLEN = ct_bytes`; `E_LEN`
(code 4) unless `PKLEN = pk_bytes`. -/
def Obligations.PkeencEncryptsTheMessage : Prop :=
  ∀ a : BReg,
    (encode (.pkeenc a)).toNat = 0x81000000 + a.num * 2 ^ 16 ∧ RaisesParam (.pkeenc a) ∧ RaisesIllcmd 0x81 ∧
    ∀ (s : State) (p : Params), s.params = some p →
      (s.pklen.toNat ≠ p.pkBytes → exec (.pkeenc a) s = .next (s.failed 4)) ∧
      (s.pklen.toNat = p.pkBytes →
        let coin := s.mem.readRange a.base 32
        let seedA := s.mem.readRange 0x0400 32
        let b := decompress (s.mem.readRange 0x0420 (p.pkBytes - 32)) p.n 7
        let r := sampleSparse coin p.n p.hr
        let e1 := fromSparse p.n (sampleSparse (derive coin 0) p.n p.he)
        let e2 := fromSparse p.n (sampleSparse (derive coin 1) p.n p.he)
        let c1 := polyAdd (mulSparse (uniformPoly seedA p.n) r) e1
        let m := d2Encode (xefEncode s.xef p.d p.f ((List.range p.d).map (s.bitAt 0x0120))) p.n
        let c2 := polyAdd (polyAdd m (mulSparse (polyScale b 2) r)) e2
        ∃ t, exec (.pkeenc a) s = .next t ∧
          t = { s with run := .idle, done := true, mem := t.mem, ctlen := BitVec.ofNat 11 p.ctBytes } ∧
          SameOutside s t [(0x1000, 1792)] ∧
          t.mem.readRange 0x1000 1792 =
            compress c1 (Nat.log2 p.k1) ++ compress c2 (Nat.log2 p.k2) ++ List.replicate (1792 - p.ctBytes) 0)

/-- PKEDEC (R213, R214): `MSGBUF` is the decoded message of `c2 − c1·s` rounded and lifted, zeros after it; `E_LEN` (code 4)
unless `SKLEN` is `N` or `sk_bytes` and `CTLEN = ct_bytes`; no other error, whatever the buffers hold. -/
def Obligations.PkedecDecryptsTheMessage : Prop :=
  encode .pkedec = 0x82000000 ∧ RaisesParam .pkedec ∧ RaisesIllcmd 0x82 ∧
  ∀ (s : State) (p : Params), s.params = some p →
    (¬ ((s.sklen.toNat = p.n ∨ s.sklen.toNat = p.skBytes) ∧ s.ctlen.toNat = p.ctBytes) →
      exec .pkedec s = .next (s.failed 4)) ∧
    (s.sklen.toNat = p.n ∨ s.sklen.toNat = p.skBytes → s.ctlen.toNat = p.ctBytes →
      let c1 := decompress (s.mem.readRange 0x1000 p.c1Bytes) p.n (Nat.log2 p.k1)
      let c2 := decompress (s.mem.readRange (0x1000 + p.c1Bytes) p.c2Bytes) p.n (Nat.log2 p.k2)
      let diff := polySub c2 (mulSparse c1 (toSparse (s.mem.readRange 0x0800 p.n)))
      let bits := d2Decode (polyScale (scaleRound diff 2 256) 128) (2 * p.d)
      ∃ t, exec .pkedec s = .next t ∧ CompletesIn s t [(0x0120, 32)] ∧
        (∀ i, i < p.d → t.bitAt 0x0120 i = (xefDecode s.xef p.d p.f bits).getD i false) ∧
        ∀ k, p.msgBytes ≤ k → k < 32 → t.mem.read (0x0120 + k) = 0)

/-- The rounding step of decryption (the spec's own inference from R125 and R126, R215): the rounded value is 0, 1 or 2, and the
recovered coefficient is 128 iff the difference is in 64 .. 191, else 0; so a decoded bit is the OR of its two positions. -/
def Obligations.RecoveredCoefficientIsNearest : Prop :=
  ∀ diff : List Byte,
    scaleRound diff 2 256 = diff.map (fun x => if x.toNat < 64 then 0 else if x.toNat < 192 then 1 else 2) ∧
    (∀ n, 2 * n ≤ diff.length → d2Decode (pkeRecover diff) n = (List.range n).map fun i =>
      decide (64 ≤ (diff.getD (2 * i) 0).toNat ∧ (diff.getD (2 * i) 0).toNat ≤ 191) ||
      decide (64 ≤ (diff.getD (2 * i + 1) 0).toNat ∧ (diff.getD (2 * i + 1) 0).toNat ≤ 191)) ∧
    pkeRecover diff = diff.map fun x => if 64 ≤ x.toNat ∧ x.toNat ≤ 191 then 128 else 0

/-! ## Key encapsulation -/

/-- KEMKG (R225, R226, R246): the keys of PKEKG, the third draw `u` after the `N` bytes of the secret; where a draw fails,
`E_ENTROPY` (code 5) with both buffers and both lengths 0. What a draw does to the port is the model's (log 5, log 6). -/
def Obligations.KemkgGeneratesTheKeys : Prop :=
  encode .kemkg = 0x90000000 ∧ RaisesParam .kemkg ∧ RaisesIllcmd 0x90 ∧
  ∀ (s : State) (p : Params), s.params = some p →
    (∀ seedA seedS u e, s.entropy.reads [32, 32, p.uSize] = (some [seedA, seedS, u], e) →
      let secret := sampleSparse seedS p.n p.hs
      let b := scaleRound (mulSparse (uniformPoly seedA p.n) secret) p.p 256
      ∃ t, exec .kemkg s = .next t ∧
        t = { s with
          run := .idle, done := true, entropy := e, mem := t.mem
          pklen := BitVec.ofNat 11 p.pkBytes, sklen := BitVec.ofNat 11 p.skBytes } ∧
        SameOutside s t [(0x0400, 928), (0x0800, 1056)] ∧
        t.mem.readRange 0x0400 928 = seedA ++ compress b 7 ++ List.replicate (928 - p.pkBytes) 0 ∧
        t.mem.readRange 0x0800 1056 = fromSparse p.n secret ++ u ++ List.replicate (1056 - p.skBytes) 0) ∧
    (∀ e, s.entropy.reads [32, 32, p.uSize] = (none, e) →
      ∃ t, exec .kemkg s = .next t ∧
        t = { s with run := .idle, err := true, errcode := 5, entropy := e, mem := t.mem, pklen := 0, sklen := 0 } ∧
        SameOutside s t [(0x0400, 928), (0x0800, 1056)] ∧
        t.mem.readRange 0x0400 928 = List.replicate 928 0 ∧ t.mem.readRange 0x0800 1056 = List.replicate 1056 0)

/-- KEMENC (R227, R228, R246): one draw `δ`; the ciphertext under the coin `SHA3_256(δ)` and the secret `SHAKE256(c ‖ δ, 32)`;
`E_LEN` (code 4) before any draw unless `PKLEN = pk_bytes`; where the draw fails, `E_ENTROPY` (code 5) with the destinations 0.
What a draw does to the port is the model's (log 5, log 6). -/
def Obligations.KemencEncapsulates : Prop :=
  encode .kemenc = 0x91000000 ∧ RaisesParam .kemenc ∧ RaisesIllcmd 0x91 ∧
  ∀ (s : State) (p : Params), s.params = some p →
    (s.pklen.toNat ≠ p.pkBytes → exec .kemenc s = .next (s.failed 4)) ∧
    (s.pklen.toNat = p.pkBytes →
      (∀ delta e, s.entropy.read p.msgBytes = (some delta, e) →
        let c := pkeEncrypt s.xef p (s.mem.readRange 0x0400 p.pkBytes) delta (sha3 delta)
        ∃ t, exec .kemenc s = .next t ∧
          t = { s with run := .idle, done := true, entropy := e, mem := t.mem, ctlen := BitVec.ofNat 11 p.ctBytes } ∧
          SameOutside s t [(0x1000, 1792), (0x0100, 32)] ∧
          t.mem.readRange 0x1000 1792 = c ++ List.replicate (1792 - p.ctBytes) 0 ∧
          t.mem.readRange 0x0100 32 = shake256 (c ++ delta) 32) ∧
      (∀ e, s.entropy.read p.msgBytes = (none, e) →
        ∃ t, exec .kemenc s = .next t ∧
          t = { s with run := .idle, err := true, errcode := 5, entropy := e, mem := t.mem, ctlen := 0 } ∧
          SameOutside s t [(0x1000, 1792), (0x0100, 32)] ∧
          t.mem.readRange 0x1000 1792 = List.replicate 1792 0 ∧ t.mem.readRange 0x0100 32 = List.replicate 32 0))

/-- KEMDEC (R229, R230, R232): `SSBUF` is `SHAKE256(c ‖ z, 32)` with `z` the decrypted message where the ciphertext re-encrypts
to itself and `u` where it does not; in both cases the same completion with `EQ = 0` and nothing else changed; `E_LEN` (code 4)
unless the three lengths are those of the set. -/
def Obligations.KemdecDecapsulates : Prop :=
  encode .kemdec = 0x92000000 ∧ RaisesParam .kemdec ∧ RaisesIllcmd 0x92 ∧
  ∀ (s : State) (p : Params), s.params = some p →
    (¬ (s.pklen.toNat = p.pkBytes ∧ s.sklen.toNat = p.skBytes ∧ s.ctlen.toNat = p.ctBytes) →
      exec .kemdec s = .next (s.failed 4)) ∧
    (s.pklen.toNat = p.pkBytes → s.sklen.toNat = p.skBytes → s.ctlen.toNat = p.ctBytes →
      let c := s.mem.readRange 0x1000 p.ctBytes
      let delta := pkeDecrypt s.xef p (s.mem.readRange 0x0800 p.n) c
      let c' := pkeEncrypt s.xef p (s.mem.readRange 0x0400 p.pkBytes) delta (sha3 delta)
      let u := s.mem.readRange (0x0800 + p.n) p.uSize
      ∃ t, exec .kemdec s = .next t ∧
        t = { s with run := .idle, done := true, eq := false, mem := t.mem } ∧
        SameOutside s t [(0x0100, 32)] ∧
        t.mem.readRange 0x0100 32 = shake256 (c ++ if c = c' then delta else u) 32)

/-! ## Laws of the data path -/

/-- Ring laws (the spec's own inference, R140 (a), (c), (e)): schoolbook multiplication distributes and commutes, multiplying by
`X` rotates with the top coefficient negated, the sparse product distributes too. -/
def Obligations.RingLaws : Prop :=
  ∀ a b c : List Byte, a.length = b.length → a.length = c.length →
    mulSchool (polyAdd a b) c = polyAdd (mulSchool a c) (mulSchool b c) ∧
    mulSchool a b = mulSchool b a ∧
    (∀ s : List Term, mulSparse (polyAdd a b) s = polyAdd (mulSparse a s) (mulSparse b s)) ∧
    (2 ≤ a.length → mulSchool a (0 :: 1 :: List.replicate (a.length - 2) 0) =
      (-a.getD (a.length - 1) 0) :: a.take (a.length - 1))

/-- The sparse multiplier agrees with schoolbook multiplication by the dense view of the list, whenever the indices are
distinct and below the degree (the spec's own inference, R140 (b)). -/
def Obligations.SparseProductIsTheSchoolbookProduct : Prop :=
  ∀ (d : List Byte) (s : List Term), (s.map Term.idx).Nodup → (∀ x ∈ s, x.idx < d.length) →
    mulSparse d s = mulSchool d (fromSparse d.length s)

/-- Decapsulation returns the encapsulated secret whenever decryption returns the encapsulated message (the spec's own
inference, R233 (a)), and on a ciphertext that does not re-encrypt to itself the secret is hashed from `u` (R229). -/
def Obligations.DecapsulationOfAnEncapsulation : Prop :=
  ∀ (code : XefCode) (p : Params) (pk sk c : List Byte), p = tiger128 ∨ p = tiger192 ∨ p = tiger256 →
    sk.length = p.skBytes → c.length = p.ctBytes → pk.length = p.pkBytes →
    (∀ delta, delta.length = p.msgBytes → c = pkeEncrypt code p pk delta (sha3 delta) →
      pkeDecrypt code p (sk.take p.n) c = delta → kemDecaps code p pk sk c = shake256 (c ++ delta) 32) ∧
    (c ≠ pkeEncrypt code p pk (pkeDecrypt code p (sk.take p.n) c) (sha3 (pkeDecrypt code p (sk.take p.n) c)) →
      kemDecaps code p pk sk c = shake256 (c ++ sk.drop p.n) 32)

/-- Decryption recovers the message whenever the D2-decoded word differs from its codeword in at most `f` bits, for the default
code (the spec's own inference, R216 with R171). -/
def Obligations.DecryptionCorrectsUpToFErrors : Prop :=
  ∀ (p : Params) (secret ct msg : List Byte), p = tiger128 ∨ p = tiger192 ∨ p = tiger256 → msg.length = p.msgBytes →
    (xorBits (xefEncode .xefDefault p.d p.f (bitsOf msg p.d))
      (d2Decode (pkeRecover (pkeDiff p secret ct)) (2 * p.d))).count true ≤ p.f →
    pkeDecrypt .xefDefault p secret ct = msg

/-- `CFG.PSEL` selects the parameter sets (R9, R32): 0, 1 and 2 the three rows of the table of R9, 3 none. The three are valid,
and their derived sizes are those of the table (R7, R8). -/
def Obligations.ParameterSetsAreValid : Prop :=
  (∀ s : State, s.params = paramsOf (s.cfg.toNat % 4)) ∧
  paramsOf 0 = some tiger128 ∧ paramsOf 1 = some tiger192 ∧ paramsOf 2 = some tiger256 ∧
  (∀ psel, 3 ≤ psel → paramsOf psel = none) ∧
  tiger128 = {
    level := .tiger128, n := 512, q := 256, p := 128, k1 := 256, k2 := 256, hs := 160, hr := 128, he := 32, d := 128, f := 3
    uSize := 16 } ∧
  tiger192 = {
    level := .tiger192, n := 1024, q := 256, p := 128, k1 := 128, k2 := 128, hs := 84, hr := 84, he := 32, d := 256, f := 5
    uSize := 32 } ∧
  tiger256 = {
    level := .tiger256, n := 1024, q := 256, p := 128, k1 := 128, k2 := 128, hs := 198, hr := 198, he := 32, d := 256, f := 5
    uSize := 32 } ∧
  (∀ psel p, paramsOf psel = some p → p.valid = true ∧ p.uSize = p.msgBytes ∧ 4 * p.d = p.n) ∧
  (tiger128.pkBytes = 480 ∧ tiger128.skBytes = 528 ∧ tiger128.ctBytes = 1024 ∧ tiger128.msgBytes = 16 ∧ tiger128.cwBytes = 32) ∧
  (tiger192.pkBytes = 928 ∧ tiger192.skBytes = 1056 ∧ tiger192.ctBytes = 1792 ∧ tiger192.msgBytes = 32 ∧ tiger192.cwBytes = 64) ∧
  (tiger256.pkBytes = 928 ∧ tiger256.skBytes = 1056 ∧ tiger256.ctBytes = 1792 ∧ tiger256.msgBytes = 32 ∧ tiger256.cwBytes = 64)
end

