-- ==== Sys2Proof/Laws/Memory.lean ====
section
/-! SUPPORT. The laws of the window's memory: what a written range reads as, that every other byte is unchanged, and that
the canonical form is kept. -/

namespace Sys2Proof.Machine

/-! ## Reading -/

theorem Memory.read_append (m n : Memory) (a : Nat) :
    Memory.read (m ++ n) a = if ∃ c ∈ m, c.1 = a then m.read a else n.read a := by
  induction m with
  | nil => simp
  | cons c m ih =>
    obtain ⟨x, v⟩ := c
    by_cases h : x = a <;> simp [Memory.read, h, ih]

theorem Memory.read_of_not_mem (m : Memory) (a : Nat) (h : ∀ c ∈ m, c.1 ≠ a) : m.read a = 0 := by
  induction m with
  | nil => rfl
  | cons c m ih =>
    obtain ⟨x, v⟩ := c
    have hx : x ≠ a := h (x, v) (by simp)
    simpa [Memory.read, hx] using ih fun c hc => h c (by simp [hc])

/-- Keeping only offsets that a property holds of keeps the bytes at those offsets. -/
theorem Memory.read_filter (m : Memory) (f : Nat → Bool) (a : Nat) (ha : f a = true) :
    Memory.read (m.filter fun c => f c.1) a = m.read a := by
  induction m with
  | nil => rfl
  | cons c m ih =>
    obtain ⟨x, v⟩ := c
    by_cases hx : x = a
    · subst hx; simp [Memory.read, ha]
    · by_cases hf : f x = true <;> simp [hf, Memory.read, hx, ih]

theorem Memory.cells_cons_zero (base : Nat) (bs : List Byte) :
    Memory.cells base (0#8 :: bs) = Memory.cells (base + 1) bs := rfl

theorem Memory.cells_cons_ne (base : Nat) (b : Byte) (bs : List Byte) (h : b ≠ 0#8) :
    Memory.cells base (b :: bs) = (base, b) :: Memory.cells (base + 1) bs := if_neg h

theorem Memory.mem_cells {base : Nat} {bs : List Byte} {c : Host.Cell} (h : c ∈ Memory.cells base bs) :
    base ≤ c.1 ∧ c.1 < base + bs.length ∧ c.2 ≠ 0 := by
  induction bs generalizing base with
  | nil => simp [Memory.cells] at h
  | cons b bs ih =>
    by_cases hb : b = 0#8
    · obtain ⟨h1, h2, h3⟩ := ih (base := base + 1) (by simpa [hb, Memory.cells_cons_zero] using h)
      exact ⟨by omega, by simp only [List.length_cons]; omega, h3⟩
    · rw [Memory.cells_cons_ne base b bs hb, List.mem_cons] at h
      rcases h with rfl | h
      · exact ⟨by simp, by simp, hb⟩
      · obtain ⟨h1, h2, h3⟩ := ih h
        exact ⟨by omega, by simp only [List.length_cons]; omega, h3⟩

theorem Memory.read_cells (base : Nat) (bs : List Byte) (k : Nat) :
    Memory.read (Memory.cells base bs) (base + k) = bs.getD k 0 := by
  induction bs generalizing base k with
  | nil => simp [Memory.cells, Memory.read]
  | cons b bs ih =>
    cases k with
    | zero =>
      by_cases hb : b = 0#8
      · subst hb
        rw [Memory.cells_cons_zero, Nat.add_zero, List.getD_cons_zero]
        exact Memory.read_of_not_mem _ _ fun c hc => by have := Memory.mem_cells hc; omega
      · simp [Memory.cells_cons_ne, hb, Memory.read]
    | succ k =>
      have e : base + (k + 1) = base + 1 + k := by omega
      rw [e, List.getD_cons_succ]
      by_cases hb : b = 0#8
      · rw [hb, Memory.cells_cons_zero, ih]
      · rw [Memory.cells_cons_ne base b bs hb, Memory.read, if_neg (by omega), ih]

/-- Outside the written range every byte is unchanged. -/
theorem Memory.read_writeRange_out (m : Memory) (base : Nat) (bs : List Byte) (a : Nat)
    (h : a < base ∨ base + bs.length ≤ a) : (m.writeRange base bs).read a = m.read a := by
  unfold Memory.writeRange
  rcases h with h | h
  · by_cases hm : ∃ c ∈ m.filter (fun c => decide (c.1 < base)), c.1 = a
    · rw [Memory.read_append, if_pos hm]
      exact Memory.read_filter m (fun x => decide (x < base)) a (by simpa using h)
    · rw [Memory.read_append, if_neg hm]
      have hn : ∀ c ∈ m, c.1 ≠ a := fun c hc he => hm ⟨c, by simp [hc, he, h], he⟩
      rw [Memory.read_of_not_mem m a hn, Memory.read_of_not_mem]
      intro c hc
      rcases List.mem_append.mp hc with hc | hc
      · have := Memory.mem_cells hc; omega
      · exact hn c (List.mem_of_mem_filter hc)
  · have h1 : ¬ ∃ c ∈ m.filter (fun c => decide (c.1 < base)), c.1 = a := by
      rintro ⟨c, hc, he⟩
      have : c.1 < base := by simpa using (List.mem_filter.mp hc).2
      omega
    have h2 : ¬ ∃ c ∈ Memory.cells base bs, c.1 = a := by
      rintro ⟨c, hc, he⟩
      have := Memory.mem_cells hc
      omega
    rw [Memory.read_append, if_neg h1, Memory.read_append, if_neg h2]
    exact Memory.read_filter m (fun x => decide (base + bs.length ≤ x)) a (by simpa using h)

/-- Inside the written range stand the written bytes. -/
theorem Memory.read_writeRange_in (m : Memory) (base : Nat) (bs : List Byte) (k : Nat) (h : k < bs.length) :
    (m.writeRange base bs).read (base + k) = bs.getD k 0 := by
  unfold Memory.writeRange
  have h1 : ¬ ∃ c ∈ m.filter (fun c => decide (c.1 < base)), c.1 = base + k := by
    rintro ⟨c, hc, he⟩
    have : c.1 < base := by simpa using (List.mem_filter.mp hc).2
    omega
  rw [Memory.read_append, if_neg h1, Memory.read_append]
  split
  · exact Memory.read_cells base bs k
  · next h2 =>
    have : Memory.read (Memory.cells base bs) (base + k) = 0 :=
      Memory.read_of_not_mem _ _ fun c hc he => h2 ⟨c, hc, he⟩
    rw [Memory.read_cells] at this
    rw [this]
    refine Memory.read_of_not_mem _ _ fun c hc => ?_
    have : base + bs.length ≤ c.1 := by simpa using (List.mem_filter.mp hc).2
    omega

@[simp] theorem Memory.readRange_length (m : Memory) (base n : Nat) : (m.readRange base n).length = n := by
  simp [Memory.readRange]

theorem Memory.getD_readRange (m : Memory) (base n k : Nat) (h : k < n) : (m.readRange base n).getD k 0 = m.read (base + k) := by
  simp [Memory.readRange, List.getD_eq_getElem?_getD, h]

/-- A written range reads back as the written bytes. -/
theorem Memory.readRange_writeRange_same (m : Memory) (base : Nat) (bs : List Byte) :
    (m.writeRange base bs).readRange base bs.length = bs := by
  apply List.ext_getElem (by simp)
  intro k h1 h2
  have := Memory.read_writeRange_in m base bs k h2
  simpa [Memory.readRange, List.getD_eq_getElem?_getD, h2] using this

/-- A range that the write does not touch reads as before. -/
theorem Memory.readRange_writeRange_disjoint (m : Memory) (base : Nat) (bs : List Byte) (b n : Nat)
    (h : b + n ≤ base ∨ base + bs.length ≤ b) : (m.writeRange base bs).readRange b n = m.readRange b n := by
  apply List.map_congr_left
  intro k hk
  have hk : k < n := by simpa using hk
  exact Memory.read_writeRange_out m base bs (b + k) (by omega)

/-! ## The canonical form -/

theorem Memory.pairwise_cells (base : Nat) (bs : List Byte) :
    List.Pairwise (fun x y : Host.Cell => x.1 < y.1) (Memory.cells base bs) := by
  induction bs generalizing base with
  | nil => simp [Memory.cells]
  | cons b bs ih =>
    by_cases hb : b = 0#8
    · rw [hb, Memory.cells_cons_zero]; exact ih (base + 1)
    · rw [Memory.cells_cons_ne base b bs hb, List.pairwise_cons]
      exact ⟨fun c hc => by have := Memory.mem_cells hc; simp only; omega, ih (base + 1)⟩

/-- A cell of the written memory is a written byte, or a cell of the old memory outside the range. -/
theorem Memory.mem_writeRange {m : Memory} {base : Nat} {bs : List Byte} {c : Host.Cell} (h : c ∈ m.writeRange base bs) :
    (c ∈ m ∧ (c.1 < base ∨ base + bs.length ≤ c.1)) ∨
      (base ≤ c.1 ∧ c.1 < base + bs.length ∧ c ∈ Memory.cells base bs) := by
  unfold Memory.writeRange at h
  rcases List.mem_append.mp h with h | h
  · obtain ⟨hm, hp⟩ := List.mem_filter.mp h
    exact .inl ⟨hm, .inl (by simpa using hp)⟩
  · rcases List.mem_append.mp h with h | h
    · obtain ⟨h1, h2, _⟩ := Memory.mem_cells h
      exact .inr ⟨h1, h2, h⟩
    · obtain ⟨hm, hp⟩ := List.mem_filter.mp h
      exact .inl ⟨hm, .inr (by simpa using hp)⟩

/-- A cell of a placed byte string holds its byte. -/
theorem Memory.mem_cells_value {base : Nat} {bs : List Byte} {c : Host.Cell} (h : c ∈ Memory.cells base bs) :
    c.2 = bs.getD (c.1 - base) 0 := by
  induction bs generalizing base with
  | nil => simp [Memory.cells] at h
  | cons b bs ih =>
    have step : c ∈ Memory.cells (base + 1) bs → c.2 = (b :: bs).getD (c.1 - base) 0 := by
      intro h
      have hc := Memory.mem_cells h
      have e : c.1 - base = c.1 - (base + 1) + 1 := by omega
      rw [ih h, e, List.getD_cons_succ]
    by_cases hb : b = 0#8
    · exact step (by simpa [hb, Memory.cells_cons_zero] using h)
    · rw [Memory.cells_cons_ne base b bs hb, List.mem_cons] at h
      rcases h with rfl | h
      · simp
      · exact step h

/-- Writing keeps the canonical form. -/
theorem Memory.wf_writeRange (m : Memory) (base : Nat) (bs : List Byte) (h : m.wf) : (m.writeRange base bs).wf := by
  obtain ⟨hs, hz⟩ := h
  constructor
  · unfold Memory.writeRange
    rw [List.pairwise_append, List.pairwise_append]
    refine ⟨hs.filter _, ⟨Memory.pairwise_cells base bs, hs.filter _, ?_⟩, ?_⟩
    · intro x hx y hy
      have := Memory.mem_cells hx
      have : base + bs.length ≤ y.1 := by simpa using (List.mem_filter.mp hy).2
      omega
    · intro x hx y hy
      have : x.1 < base := by simpa using (List.mem_filter.mp hx).2
      rcases List.mem_append.mp hy with hy | hy
      · have := Memory.mem_cells hy; omega
      · have : base + bs.length ≤ y.1 := by simpa using (List.mem_filter.mp hy).2
        omega
  · intro c hc
    rcases Memory.mem_writeRange hc with ⟨hm, _⟩ | ⟨_, _, hc⟩
    · exact hz c hm
    · exact (Memory.mem_cells hc).2.2

end Sys2Proof.Machine
end

