-- ==== Sys2Proof/Laws/State.lean ====
section
/-! SUPPORT. One lemma per field of State per update of it. -/

namespace Sys2Proof.Machine

/-! ## Command start (R91) -/

@[simp] theorem State.startCommand_run (s : State) (w : Word) : (s.startCommand w).run = .busy := rfl
@[simp] theorem State.startCommand_cfg (s : State) (w : Word) : (s.startCommand w).cfg = s.cfg := rfl
@[simp] theorem State.startCommand_cmd (s : State) (w : Word) : (s.startCommand w).cmd = w := rfl
@[simp] theorem State.startCommand_arg (s : State) (w : Word) : (s.startCommand w).arg = s.arg := rfl
@[simp] theorem State.startCommand_done (s : State) (w : Word) : (s.startCommand w).done = false := rfl
@[simp] theorem State.startCommand_err (s : State) (w : Word) : (s.startCommand w).err = false := rfl
@[simp] theorem State.startCommand_eq (s : State) (w : Word) : (s.startCommand w).eq = s.eq := rfl
@[simp] theorem State.startCommand_accv (s : State) (w : Word) : (s.startCommand w).accv = s.accv := rfl
@[simp] theorem State.startCommand_cmdovr (s : State) (w : Word) : (s.startCommand w).cmdovr = s.cmdovr := rfl
@[simp] theorem State.startCommand_errcode (s : State) (w : Word) : (s.startCommand w).errcode = 0 := rfl
@[simp] theorem State.startCommand_pklen (s : State) (w : Word) : (s.startCommand w).pklen = s.pklen := rfl
@[simp] theorem State.startCommand_sklen (s : State) (w : Word) : (s.startCommand w).sklen = s.sklen := rfl
@[simp] theorem State.startCommand_ctlen (s : State) (w : Word) : (s.startCommand w).ctlen = s.ctlen := rfl
@[simp] theorem State.startCommand_s0len (s : State) (w : Word) : (s.startCommand w).s0len = s.s0len := rfl
@[simp] theorem State.startCommand_s1len (s : State) (w : Word) : (s.startCommand w).s1len = s.s1len := rfl
@[simp] theorem State.startCommand_mem (s : State) (w : Word) : (s.startCommand w).mem = s.mem := rfl
@[simp] theorem State.startCommand_inputs (s : State) (w : Word) : (s.startCommand w).inputs = s.inputs := rfl
@[simp] theorem State.startCommand_response (s : State) (w : Word) : (s.startCommand w).response = s.response := rfl
@[simp] theorem State.startCommand_entropy (s : State) (w : Word) : (s.startCommand w).entropy = s.entropy := rfl
@[simp] theorem State.startCommand_xef (s : State) (w : Word) : (s.startCommand w).xef = s.xef := rfl

/-! ## Completion without error (R92) -/

@[simp] theorem State.complete_run (s : State) : (s.complete).run = .idle := rfl
@[simp] theorem State.complete_cfg (s : State) : (s.complete).cfg = s.cfg := rfl
@[simp] theorem State.complete_cmd (s : State) : (s.complete).cmd = s.cmd := rfl
@[simp] theorem State.complete_arg (s : State) : (s.complete).arg = s.arg := rfl
@[simp] theorem State.complete_done (s : State) : (s.complete).done = true := rfl
@[simp] theorem State.complete_err (s : State) : (s.complete).err = s.err := rfl
@[simp] theorem State.complete_eq (s : State) : (s.complete).eq = s.eq := rfl
@[simp] theorem State.complete_accv (s : State) : (s.complete).accv = s.accv := rfl
@[simp] theorem State.complete_cmdovr (s : State) : (s.complete).cmdovr = s.cmdovr := rfl
@[simp] theorem State.complete_errcode (s : State) : (s.complete).errcode = s.errcode := rfl
@[simp] theorem State.complete_pklen (s : State) : (s.complete).pklen = s.pklen := rfl
@[simp] theorem State.complete_sklen (s : State) : (s.complete).sklen = s.sklen := rfl
@[simp] theorem State.complete_ctlen (s : State) : (s.complete).ctlen = s.ctlen := rfl
@[simp] theorem State.complete_s0len (s : State) : (s.complete).s0len = s.s0len := rfl
@[simp] theorem State.complete_s1len (s : State) : (s.complete).s1len = s.s1len := rfl
@[simp] theorem State.complete_mem (s : State) : (s.complete).mem = s.mem := rfl
@[simp] theorem State.complete_inputs (s : State) : (s.complete).inputs = s.inputs := rfl
@[simp] theorem State.complete_response (s : State) : (s.complete).response = s.response := rfl
@[simp] theorem State.complete_entropy (s : State) : (s.complete).entropy = s.entropy := rfl
@[simp] theorem State.complete_xef (s : State) : (s.complete).xef = s.xef := rfl

/-! ## Error completion (R246) -/

@[simp] theorem State.raise_run (s : State) (e : ErrorCode) : (s.raise e).run = .idle := rfl
@[simp] theorem State.raise_cfg (s : State) (e : ErrorCode) : (s.raise e).cfg = s.cfg := rfl
@[simp] theorem State.raise_cmd (s : State) (e : ErrorCode) : (s.raise e).cmd = s.cmd := rfl
@[simp] theorem State.raise_arg (s : State) (e : ErrorCode) : (s.raise e).arg = s.arg := rfl
@[simp] theorem State.raise_done (s : State) (e : ErrorCode) : (s.raise e).done = s.done := rfl
@[simp] theorem State.raise_err (s : State) (e : ErrorCode) : (s.raise e).err = true := rfl
@[simp] theorem State.raise_eq (s : State) (e : ErrorCode) : (s.raise e).eq = s.eq := rfl
@[simp] theorem State.raise_accv (s : State) (e : ErrorCode) : (s.raise e).accv = s.accv := rfl
@[simp] theorem State.raise_cmdovr (s : State) (e : ErrorCode) : (s.raise e).cmdovr = s.cmdovr := rfl
@[simp] theorem State.raise_errcode (s : State) (e : ErrorCode) : (s.raise e).errcode = e.code := rfl
@[simp] theorem State.raise_pklen (s : State) (e : ErrorCode) : (s.raise e).pklen = s.pklen := rfl
@[simp] theorem State.raise_sklen (s : State) (e : ErrorCode) : (s.raise e).sklen = s.sklen := rfl
@[simp] theorem State.raise_ctlen (s : State) (e : ErrorCode) : (s.raise e).ctlen = s.ctlen := rfl
@[simp] theorem State.raise_s0len (s : State) (e : ErrorCode) : (s.raise e).s0len = s.s0len := rfl
@[simp] theorem State.raise_s1len (s : State) (e : ErrorCode) : (s.raise e).s1len = s.s1len := rfl
@[simp] theorem State.raise_mem (s : State) (e : ErrorCode) : (s.raise e).mem = s.mem := rfl
@[simp] theorem State.raise_inputs (s : State) (e : ErrorCode) : (s.raise e).inputs = s.inputs := rfl
@[simp] theorem State.raise_response (s : State) (e : ErrorCode) : (s.raise e).response = s.response := rfl
@[simp] theorem State.raise_entropy (s : State) (e : ErrorCode) : (s.raise e).entropy = s.entropy := rfl
@[simp] theorem State.raise_xef (s : State) (e : ErrorCode) : (s.raise e).xef = s.xef := rfl

/-! ## A written range of the window -/

@[simp] theorem State.writeAt_run (s : State) (base : Nat) (bs : List Byte) : (s.writeAt base bs).run = s.run := rfl
@[simp] theorem State.writeAt_cfg (s : State) (base : Nat) (bs : List Byte) : (s.writeAt base bs).cfg = s.cfg := rfl
@[simp] theorem State.writeAt_cmd (s : State) (base : Nat) (bs : List Byte) : (s.writeAt base bs).cmd = s.cmd := rfl
@[simp] theorem State.writeAt_arg (s : State) (base : Nat) (bs : List Byte) : (s.writeAt base bs).arg = s.arg := rfl
@[simp] theorem State.writeAt_done (s : State) (base : Nat) (bs : List Byte) : (s.writeAt base bs).done = s.done := rfl
@[simp] theorem State.writeAt_err (s : State) (base : Nat) (bs : List Byte) : (s.writeAt base bs).err = s.err := rfl
@[simp] theorem State.writeAt_eq (s : State) (base : Nat) (bs : List Byte) : (s.writeAt base bs).eq = s.eq := rfl
@[simp] theorem State.writeAt_accv (s : State) (base : Nat) (bs : List Byte) : (s.writeAt base bs).accv = s.accv := rfl
@[simp] theorem State.writeAt_cmdovr (s : State) (base : Nat) (bs : List Byte) : (s.writeAt base bs).cmdovr = s.cmdovr := rfl
@[simp] theorem State.writeAt_errcode (s : State) (base : Nat) (bs : List Byte) : (s.writeAt base bs).errcode = s.errcode := rfl
@[simp] theorem State.writeAt_pklen (s : State) (base : Nat) (bs : List Byte) : (s.writeAt base bs).pklen = s.pklen := rfl
@[simp] theorem State.writeAt_sklen (s : State) (base : Nat) (bs : List Byte) : (s.writeAt base bs).sklen = s.sklen := rfl
@[simp] theorem State.writeAt_ctlen (s : State) (base : Nat) (bs : List Byte) : (s.writeAt base bs).ctlen = s.ctlen := rfl
@[simp] theorem State.writeAt_s0len (s : State) (base : Nat) (bs : List Byte) : (s.writeAt base bs).s0len = s.s0len := rfl
@[simp] theorem State.writeAt_s1len (s : State) (base : Nat) (bs : List Byte) : (s.writeAt base bs).s1len = s.s1len := rfl
@[simp] theorem State.writeAt_mem (s : State) (base : Nat) (bs : List Byte) : (s.writeAt base bs).mem = s.mem.writeRange base bs := rfl
@[simp] theorem State.writeAt_inputs (s : State) (base : Nat) (bs : List Byte) : (s.writeAt base bs).inputs = s.inputs := rfl
@[simp] theorem State.writeAt_response (s : State) (base : Nat) (bs : List Byte) : (s.writeAt base bs).response = s.response := rfl
@[simp] theorem State.writeAt_entropy (s : State) (base : Nat) (bs : List Byte) : (s.writeAt base bs).entropy = s.entropy := rfl
@[simp] theorem State.writeAt_xef (s : State) (base : Nat) (bs : List Byte) : (s.writeAt base bs).xef = s.xef := rfl

/-! ## A written polynomial register (R21) -/

@[simp] theorem State.writePoly_run (s : State) (r : PReg) (x : List Byte) : (s.writePoly r x).run = s.run := rfl
@[simp] theorem State.writePoly_cfg (s : State) (r : PReg) (x : List Byte) : (s.writePoly r x).cfg = s.cfg := rfl
@[simp] theorem State.writePoly_cmd (s : State) (r : PReg) (x : List Byte) : (s.writePoly r x).cmd = s.cmd := rfl
@[simp] theorem State.writePoly_arg (s : State) (r : PReg) (x : List Byte) : (s.writePoly r x).arg = s.arg := rfl
@[simp] theorem State.writePoly_done (s : State) (r : PReg) (x : List Byte) : (s.writePoly r x).done = s.done := rfl
@[simp] theorem State.writePoly_err (s : State) (r : PReg) (x : List Byte) : (s.writePoly r x).err = s.err := rfl
@[simp] theorem State.writePoly_eq (s : State) (r : PReg) (x : List Byte) : (s.writePoly r x).eq = s.eq := rfl
@[simp] theorem State.writePoly_accv (s : State) (r : PReg) (x : List Byte) : (s.writePoly r x).accv = s.accv := rfl
@[simp] theorem State.writePoly_cmdovr (s : State) (r : PReg) (x : List Byte) : (s.writePoly r x).cmdovr = s.cmdovr := rfl
@[simp] theorem State.writePoly_errcode (s : State) (r : PReg) (x : List Byte) : (s.writePoly r x).errcode = s.errcode := rfl
@[simp] theorem State.writePoly_pklen (s : State) (r : PReg) (x : List Byte) : (s.writePoly r x).pklen = s.pklen := rfl
@[simp] theorem State.writePoly_sklen (s : State) (r : PReg) (x : List Byte) : (s.writePoly r x).sklen = s.sklen := rfl
@[simp] theorem State.writePoly_ctlen (s : State) (r : PReg) (x : List Byte) : (s.writePoly r x).ctlen = s.ctlen := rfl
@[simp] theorem State.writePoly_s0len (s : State) (r : PReg) (x : List Byte) : (s.writePoly r x).s0len = s.s0len := rfl
@[simp] theorem State.writePoly_s1len (s : State) (r : PReg) (x : List Byte) : (s.writePoly r x).s1len = s.s1len := rfl
@[simp] theorem State.writePoly_mem (s : State) (r : PReg) (x : List Byte) : (s.writePoly r x).mem = s.mem.writeRange r.base (fit nMax x) := rfl
@[simp] theorem State.writePoly_inputs (s : State) (r : PReg) (x : List Byte) : (s.writePoly r x).inputs = s.inputs := rfl
@[simp] theorem State.writePoly_response (s : State) (r : PReg) (x : List Byte) : (s.writePoly r x).response = s.response := rfl
@[simp] theorem State.writePoly_entropy (s : State) (r : PReg) (x : List Byte) : (s.writePoly r x).entropy = s.entropy := rfl
@[simp] theorem State.writePoly_xef (s : State) (r : PReg) (x : List Byte) : (s.writePoly r x).xef = s.xef := rfl

/-! ## A written byte-string register (R23) -/

@[simp] theorem State.writeBytes_run (s : State) (r : BReg) (x : List Byte) : (s.writeBytes r x).run = s.run := rfl
@[simp] theorem State.writeBytes_cfg (s : State) (r : BReg) (x : List Byte) : (s.writeBytes r x).cfg = s.cfg := rfl
@[simp] theorem State.writeBytes_cmd (s : State) (r : BReg) (x : List Byte) : (s.writeBytes r x).cmd = s.cmd := rfl
@[simp] theorem State.writeBytes_arg (s : State) (r : BReg) (x : List Byte) : (s.writeBytes r x).arg = s.arg := rfl
@[simp] theorem State.writeBytes_done (s : State) (r : BReg) (x : List Byte) : (s.writeBytes r x).done = s.done := rfl
@[simp] theorem State.writeBytes_err (s : State) (r : BReg) (x : List Byte) : (s.writeBytes r x).err = s.err := rfl
@[simp] theorem State.writeBytes_eq (s : State) (r : BReg) (x : List Byte) : (s.writeBytes r x).eq = s.eq := rfl
@[simp] theorem State.writeBytes_accv (s : State) (r : BReg) (x : List Byte) : (s.writeBytes r x).accv = s.accv := rfl
@[simp] theorem State.writeBytes_cmdovr (s : State) (r : BReg) (x : List Byte) : (s.writeBytes r x).cmdovr = s.cmdovr := rfl
@[simp] theorem State.writeBytes_errcode (s : State) (r : BReg) (x : List Byte) : (s.writeBytes r x).errcode = s.errcode := rfl
@[simp] theorem State.writeBytes_pklen (s : State) (r : BReg) (x : List Byte) : (s.writeBytes r x).pklen = s.pklen := rfl
@[simp] theorem State.writeBytes_sklen (s : State) (r : BReg) (x : List Byte) : (s.writeBytes r x).sklen = s.sklen := rfl
@[simp] theorem State.writeBytes_ctlen (s : State) (r : BReg) (x : List Byte) : (s.writeBytes r x).ctlen = s.ctlen := rfl
@[simp] theorem State.writeBytes_s0len (s : State) (r : BReg) (x : List Byte) : (s.writeBytes r x).s0len = s.s0len := rfl
@[simp] theorem State.writeBytes_s1len (s : State) (r : BReg) (x : List Byte) : (s.writeBytes r x).s1len = s.s1len := rfl
@[simp] theorem State.writeBytes_mem (s : State) (r : BReg) (x : List Byte) : (s.writeBytes r x).mem = s.mem.writeRange r.base (fit bBytes x) := rfl
@[simp] theorem State.writeBytes_inputs (s : State) (r : BReg) (x : List Byte) : (s.writeBytes r x).inputs = s.inputs := rfl
@[simp] theorem State.writeBytes_response (s : State) (r : BReg) (x : List Byte) : (s.writeBytes r x).response = s.response := rfl
@[simp] theorem State.writeBytes_entropy (s : State) (r : BReg) (x : List Byte) : (s.writeBytes r x).entropy = s.entropy := rfl
@[simp] theorem State.writeBytes_xef (s : State) (r : BReg) (x : List Byte) : (s.writeBytes r x).xef = s.xef := rfl

/-! ## A written buffer (R26) -/

@[simp] theorem State.writeBuf_run (s : State) (b : Buffer) (x : List Byte) : (s.writeBuf b x).run = s.run := rfl
@[simp] theorem State.writeBuf_cfg (s : State) (b : Buffer) (x : List Byte) : (s.writeBuf b x).cfg = s.cfg := rfl
@[simp] theorem State.writeBuf_cmd (s : State) (b : Buffer) (x : List Byte) : (s.writeBuf b x).cmd = s.cmd := rfl
@[simp] theorem State.writeBuf_arg (s : State) (b : Buffer) (x : List Byte) : (s.writeBuf b x).arg = s.arg := rfl
@[simp] theorem State.writeBuf_done (s : State) (b : Buffer) (x : List Byte) : (s.writeBuf b x).done = s.done := rfl
@[simp] theorem State.writeBuf_err (s : State) (b : Buffer) (x : List Byte) : (s.writeBuf b x).err = s.err := rfl
@[simp] theorem State.writeBuf_eq (s : State) (b : Buffer) (x : List Byte) : (s.writeBuf b x).eq = s.eq := rfl
@[simp] theorem State.writeBuf_accv (s : State) (b : Buffer) (x : List Byte) : (s.writeBuf b x).accv = s.accv := rfl
@[simp] theorem State.writeBuf_cmdovr (s : State) (b : Buffer) (x : List Byte) : (s.writeBuf b x).cmdovr = s.cmdovr := rfl
@[simp] theorem State.writeBuf_errcode (s : State) (b : Buffer) (x : List Byte) : (s.writeBuf b x).errcode = s.errcode := rfl
@[simp] theorem State.writeBuf_pklen (s : State) (b : Buffer) (x : List Byte) : (s.writeBuf b x).pklen = s.pklen := rfl
@[simp] theorem State.writeBuf_sklen (s : State) (b : Buffer) (x : List Byte) : (s.writeBuf b x).sklen = s.sklen := rfl
@[simp] theorem State.writeBuf_ctlen (s : State) (b : Buffer) (x : List Byte) : (s.writeBuf b x).ctlen = s.ctlen := rfl
@[simp] theorem State.writeBuf_s0len (s : State) (b : Buffer) (x : List Byte) : (s.writeBuf b x).s0len = s.s0len := rfl
@[simp] theorem State.writeBuf_s1len (s : State) (b : Buffer) (x : List Byte) : (s.writeBuf b x).s1len = s.s1len := rfl
@[simp] theorem State.writeBuf_mem (s : State) (b : Buffer) (x : List Byte) : (s.writeBuf b x).mem = s.mem.writeRange b.base (fit b.size x) := rfl
@[simp] theorem State.writeBuf_inputs (s : State) (b : Buffer) (x : List Byte) : (s.writeBuf b x).inputs = s.inputs := rfl
@[simp] theorem State.writeBuf_response (s : State) (b : Buffer) (x : List Byte) : (s.writeBuf b x).response = s.response := rfl
@[simp] theorem State.writeBuf_entropy (s : State) (b : Buffer) (x : List Byte) : (s.writeBuf b x).entropy = s.entropy := rfl
@[simp] theorem State.writeBuf_xef (s : State) (b : Buffer) (x : List Byte) : (s.writeBuf b x).xef = s.xef := rfl

/-! ## A written public key (R26) -/

@[simp] theorem State.writePk_run (s : State) (x : List Byte) : (s.writePk x).run = s.run := rfl
@[simp] theorem State.writePk_cfg (s : State) (x : List Byte) : (s.writePk x).cfg = s.cfg := rfl
@[simp] theorem State.writePk_cmd (s : State) (x : List Byte) : (s.writePk x).cmd = s.cmd := rfl
@[simp] theorem State.writePk_arg (s : State) (x : List Byte) : (s.writePk x).arg = s.arg := rfl
@[simp] theorem State.writePk_done (s : State) (x : List Byte) : (s.writePk x).done = s.done := rfl
@[simp] theorem State.writePk_err (s : State) (x : List Byte) : (s.writePk x).err = s.err := rfl
@[simp] theorem State.writePk_eq (s : State) (x : List Byte) : (s.writePk x).eq = s.eq := rfl
@[simp] theorem State.writePk_accv (s : State) (x : List Byte) : (s.writePk x).accv = s.accv := rfl
@[simp] theorem State.writePk_cmdovr (s : State) (x : List Byte) : (s.writePk x).cmdovr = s.cmdovr := rfl
@[simp] theorem State.writePk_errcode (s : State) (x : List Byte) : (s.writePk x).errcode = s.errcode := rfl
@[simp] theorem State.writePk_pklen (s : State) (x : List Byte) : (s.writePk x).pklen = BitVec.ofNat 11 x.length := rfl
@[simp] theorem State.writePk_sklen (s : State) (x : List Byte) : (s.writePk x).sklen = s.sklen := rfl
@[simp] theorem State.writePk_ctlen (s : State) (x : List Byte) : (s.writePk x).ctlen = s.ctlen := rfl
@[simp] theorem State.writePk_s0len (s : State) (x : List Byte) : (s.writePk x).s0len = s.s0len := rfl
@[simp] theorem State.writePk_s1len (s : State) (x : List Byte) : (s.writePk x).s1len = s.s1len := rfl
@[simp] theorem State.writePk_mem (s : State) (x : List Byte) : (s.writePk x).mem = s.mem.writeRange Buffer.pkbuf.base (fit Buffer.pkbuf.size x) := rfl
@[simp] theorem State.writePk_inputs (s : State) (x : List Byte) : (s.writePk x).inputs = s.inputs := rfl
@[simp] theorem State.writePk_response (s : State) (x : List Byte) : (s.writePk x).response = s.response := rfl
@[simp] theorem State.writePk_entropy (s : State) (x : List Byte) : (s.writePk x).entropy = s.entropy := rfl
@[simp] theorem State.writePk_xef (s : State) (x : List Byte) : (s.writePk x).xef = s.xef := rfl

/-! ## A written secret key (R26) -/

@[simp] theorem State.writeSk_run (s : State) (x : List Byte) : (s.writeSk x).run = s.run := rfl
@[simp] theorem State.writeSk_cfg (s : State) (x : List Byte) : (s.writeSk x).cfg = s.cfg := rfl
@[simp] theorem State.writeSk_cmd (s : State) (x : List Byte) : (s.writeSk x).cmd = s.cmd := rfl
@[simp] theorem State.writeSk_arg (s : State) (x : List Byte) : (s.writeSk x).arg = s.arg := rfl
@[simp] theorem State.writeSk_done (s : State) (x : List Byte) : (s.writeSk x).done = s.done := rfl
@[simp] theorem State.writeSk_err (s : State) (x : List Byte) : (s.writeSk x).err = s.err := rfl
@[simp] theorem State.writeSk_eq (s : State) (x : List Byte) : (s.writeSk x).eq = s.eq := rfl
@[simp] theorem State.writeSk_accv (s : State) (x : List Byte) : (s.writeSk x).accv = s.accv := rfl
@[simp] theorem State.writeSk_cmdovr (s : State) (x : List Byte) : (s.writeSk x).cmdovr = s.cmdovr := rfl
@[simp] theorem State.writeSk_errcode (s : State) (x : List Byte) : (s.writeSk x).errcode = s.errcode := rfl
@[simp] theorem State.writeSk_pklen (s : State) (x : List Byte) : (s.writeSk x).pklen = s.pklen := rfl
@[simp] theorem State.writeSk_sklen (s : State) (x : List Byte) : (s.writeSk x).sklen = BitVec.ofNat 11 x.length := rfl
@[simp] theorem State.writeSk_ctlen (s : State) (x : List Byte) : (s.writeSk x).ctlen = s.ctlen := rfl
@[simp] theorem State.writeSk_s0len (s : State) (x : List Byte) : (s.writeSk x).s0len = s.s0len := rfl
@[simp] theorem State.writeSk_s1len (s : State) (x : List Byte) : (s.writeSk x).s1len = s.s1len := rfl
@[simp] theorem State.writeSk_mem (s : State) (x : List Byte) : (s.writeSk x).mem = s.mem.writeRange Buffer.skbuf.base (fit Buffer.skbuf.size x) := rfl
@[simp] theorem State.writeSk_inputs (s : State) (x : List Byte) : (s.writeSk x).inputs = s.inputs := rfl
@[simp] theorem State.writeSk_response (s : State) (x : List Byte) : (s.writeSk x).response = s.response := rfl
@[simp] theorem State.writeSk_entropy (s : State) (x : List Byte) : (s.writeSk x).entropy = s.entropy := rfl
@[simp] theorem State.writeSk_xef (s : State) (x : List Byte) : (s.writeSk x).xef = s.xef := rfl

/-! ## A written ciphertext (R26) -/

@[simp] theorem State.writeCt_run (s : State) (x : List Byte) : (s.writeCt x).run = s.run := rfl
@[simp] theorem State.writeCt_cfg (s : State) (x : List Byte) : (s.writeCt x).cfg = s.cfg := rfl
@[simp] theorem State.writeCt_cmd (s : State) (x : List Byte) : (s.writeCt x).cmd = s.cmd := rfl
@[simp] theorem State.writeCt_arg (s : State) (x : List Byte) : (s.writeCt x).arg = s.arg := rfl
@[simp] theorem State.writeCt_done (s : State) (x : List Byte) : (s.writeCt x).done = s.done := rfl
@[simp] theorem State.writeCt_err (s : State) (x : List Byte) : (s.writeCt x).err = s.err := rfl
@[simp] theorem State.writeCt_eq (s : State) (x : List Byte) : (s.writeCt x).eq = s.eq := rfl
@[simp] theorem State.writeCt_accv (s : State) (x : List Byte) : (s.writeCt x).accv = s.accv := rfl
@[simp] theorem State.writeCt_cmdovr (s : State) (x : List Byte) : (s.writeCt x).cmdovr = s.cmdovr := rfl
@[simp] theorem State.writeCt_errcode (s : State) (x : List Byte) : (s.writeCt x).errcode = s.errcode := rfl
@[simp] theorem State.writeCt_pklen (s : State) (x : List Byte) : (s.writeCt x).pklen = s.pklen := rfl
@[simp] theorem State.writeCt_sklen (s : State) (x : List Byte) : (s.writeCt x).sklen = s.sklen := rfl
@[simp] theorem State.writeCt_ctlen (s : State) (x : List Byte) : (s.writeCt x).ctlen = BitVec.ofNat 11 x.length := rfl
@[simp] theorem State.writeCt_s0len (s : State) (x : List Byte) : (s.writeCt x).s0len = s.s0len := rfl
@[simp] theorem State.writeCt_s1len (s : State) (x : List Byte) : (s.writeCt x).s1len = s.s1len := rfl
@[simp] theorem State.writeCt_mem (s : State) (x : List Byte) : (s.writeCt x).mem = s.mem.writeRange Buffer.ctbuf.base (fit Buffer.ctbuf.size x) := rfl
@[simp] theorem State.writeCt_inputs (s : State) (x : List Byte) : (s.writeCt x).inputs = s.inputs := rfl
@[simp] theorem State.writeCt_response (s : State) (x : List Byte) : (s.writeCt x).response = s.response := rfl
@[simp] theorem State.writeCt_entropy (s : State) (x : List Byte) : (s.writeCt x).entropy = s.entropy := rfl
@[simp] theorem State.writeCt_xef (s : State) (x : List Byte) : (s.writeCt x).xef = s.xef := rfl

/-! ## A written `S0LEN` (R39) -/

@[simp] theorem State.setSparseLen_s0_run (s : State) (v : Nat) : (s.setSparseLen .s0 v).run = s.run := rfl
@[simp] theorem State.setSparseLen_s0_cfg (s : State) (v : Nat) : (s.setSparseLen .s0 v).cfg = s.cfg := rfl
@[simp] theorem State.setSparseLen_s0_cmd (s : State) (v : Nat) : (s.setSparseLen .s0 v).cmd = s.cmd := rfl
@[simp] theorem State.setSparseLen_s0_arg (s : State) (v : Nat) : (s.setSparseLen .s0 v).arg = s.arg := rfl
@[simp] theorem State.setSparseLen_s0_done (s : State) (v : Nat) : (s.setSparseLen .s0 v).done = s.done := rfl
@[simp] theorem State.setSparseLen_s0_err (s : State) (v : Nat) : (s.setSparseLen .s0 v).err = s.err := rfl
@[simp] theorem State.setSparseLen_s0_eq (s : State) (v : Nat) : (s.setSparseLen .s0 v).eq = s.eq := rfl
@[simp] theorem State.setSparseLen_s0_accv (s : State) (v : Nat) : (s.setSparseLen .s0 v).accv = s.accv := rfl
@[simp] theorem State.setSparseLen_s0_cmdovr (s : State) (v : Nat) : (s.setSparseLen .s0 v).cmdovr = s.cmdovr := rfl
@[simp] theorem State.setSparseLen_s0_errcode (s : State) (v : Nat) : (s.setSparseLen .s0 v).errcode = s.errcode := rfl
@[simp] theorem State.setSparseLen_s0_pklen (s : State) (v : Nat) : (s.setSparseLen .s0 v).pklen = s.pklen := rfl
@[simp] theorem State.setSparseLen_s0_sklen (s : State) (v : Nat) : (s.setSparseLen .s0 v).sklen = s.sklen := rfl
@[simp] theorem State.setSparseLen_s0_ctlen (s : State) (v : Nat) : (s.setSparseLen .s0 v).ctlen = s.ctlen := rfl
@[simp] theorem State.setSparseLen_s0_s0len (s : State) (v : Nat) : (s.setSparseLen .s0 v).s0len = BitVec.ofNat 11 v := rfl
@[simp] theorem State.setSparseLen_s0_s1len (s : State) (v : Nat) : (s.setSparseLen .s0 v).s1len = s.s1len := rfl
@[simp] theorem State.setSparseLen_s0_mem (s : State) (v : Nat) : (s.setSparseLen .s0 v).mem = s.mem := rfl
@[simp] theorem State.setSparseLen_s0_inputs (s : State) (v : Nat) : (s.setSparseLen .s0 v).inputs = s.inputs := rfl
@[simp] theorem State.setSparseLen_s0_response (s : State) (v : Nat) : (s.setSparseLen .s0 v).response = s.response := rfl
@[simp] theorem State.setSparseLen_s0_entropy (s : State) (v : Nat) : (s.setSparseLen .s0 v).entropy = s.entropy := rfl
@[simp] theorem State.setSparseLen_s0_xef (s : State) (v : Nat) : (s.setSparseLen .s0 v).xef = s.xef := rfl

/-! ## A written `S1LEN` (R39) -/

@[simp] theorem State.setSparseLen_s1_run (s : State) (v : Nat) : (s.setSparseLen .s1 v).run = s.run := rfl
@[simp] theorem State.setSparseLen_s1_cfg (s : State) (v : Nat) : (s.setSparseLen .s1 v).cfg = s.cfg := rfl
@[simp] theorem State.setSparseLen_s1_cmd (s : State) (v : Nat) : (s.setSparseLen .s1 v).cmd = s.cmd := rfl
@[simp] theorem State.setSparseLen_s1_arg (s : State) (v : Nat) : (s.setSparseLen .s1 v).arg = s.arg := rfl
@[simp] theorem State.setSparseLen_s1_done (s : State) (v : Nat) : (s.setSparseLen .s1 v).done = s.done := rfl
@[simp] theorem State.setSparseLen_s1_err (s : State) (v : Nat) : (s.setSparseLen .s1 v).err = s.err := rfl
@[simp] theorem State.setSparseLen_s1_eq (s : State) (v : Nat) : (s.setSparseLen .s1 v).eq = s.eq := rfl
@[simp] theorem State.setSparseLen_s1_accv (s : State) (v : Nat) : (s.setSparseLen .s1 v).accv = s.accv := rfl
@[simp] theorem State.setSparseLen_s1_cmdovr (s : State) (v : Nat) : (s.setSparseLen .s1 v).cmdovr = s.cmdovr := rfl
@[simp] theorem State.setSparseLen_s1_errcode (s : State) (v : Nat) : (s.setSparseLen .s1 v).errcode = s.errcode := rfl
@[simp] theorem State.setSparseLen_s1_pklen (s : State) (v : Nat) : (s.setSparseLen .s1 v).pklen = s.pklen := rfl
@[simp] theorem State.setSparseLen_s1_sklen (s : State) (v : Nat) : (s.setSparseLen .s1 v).sklen = s.sklen := rfl
@[simp] theorem State.setSparseLen_s1_ctlen (s : State) (v : Nat) : (s.setSparseLen .s1 v).ctlen = s.ctlen := rfl
@[simp] theorem State.setSparseLen_s1_s0len (s : State) (v : Nat) : (s.setSparseLen .s1 v).s0len = s.s0len := rfl
@[simp] theorem State.setSparseLen_s1_s1len (s : State) (v : Nat) : (s.setSparseLen .s1 v).s1len = BitVec.ofNat 11 v := rfl
@[simp] theorem State.setSparseLen_s1_mem (s : State) (v : Nat) : (s.setSparseLen .s1 v).mem = s.mem := rfl
@[simp] theorem State.setSparseLen_s1_inputs (s : State) (v : Nat) : (s.setSparseLen .s1 v).inputs = s.inputs := rfl
@[simp] theorem State.setSparseLen_s1_response (s : State) (v : Nat) : (s.setSparseLen .s1 v).response = s.response := rfl
@[simp] theorem State.setSparseLen_s1_entropy (s : State) (v : Nat) : (s.setSparseLen .s1 v).entropy = s.entropy := rfl
@[simp] theorem State.setSparseLen_s1_xef (s : State) (v : Nat) : (s.setSparseLen .s1 v).xef = s.xef := rfl

/-! ## A written `S0` (R22) -/

@[simp] theorem State.writeSparse_s0_run (s : State) (l : List Term) : (s.writeSparse .s0 l).run = s.run := rfl
@[simp] theorem State.writeSparse_s0_cfg (s : State) (l : List Term) : (s.writeSparse .s0 l).cfg = s.cfg := rfl
@[simp] theorem State.writeSparse_s0_cmd (s : State) (l : List Term) : (s.writeSparse .s0 l).cmd = s.cmd := rfl
@[simp] theorem State.writeSparse_s0_arg (s : State) (l : List Term) : (s.writeSparse .s0 l).arg = s.arg := rfl
@[simp] theorem State.writeSparse_s0_done (s : State) (l : List Term) : (s.writeSparse .s0 l).done = s.done := rfl
@[simp] theorem State.writeSparse_s0_err (s : State) (l : List Term) : (s.writeSparse .s0 l).err = s.err := rfl
@[simp] theorem State.writeSparse_s0_eq (s : State) (l : List Term) : (s.writeSparse .s0 l).eq = s.eq := rfl
@[simp] theorem State.writeSparse_s0_accv (s : State) (l : List Term) : (s.writeSparse .s0 l).accv = s.accv := rfl
@[simp] theorem State.writeSparse_s0_cmdovr (s : State) (l : List Term) : (s.writeSparse .s0 l).cmdovr = s.cmdovr := rfl
@[simp] theorem State.writeSparse_s0_errcode (s : State) (l : List Term) : (s.writeSparse .s0 l).errcode = s.errcode := rfl
@[simp] theorem State.writeSparse_s0_pklen (s : State) (l : List Term) : (s.writeSparse .s0 l).pklen = s.pklen := rfl
@[simp] theorem State.writeSparse_s0_sklen (s : State) (l : List Term) : (s.writeSparse .s0 l).sklen = s.sklen := rfl
@[simp] theorem State.writeSparse_s0_ctlen (s : State) (l : List Term) : (s.writeSparse .s0 l).ctlen = s.ctlen := rfl
@[simp] theorem State.writeSparse_s0_s0len (s : State) (l : List Term) : (s.writeSparse .s0 l).s0len = BitVec.ofNat 11 l.length := rfl
@[simp] theorem State.writeSparse_s0_s1len (s : State) (l : List Term) : (s.writeSparse .s0 l).s1len = s.s1len := rfl
@[simp] theorem State.writeSparse_s0_mem (s : State) (l : List Term) : (s.writeSparse .s0 l).mem = s.mem.writeRange SReg.s0.base (fit (2 * sMax) (l.flatMap slotBytes)) := rfl
@[simp] theorem State.writeSparse_s0_inputs (s : State) (l : List Term) : (s.writeSparse .s0 l).inputs = s.inputs := rfl
@[simp] theorem State.writeSparse_s0_response (s : State) (l : List Term) : (s.writeSparse .s0 l).response = s.response := rfl
@[simp] theorem State.writeSparse_s0_entropy (s : State) (l : List Term) : (s.writeSparse .s0 l).entropy = s.entropy := rfl
@[simp] theorem State.writeSparse_s0_xef (s : State) (l : List Term) : (s.writeSparse .s0 l).xef = s.xef := rfl

/-! ## A written `S1` (R22) -/

@[simp] theorem State.writeSparse_s1_run (s : State) (l : List Term) : (s.writeSparse .s1 l).run = s.run := rfl
@[simp] theorem State.writeSparse_s1_cfg (s : State) (l : List Term) : (s.writeSparse .s1 l).cfg = s.cfg := rfl
@[simp] theorem State.writeSparse_s1_cmd (s : State) (l : List Term) : (s.writeSparse .s1 l).cmd = s.cmd := rfl
@[simp] theorem State.writeSparse_s1_arg (s : State) (l : List Term) : (s.writeSparse .s1 l).arg = s.arg := rfl
@[simp] theorem State.writeSparse_s1_done (s : State) (l : List Term) : (s.writeSparse .s1 l).done = s.done := rfl
@[simp] theorem State.writeSparse_s1_err (s : State) (l : List Term) : (s.writeSparse .s1 l).err = s.err := rfl
@[simp] theorem State.writeSparse_s1_eq (s : State) (l : List Term) : (s.writeSparse .s1 l).eq = s.eq := rfl
@[simp] theorem State.writeSparse_s1_accv (s : State) (l : List Term) : (s.writeSparse .s1 l).accv = s.accv := rfl
@[simp] theorem State.writeSparse_s1_cmdovr (s : State) (l : List Term) : (s.writeSparse .s1 l).cmdovr = s.cmdovr := rfl
@[simp] theorem State.writeSparse_s1_errcode (s : State) (l : List Term) : (s.writeSparse .s1 l).errcode = s.errcode := rfl
@[simp] theorem State.writeSparse_s1_pklen (s : State) (l : List Term) : (s.writeSparse .s1 l).pklen = s.pklen := rfl
@[simp] theorem State.writeSparse_s1_sklen (s : State) (l : List Term) : (s.writeSparse .s1 l).sklen = s.sklen := rfl
@[simp] theorem State.writeSparse_s1_ctlen (s : State) (l : List Term) : (s.writeSparse .s1 l).ctlen = s.ctlen := rfl
@[simp] theorem State.writeSparse_s1_s0len (s : State) (l : List Term) : (s.writeSparse .s1 l).s0len = s.s0len := rfl
@[simp] theorem State.writeSparse_s1_s1len (s : State) (l : List Term) : (s.writeSparse .s1 l).s1len = BitVec.ofNat 11 l.length := rfl
@[simp] theorem State.writeSparse_s1_mem (s : State) (l : List Term) : (s.writeSparse .s1 l).mem = s.mem.writeRange SReg.s1.base (fit (2 * sMax) (l.flatMap slotBytes)) := rfl
@[simp] theorem State.writeSparse_s1_inputs (s : State) (l : List Term) : (s.writeSparse .s1 l).inputs = s.inputs := rfl
@[simp] theorem State.writeSparse_s1_response (s : State) (l : List Term) : (s.writeSparse .s1 l).response = s.response := rfl
@[simp] theorem State.writeSparse_s1_entropy (s : State) (l : List Term) : (s.writeSparse .s1 l).entropy = s.entropy := rfl
@[simp] theorem State.writeSparse_s1_xef (s : State) (l : List Term) : (s.writeSparse .s1 l).xef = s.xef := rfl

/-! ## A written `EQ` (R138, R196) -/

@[simp] theorem State.setEq_run (s : State) (m : Byte) : (s.setEq m).run = s.run := rfl
@[simp] theorem State.setEq_cfg (s : State) (m : Byte) : (s.setEq m).cfg = s.cfg := rfl
@[simp] theorem State.setEq_cmd (s : State) (m : Byte) : (s.setEq m).cmd = s.cmd := rfl
@[simp] theorem State.setEq_arg (s : State) (m : Byte) : (s.setEq m).arg = s.arg := rfl
@[simp] theorem State.setEq_done (s : State) (m : Byte) : (s.setEq m).done = s.done := rfl
@[simp] theorem State.setEq_err (s : State) (m : Byte) : (s.setEq m).err = s.err := rfl
@[simp] theorem State.setEq_eq (s : State) (m : Byte) : (s.setEq m).eq = decide (m = 0xFF) := rfl
@[simp] theorem State.setEq_accv (s : State) (m : Byte) : (s.setEq m).accv = s.accv := rfl
@[simp] theorem State.setEq_cmdovr (s : State) (m : Byte) : (s.setEq m).cmdovr = s.cmdovr := rfl
@[simp] theorem State.setEq_errcode (s : State) (m : Byte) : (s.setEq m).errcode = s.errcode := rfl
@[simp] theorem State.setEq_pklen (s : State) (m : Byte) : (s.setEq m).pklen = s.pklen := rfl
@[simp] theorem State.setEq_sklen (s : State) (m : Byte) : (s.setEq m).sklen = s.sklen := rfl
@[simp] theorem State.setEq_ctlen (s : State) (m : Byte) : (s.setEq m).ctlen = s.ctlen := rfl
@[simp] theorem State.setEq_s0len (s : State) (m : Byte) : (s.setEq m).s0len = s.s0len := rfl
@[simp] theorem State.setEq_s1len (s : State) (m : Byte) : (s.setEq m).s1len = s.s1len := rfl
@[simp] theorem State.setEq_mem (s : State) (m : Byte) : (s.setEq m).mem = s.mem := rfl
@[simp] theorem State.setEq_inputs (s : State) (m : Byte) : (s.setEq m).inputs = s.inputs := rfl
@[simp] theorem State.setEq_response (s : State) (m : Byte) : (s.setEq m).response = s.response := rfl
@[simp] theorem State.setEq_entropy (s : State) (m : Byte) : (s.setEq m).entropy = s.entropy := rfl
@[simp] theorem State.setEq_xef (s : State) (m : Byte) : (s.setEq m).xef = s.xef := rfl

/-! ## A W1C write (R35) -/

@[simp] theorem State.clearStatus_run (s : State) (v : Word) : (s.clearStatus v).run = s.run := rfl
@[simp] theorem State.clearStatus_cfg (s : State) (v : Word) : (s.clearStatus v).cfg = s.cfg := rfl
@[simp] theorem State.clearStatus_cmd (s : State) (v : Word) : (s.clearStatus v).cmd = s.cmd := rfl
@[simp] theorem State.clearStatus_arg (s : State) (v : Word) : (s.clearStatus v).arg = s.arg := rfl
@[simp] theorem State.clearStatus_done (s : State) (v : Word) : (s.clearStatus v).done = (s.done && !v.getLsbD 1) := rfl
@[simp] theorem State.clearStatus_err (s : State) (v : Word) : (s.clearStatus v).err = (s.err && !v.getLsbD 2) := rfl
@[simp] theorem State.clearStatus_eq (s : State) (v : Word) : (s.clearStatus v).eq = s.eq := rfl
@[simp] theorem State.clearStatus_accv (s : State) (v : Word) : (s.clearStatus v).accv = (s.accv && !v.getLsbD 4) := rfl
@[simp] theorem State.clearStatus_cmdovr (s : State) (v : Word) : (s.clearStatus v).cmdovr = (s.cmdovr && !v.getLsbD 5) := rfl
@[simp] theorem State.clearStatus_errcode (s : State) (v : Word) : (s.clearStatus v).errcode = (if v.getLsbD 2 then 0 else s.errcode) := rfl
@[simp] theorem State.clearStatus_pklen (s : State) (v : Word) : (s.clearStatus v).pklen = s.pklen := rfl
@[simp] theorem State.clearStatus_sklen (s : State) (v : Word) : (s.clearStatus v).sklen = s.sklen := rfl
@[simp] theorem State.clearStatus_ctlen (s : State) (v : Word) : (s.clearStatus v).ctlen = s.ctlen := rfl
@[simp] theorem State.clearStatus_s0len (s : State) (v : Word) : (s.clearStatus v).s0len = s.s0len := rfl
@[simp] theorem State.clearStatus_s1len (s : State) (v : Word) : (s.clearStatus v).s1len = s.s1len := rfl
@[simp] theorem State.clearStatus_mem (s : State) (v : Word) : (s.clearStatus v).mem = s.mem := rfl
@[simp] theorem State.clearStatus_inputs (s : State) (v : Word) : (s.clearStatus v).inputs = s.inputs := rfl
@[simp] theorem State.clearStatus_response (s : State) (v : Word) : (s.clearStatus v).response = s.response := rfl
@[simp] theorem State.clearStatus_entropy (s : State) (v : Word) : (s.clearStatus v).entropy = s.entropy := rfl
@[simp] theorem State.clearStatus_xef (s : State) (v : Word) : (s.clearStatus v).xef = s.xef := rfl

/-! ## A refused access (R291) -/

@[simp] theorem State.accessRefused_run (s : State) : (s.accessRefused).run = s.run := rfl
@[simp] theorem State.accessRefused_cfg (s : State) : (s.accessRefused).cfg = s.cfg := rfl
@[simp] theorem State.accessRefused_cmd (s : State) : (s.accessRefused).cmd = s.cmd := rfl
@[simp] theorem State.accessRefused_arg (s : State) : (s.accessRefused).arg = s.arg := rfl
@[simp] theorem State.accessRefused_done (s : State) : (s.accessRefused).done = s.done := rfl
@[simp] theorem State.accessRefused_err (s : State) : (s.accessRefused).err = s.err := rfl
@[simp] theorem State.accessRefused_eq (s : State) : (s.accessRefused).eq = s.eq := rfl
@[simp] theorem State.accessRefused_accv (s : State) : (s.accessRefused).accv = true := rfl
@[simp] theorem State.accessRefused_cmdovr (s : State) : (s.accessRefused).cmdovr = s.cmdovr := rfl
@[simp] theorem State.accessRefused_errcode (s : State) : (s.accessRefused).errcode = s.errcode := rfl
@[simp] theorem State.accessRefused_pklen (s : State) : (s.accessRefused).pklen = s.pklen := rfl
@[simp] theorem State.accessRefused_sklen (s : State) : (s.accessRefused).sklen = s.sklen := rfl
@[simp] theorem State.accessRefused_ctlen (s : State) : (s.accessRefused).ctlen = s.ctlen := rfl
@[simp] theorem State.accessRefused_s0len (s : State) : (s.accessRefused).s0len = s.s0len := rfl
@[simp] theorem State.accessRefused_s1len (s : State) : (s.accessRefused).s1len = s.s1len := rfl
@[simp] theorem State.accessRefused_mem (s : State) : (s.accessRefused).mem = s.mem := rfl
@[simp] theorem State.accessRefused_inputs (s : State) : (s.accessRefused).inputs = s.inputs := rfl
@[simp] theorem State.accessRefused_response (s : State) : (s.accessRefused).response = s.response := rfl
@[simp] theorem State.accessRefused_entropy (s : State) : (s.accessRefused).entropy = s.entropy := rfl
@[simp] theorem State.accessRefused_xef (s : State) : (s.accessRefused).xef = s.xef := rfl

/-! ## The reset event (R280) -/

@[simp] theorem State.resetEngine_run (s : State) : s.resetEngine.run = State.reset.run := rfl
@[simp] theorem State.resetEngine_cfg (s : State) : s.resetEngine.cfg = State.reset.cfg := rfl
@[simp] theorem State.resetEngine_cmd (s : State) : s.resetEngine.cmd = State.reset.cmd := rfl
@[simp] theorem State.resetEngine_arg (s : State) : s.resetEngine.arg = State.reset.arg := rfl
@[simp] theorem State.resetEngine_done (s : State) : s.resetEngine.done = State.reset.done := rfl
@[simp] theorem State.resetEngine_err (s : State) : s.resetEngine.err = State.reset.err := rfl
@[simp] theorem State.resetEngine_eq (s : State) : s.resetEngine.eq = State.reset.eq := rfl
@[simp] theorem State.resetEngine_accv (s : State) : s.resetEngine.accv = State.reset.accv := rfl
@[simp] theorem State.resetEngine_cmdovr (s : State) : s.resetEngine.cmdovr = State.reset.cmdovr := rfl
@[simp] theorem State.resetEngine_errcode (s : State) : s.resetEngine.errcode = State.reset.errcode := rfl
@[simp] theorem State.resetEngine_pklen (s : State) : s.resetEngine.pklen = State.reset.pklen := rfl
@[simp] theorem State.resetEngine_sklen (s : State) : s.resetEngine.sklen = State.reset.sklen := rfl
@[simp] theorem State.resetEngine_ctlen (s : State) : s.resetEngine.ctlen = State.reset.ctlen := rfl
@[simp] theorem State.resetEngine_s0len (s : State) : s.resetEngine.s0len = State.reset.s0len := rfl
@[simp] theorem State.resetEngine_s1len (s : State) : s.resetEngine.s1len = State.reset.s1len := rfl
@[simp] theorem State.resetEngine_mem (s : State) : s.resetEngine.mem = State.reset.mem := rfl
@[simp] theorem State.resetEngine_inputs (s : State) : s.resetEngine.inputs = s.inputs := rfl
@[simp] theorem State.resetEngine_response (s : State) : s.resetEngine.response = State.reset.response := rfl
@[simp] theorem State.resetEngine_entropy (s : State) : s.resetEngine.entropy = s.entropy := rfl
@[simp] theorem State.resetEngine_xef (s : State) : s.resetEngine.xef = s.xef := rfl

end Sys2Proof.Machine
end

