-- ==== Sys2Proof/Laws/Ops.lean ====
section
/-! SUPPORT. One lemma per shared operation that says what it can do: the checks, the draws, the operands, and the length and
the elements of what the data functions answer. -/

namespace Sys2Proof.Machine

/-! ## Checks and draws -/

@[simp] theorem State.require_true (s : State) (e : ErrorCode) (k : State) : s.require true e k = k := rfl

@[simp] theorem State.require_false (s : State) (e : ErrorCode) (k : State) : s.require false e k = s.raise e := rfl

theorem State.withParams_some {s : State} {p : Params} (h : s.params = some p) (k : Params → State) :
    s.withParams k = k p := by
  rw [State.withParams, h]

theorem State.params_none {s : State} (h : s.cfg.toNat % 4 = 3) : s.params = none := by
  simp [State.params, State.psel, h, paramsOf]

theorem State.withParams_none {s : State} (h : s.cfg.toNat % 4 = 3) (k : Params → State) :
    s.withParams k = s.failed 3 := by
  rw [State.withParams, State.params_none h]; rfl

/-- A selected parameter set is one of the three of R9. -/
theorem State.params_cases {s : State} {p : Params} (h : s.params = some p) :
    p = tiger128 ∨ p = tiger192 ∨ p = tiger256 := by
  unfold State.params paramsOf at h
  split at h <;> simp_all

theorem State.draw_ok {s : State} {ns : List Nat} {xs : List (List Byte)} {e : EntropyPort}
    (h : s.entropy.reads ns = (some xs, e)) (ok : List (List Byte) → State → State) (failed : State → State) :
    s.draw ns ok failed = ok xs { s with entropy := e } := by
  rw [State.draw, h]

theorem State.draw_fail {s : State} {ns : List Nat} {e : EntropyPort} (h : s.entropy.reads ns = (none, e))
    (ok : List (List Byte) → State → State) (failed : State → State) :
    s.draw ns ok failed = failed { s with entropy := e } := by
  rw [State.draw, h]

/-- What a draw can do: go on with the bytes, or fail; in both cases only the port has moved. -/
theorem State.draw_cases (s : State) (ns : List Nat) (ok : List (List Byte) → State → State) (failed : State → State) :
    (∃ xs e, s.entropy.reads ns = (some xs, e) ∧ s.draw ns ok failed = ok xs { s with entropy := e }) ∨
      (∃ e, s.entropy.reads ns = (none, e) ∧ s.draw ns ok failed = failed { s with entropy := e }) := by
  rcases h : s.entropy.reads ns with ⟨_ | xs, e⟩
  · exact .inr ⟨e, rfl, State.draw_fail h ok failed⟩
  · exact .inl ⟨xs, e, rfl, State.draw_ok h ok failed⟩

theorem EntropyPort.read_length {n : Nat} {e e' : EntropyPort} {y : List Byte} (h : e.read n = (some y, e')) :
    y.length = n := by
  induction n generalizing e e' y with
  | zero => simp [EntropyPort.read] at h; simp [← h.1]
  | succ n ih =>
    unfold EntropyPort.read at h
    split at h
    · simp at h
    · split at h
      · next hr => simp at h; rw [← h.1, List.length_cons, ih hr]
      · simp at h

theorem EntropyPort.reads_lengths {ns : List Nat} {e e' : EntropyPort} {xs : List (List Byte)}
    (h : e.reads ns = (some xs, e')) : xs.map List.length = ns := by
  induction ns generalizing e e' xs with
  | nil => simp [EntropyPort.reads] at h; simp [← h.1]
  | cons n ns ih =>
    unfold EntropyPort.reads at h
    split at h
    · simp at h
    · next hr =>
      split at h
      · next hrs => simp at h; rw [← h.1, List.map_cons, ih hrs, EntropyPort.read_length hr]
      · simp at h

/-! ## Byte strings and written ranges -/

@[simp] theorem fit_length (n : Nat) (x : List Byte) : (fit n x).length = n := by simp [fit]

theorem getD_fit (n : Nat) (x : List Byte) (k : Nat) (h : k < n) : (fit n x).getD k 0 = x.getD k 0 := by
  simp only [fit, List.getD_eq_getElem?_getD, List.getElem?_take, h, if_true, List.getElem?_append, List.getElem?_replicate]
  split
  · rfl
  · next hx => rw [List.getElem?_eq_none (by omega)]; split <;> rfl

/-- A string that fits is followed by zeros. -/
theorem fit_eq_append (n : Nat) (x : List Byte) (h : x.length ≤ n) : fit n x = x ++ List.replicate (n - x.length) 0 := by
  rw [fit, List.take_append]; simp [List.take_of_length_le h]

theorem fit_eq_self (n : Nat) (x : List Byte) (h : x.length = n) : fit n x = x := by
  rw [fit_eq_append n x (by omega)]; simp [h]

/-- Inside a fitted write stand the bytes, zeros after them. -/
theorem Memory.read_writeRange_fit (m : Memory) (base n : Nat) (x : List Byte) (k : Nat) (h : k < n) :
    (m.writeRange base (fit n x)).read (base + k) = x.getD k 0 := by
  rw [Memory.read_writeRange_in m base _ k (by simpa using h), getD_fit n x k h]

/-- Outside a fitted write every byte is unchanged. -/
theorem Memory.read_writeRange_fit_out (m : Memory) (base n : Nat) (x : List Byte) (a : Nat)
    (h : a < base ∨ base + n ≤ a) : (m.writeRange base (fit n x)).read a = m.read a :=
  Memory.read_writeRange_out m base _ a (by simpa using h)

theorem Memory.readRange_writeRange_fit (m : Memory) (base n : Nat) (x : List Byte) :
    (m.writeRange base (fit n x)).readRange base n = fit n x := by
  simpa using Memory.readRange_writeRange_same m base (fit n x)

@[simp] theorem leBytes_length (n v : Nat) : (leBytes n v).length = n := by
  induction n generalizing v with
  | zero => rfl
  | succ n ih => simp [leBytes, ih]

@[simp] theorem shake256_length (x : List Byte) (n : Nat) : (shake256 x n).length = n := by simp [shake256]

@[simp] theorem sha3_length (x : List Byte) : (sha3 x).length = 32 := by simp [sha3]

theorem getD_shake256 (x : List Byte) (n k : Nat) (h : k < n) : (shake256 x n).getD k 0 = Config.shake256Byte x k := by
  simp [shake256, List.getD_eq_getElem?_getD, h]

/-! ## Operands -/

@[simp] theorem State.readPoly_length (s : State) (r : PReg) (n : Nat) : (s.readPoly r n).length = n := by
  simp [State.readPoly]

@[simp] theorem State.readBytes_length (s : State) (r : BReg) (n : Nat) : (s.readBytes r n).length = n := by
  simp [State.readBytes]

@[simp] theorem State.readBuf_length (s : State) (b : Buffer) (n : Nat) : (s.readBuf b n).length = n := by
  simp [State.readBuf]

theorem State.getD_readPoly (s : State) (r : PReg) (n k : Nat) (h : k < n) :
    (s.readPoly r n).getD k 0 = s.mem.read (r.base + k) := Memory.getD_readRange s.mem r.base n k h

theorem State.getD_readBytes (s : State) (r : BReg) (n k : Nat) (h : k < n) :
    (s.readBytes r n).getD k 0 = s.mem.read (r.base + k) := Memory.getD_readRange s.mem r.base n k h

theorem State.readSparse_length (s : State) (r : SReg) (n : Nat) (h : s.sparseLen r ≤ 1024) :
    (s.readSparse r n).length = s.sparseLen r := by
  simp [State.readSparse, sMax, h]

/-! ## Lengths of what the data functions answer -/

@[simp] theorem polyAdd_length (a b : List Byte) : (polyAdd a b).length = min a.length b.length := by simp [polyAdd]

@[simp] theorem polySub_length (a b : List Byte) : (polySub a b).length = min a.length b.length := by simp [polySub]

@[simp] theorem polyNeg_length (a : List Byte) : (polyNeg a).length = a.length := by simp [polyNeg]

@[simp] theorem polyScale_length (a : List Byte) (f : Byte) : (polyScale a f).length = a.length := by simp [polyScale]

@[simp] theorem scaleRound_length (a : List Byte) (num den : Nat) : (scaleRound a num den).length = a.length := by
  simp [scaleRound]

@[simp] theorem mulSchool_length (a b : List Byte) : (mulSchool a b).length = a.length := by simp [mulSchool]

@[simp] theorem rotate_length (d : List Byte) (j : Nat) : (rotate d j).length = d.length := by
  simp [rotate]

@[simp] theorem mulSparse_length (d : List Byte) (s : List Term) : (mulSparse d s).length = d.length := by
  have key : ∀ (l : List Term) (acc : List Byte), acc.length = d.length →
      (l.foldl (fun acc t => polyAdd acc ((rotate d t.idx).map t.sgn.apply)) acc).length = d.length := by
    intro l
    induction l with
    | nil => intro acc h; exact h
    | cons t l ih => intro acc h; exact ih _ (by simp [h])
  exact key s _ (by simp)

@[simp] theorem fromSparse_length (n : Nat) (s : List Term) : (fromSparse n s).length = n := by
  have key : ∀ (l : List Term) (a : List Byte), a.length = n →
      (l.foldl (fun a t => a.set t.idx t.sgn.coeff) a).length = n := by
    intro l
    induction l with
    | nil => intro a h; exact h
    | cons t l ih => intro a h; exact ih _ (by simpa using h)
  exact key s _ (by simp)

@[simp] theorem sampleSparse_length (seed : List Byte) (n h : Nat) : (sampleSparse seed n h).length = h := by
  simp [sampleSparse, sampleFrom]

@[simp] theorem uniformPoly_length (seed : List Byte) (n : Nat) : (uniformPoly seed n).length = n := by simp [uniformPoly]

@[simp] theorem compress_length (a : List Byte) (l : Nat) : (compress a l).length = a.length * l / 8 := by simp [compress]

@[simp] theorem unpackNat_length (l n v : Nat) : (unpackNat l n v).length = n := by
  induction n generalizing v with
  | zero => rfl
  | succ n ih => simp [unpackNat, ih]

@[simp] theorem decompress_length (x : List Byte) (n l : Nat) : (decompress x n l).length = n := by simp [decompress]

@[simp] theorem d2Encode_length (c : List Bool) (n : Nat) : (d2Encode c n).length = n := by
  simp only [d2Encode, List.length_take, List.length_append, List.length_replicate]; omega

@[simp] theorem d2Decode_length (a : List Byte) (n : Nat) : (d2Decode a n).length = n := by simp [d2Decode]

/-! ## The three step forms -/

theorem step_nil {s : State} (h : s.inputs = []) : step s = engineTurn s := by rw [step, h]

theorem step_cons {s : State} {e : Event} {rest : List Event} (h : s.inputs = e :: rest) :
    step s = deliver e { s with inputs := rest } := by rw [step, h]

theorem engineTurn_idle {s : State} (h : s.run = .idle) : engineTurn s = .next s := by rw [engineTurn, h]

theorem engineTurn_busy {s : State} {i : Instr} (h : s.run = .busy) (hd : decode s.cmd = .ok i) :
    engineTurn s = exec i s := by
  rw [engineTurn, h]; simp only [hd]

theorem engineTurn_illegal {s : State} {e : DecodeError} (h : s.run = .busy) (hd : decode s.cmd = .error e) :
    engineTurn s = .next (s.raise .illcmd) := by
  rw [engineTurn, h]; simp only [hd]

end Sys2Proof.Machine
end

