-- ==== Sys2Proof/Laws/Bits.lean ====
section
/-! SUPPORT. The bits of byte strings, of the packer, and of the codes: which bit of the result is which bit of the
argument. -/

namespace Sys2Proof.Machine

/-! ## Little-endian numbers -/

theorem testBit_add_mul {l x v : Nat} (k : Nat) (h : x < 2 ^ l) :
    (x + 2 ^ l * v).testBit k = if k < l then x.testBit k else v.testBit (k - l) := by
  rw [Nat.add_comm, Nat.testBit_two_pow_mul_add v h]

theorem testBit_leNat (x : List Byte) (k : Nat) : (leNat x).testBit k = (x.getD (k / 8) 0).getLsbD (k % 8) := by
  induction x generalizing k with
  | nil => simp [leNat]
  | cons b x ih =>
    rw [leNat, show (256 : Nat) = 2 ^ 8 from rfl, testBit_add_mul k b.isLt]
    split
    · next h => rw [Nat.div_eq_of_lt h, Nat.mod_eq_of_lt h]; rfl
    · next h =>
      have e : k / 8 = (k - 8) / 8 + 1 := by omega
      have f : k % 8 = (k - 8) % 8 := by omega
      rw [ih, e, f, List.getD_cons_succ]

theorem getD_leBytes (n v k : Nat) (h : k < n) : (leBytes n v).getD k 0 = BitVec.ofNat 8 (v / 2 ^ (8 * k)) := by
  induction n generalizing v k with
  | zero => omega
  | succ n ih =>
    cases k with
    | zero => simp [leBytes]
    | succ k =>
      rw [leBytes, List.getD_cons_succ, ih _ _ (by omega), Nat.div_div_eq_div_mul, ← Nat.pow_add 2 8]
      congr 3; omega

/-- Bit `j` of byte `k` of a number's bytes. -/
theorem bit_leBytes (n v k j : Nat) (hk : k < n) (hj : j < 8) :
    ((leBytes n v).getD k 0).getLsbD j = v.testBit (8 * k + j) := by
  rw [getD_leBytes n v k hk, BitVec.getLsbD_ofNat, Nat.testBit_div_two_pow]
  simp [hj, Nat.add_comm]

theorem leBytes_leNat (x : List Byte) : leBytes x.length (leNat x) = x := by
  induction x with
  | nil => rfl
  | cons b x ih =>
    have h : (b.toNat + 256 * leNat x) / 256 = leNat x := by have := b.isLt; omega
    rw [List.length_cons, leBytes, leNat, h, ih]
    congr 1
    apply BitVec.eq_of_toNat_eq
    have := b.isLt
    simp only [BitVec.toNat_ofNat]; omega

theorem leNat_leBytes (n v : Nat) (h : v < 256 ^ n) : leNat (leBytes n v) = v := by
  induction n generalizing v with
  | zero => simp at h; simp [leBytes, leNat, h]
  | succ n ih =>
    rw [leBytes, leNat, ih _ (by rw [Nat.pow_succ] at h; omega)]
    simp only [BitVec.toNat_ofNat]; omega

/-! ## The packer (R186, R187) -/

/-- Bit `k` of the packed stream is bit `8 − l + (k mod l)` of coefficient `k div l` (R186). -/
theorem testBit_packNat (l : Nat) (hl : 1 ≤ l) (h8 : l ≤ 8) (a : List Byte) (k : Nat) :
    (packNat l a).testBit k = (a.getD (k / l) 0).getLsbD (8 - l + k % l) := by
  induction a generalizing k with
  | nil => simp [packNat]
  | cons x a ih =>
    have hx : x.toNat / 2 ^ (8 - l) < 2 ^ l := by
      rw [Nat.div_lt_iff_lt_mul (by positivity), ← Nat.pow_add, show l + (8 - l) = 8 by omega]
      exact x.isLt
    rw [packNat, testBit_add_mul k hx]
    split
    · next h =>
      rw [Nat.div_eq_of_lt h, Nat.mod_eq_of_lt h, List.getD_cons_zero, Nat.testBit_div_two_pow, Nat.add_comm]; rfl
    · next h =>
      have hk : k = (k - l) + l := by omega
      have e : k / l = (k - l) / l + 1 := by conv_lhs => rw [hk, Nat.add_div_right _ (by omega)]
      have f : k % l = (k - l) % l := by conv_lhs => rw [hk, Nat.add_mod_right]
      rw [ih, e, f, List.getD_cons_succ]

theorem packNat_lt (l : Nat) (h8 : l ≤ 8) (a : List Byte) : packNat l a < 2 ^ (a.length * l) := by
  induction a with
  | nil => simp [packNat]
  | cons x a ih =>
    have hx : x.toNat / 2 ^ (8 - l) < 2 ^ l := by
      rw [Nat.div_lt_iff_lt_mul (by positivity), ← Nat.pow_add, show l + (8 - l) = 8 by omega]
      exact x.isLt
    rw [packNat, List.length_cons, Nat.add_mul, Nat.one_mul, Nat.pow_add]
    calc x.toNat / 2 ^ (8 - l) + 2 ^ l * packNat l a < 2 ^ l * (packNat l a + 1) := by rw [Nat.mul_add]; omega
      _ ≤ 2 ^ l * 2 ^ (a.length * l) := Nat.mul_le_mul_left _ ih
      _ = _ := Nat.mul_comm _ _

/-- Bit `k` of the packed string. -/
theorem bit_compress (a : List Byte) (l k : Nat) (hl : 1 ≤ l) (h8 : l ≤ 8) (hk : k / 8 < a.length * l / 8) :
    ((compress a l).getD (k / 8) 0).getLsbD (k % 8) = (a.getD (k / l) 0).getLsbD (8 - l + k % l) := by
  rw [compress, bit_leBytes _ _ _ _ hk (Nat.mod_lt _ (by omega)), Nat.div_add_mod, testBit_packNat l hl h8]

theorem getD_unpackNat (l n v i : Nat) (h : i < n) :
    (unpackNat l n v).getD i 0 = BitVec.ofNat 8 (v / 2 ^ (i * l) % 2 ^ l * 2 ^ (8 - l)) := by
  induction n generalizing v i with
  | zero => omega
  | succ n ih =>
    cases i with
    | zero => simp [unpackNat]
    | succ i =>
      rw [unpackNat, List.getD_cons_succ, ih _ _ (by omega), Nat.div_div_eq_div_mul, ← Nat.pow_add]
      congr 5; ring

/-- Bit `8 − l + u` of an unpacked coefficient is bit `i·l + u` of the stream (R187). -/
theorem bit_decompress_high (x : List Byte) (n l i u : Nat) (h8 : l ≤ 8) (hi : i < n) (hu : u < l) :
    ((decompress x n l).getD i 0).getLsbD (8 - l + u) = (x.getD ((i * l + u) / 8) 0).getLsbD ((i * l + u) % 8) := by
  rw [decompress, getD_unpackNat _ _ _ _ hi, BitVec.getLsbD_ofNat, Nat.testBit_mul_two_pow, Nat.testBit_mod_two_pow,
    Nat.testBit_div_two_pow, ← testBit_leNat]
  have e1 : 8 - l + u - (8 - l) = u := by omega
  have e2 : 8 - l + u < 8 := by omega
  rw [e1]; simp only [hu, e2, decide_true, Bool.true_and, Nat.le_add_right, Nat.add_comm (i * l)]

/-- The low `8 − l` bits of an unpacked coefficient are 0 (R187). -/
theorem bit_decompress_low (x : List Byte) (n l i u : Nat) (hi : i < n) (hu : u < 8 - l) :
    ((decompress x n l).getD i 0).getLsbD u = false := by
  rw [decompress, getD_unpackNat _ _ _ _ hi, BitVec.getLsbD_ofNat, Nat.testBit_mul_two_pow]
  simp; omega

/-! ## Bit strings (R13) -/

@[simp] theorem bitsOfByte_length (b : Byte) : (bitsOfByte b).length = 8 := rfl

theorem getD_bitsOfByte (b : Byte) (j : Nat) (h : j < 8) : (bitsOfByte b).getD j false = b.getLsbD (7 - j) := by
  match j, h with
  | 0, _ | 1, _ | 2, _ | 3, _ | 4, _ | 5, _ | 6, _ | 7, _ => rfl

theorem bitsOf_flat_length (x : List Byte) : (x.flatMap bitsOfByte).length = 8 * x.length := by
  induction x with
  | nil => rfl
  | cons b x ih => rw [List.flatMap_cons, List.length_append, ih, bitsOfByte_length, List.length_cons]; omega

theorem bitsOf_flat_getD (x : List Byte) (i : Nat) :
    (x.flatMap bitsOfByte).getD i false = (x.getD (i / 8) 0).getLsbD (7 - i % 8) := by
  induction x generalizing i with
  | nil => simp
  | cons b x ih =>
    rw [List.flatMap_cons]
    by_cases h : i < 8
    · rw [List.getD_append _ _ _ _ (by simpa using h), getD_bitsOfByte b i h, Nat.div_eq_of_lt h, Nat.mod_eq_of_lt h]; rfl
    · rw [List.getD_append_right _ _ _ _ (by simpa using Nat.le_of_not_lt h), bitsOfByte_length, ih]
      have e : i / 8 = (i - 8) / 8 + 1 := by omega
      have f : i % 8 = (i - 8) % 8 := by omega
      rw [e, f, List.getD_cons_succ]

theorem bitsOf_length (x : List Byte) (n : Nat) (h : n ≤ 8 * x.length) : (bitsOf x n).length = n := by
  rw [bitsOf, List.length_take, bitsOf_flat_length]; omega

/-- Bit `i` of `BitsOf` (R13). -/
theorem getD_bitsOf (x : List Byte) (n i : Nat) (h : i < n) :
    (bitsOf x n).getD i false = (x.getD (i / 8) 0).getLsbD (7 - i % 8) := by
  rw [← bitsOf_flat_getD, bitsOf]
  simp only [List.getD_eq_getElem?_getD, List.getElem?_take, h, if_true]

/-- The bits of a string of the window are the bits `BitOf` counts. -/
theorem bitsOf_readRange (s : State) (base n m : Nat) (h : n ≤ 8 * m) :
    bitsOf (s.mem.readRange base m) n = (List.range n).map (s.bitAt base) := by
  apply List.ext_getElem (by rw [bitsOf_length _ _ (by simpa using h)]; simp)
  intro i h1 h2
  have hi : i < n := by simpa using h2
  have := getD_bitsOf (s.mem.readRange base m) n i hi
  rw [List.getD_eq_getElem _ _ h1, Memory.getD_readRange _ _ _ _ (by omega)] at this
  rw [this]; simp [State.bitAt]

theorem bit_byteOfBits (a b c d e f g h : Bool) (j : Nat) (hj : j < 8) :
    (byteOfBits [a, b, c, d, e, f, g, h]).getLsbD (7 - j) = [a, b, c, d, e, f, g, h].getD j false := by
  match j, hj with
  | 0, _ | 1, _ | 2, _ | 3, _ | 4, _ | 5, _ | 6, _ | 7, _ =>
    revert a b c d e f g h; decide

theorem bytesOf_length (l : List Bool) : (bytesOf l).length = l.length / 8 := by
  induction l using bytesOf.induct with
  | case1 a b c d e f g h rest ih => rw [bytesOf, List.length_cons, ih]; simp only [List.length_cons]; omega
  | case2 l hl =>
    rw [bytesOf]
    · match l, hl with
      | [], _ | [_], _ | [_, _], _ | [_, _, _], _ | [_, _, _, _], _ | [_, _, _, _, _], _ | [_, _, _, _, _, _], _
      | [_, _, _, _, _, _, _], _ => simp
      | a :: b :: c :: d :: e :: f :: g :: h :: rest, hl => exact absurd rfl (hl a b c d e f g h rest)
    · exact hl

/-- Bit `i` of `BytesOf` (R13). -/
theorem bit_bytesOf (l : List Bool) (i : Nat) (h : i / 8 < l.length / 8) :
    ((bytesOf l).getD (i / 8) 0).getLsbD (7 - i % 8) = l.getD i false := by
  induction l using bytesOf.induct generalizing i with
  | case1 a b c d e f g h' rest ih =>
    rw [bytesOf]
    by_cases hi : i < 8
    · rw [Nat.div_eq_of_lt hi, Nat.mod_eq_of_lt hi, List.getD_cons_zero, bit_byteOfBits _ _ _ _ _ _ _ _ i hi]
      match i, hi with
      | 0, _ | 1, _ | 2, _ | 3, _ | 4, _ | 5, _ | 6, _ | 7, _ => rfl
    · have e1 : i / 8 = (i - 8) / 8 + 1 := by omega
      have e2 : i % 8 = (i - 8) % 8 := by omega
      rw [e1, e2, List.getD_cons_succ, ih (i - 8) (by simp only [List.length_cons] at h; omega)]
      obtain ⟨j, rfl⟩ : ∃ j, i = j + 8 := ⟨i - 8, by omega⟩
      rfl
  | case2 l hl =>
    exfalso
    match l, hl with
    | [], _ | [_], _ | [_, _], _ | [_, _, _], _ | [_, _, _, _], _ | [_, _, _, _, _], _ | [_, _, _, _, _, _], _
    | [_, _, _, _, _, _, _], _ => simp at h
    | a :: b :: c :: d :: e :: f :: g :: h :: rest, hl => exact absurd rfl (hl a b c d e f g h rest)

/-- `BytesOf` undoes `BitsOf` (R13). -/
theorem bytesOf_bitsOf (x : List Byte) : bytesOf (bitsOf x (8 * x.length)) = x := by
  rw [bitsOf, List.take_of_length_le (by rw [bitsOf_flat_length])]
  induction x with
  | nil => rfl
  | cons b x ih =>
    rw [List.flatMap_cons]
    show byteOfBits [b.getLsbD 7, b.getLsbD 6, b.getLsbD 5, b.getLsbD 4, b.getLsbD 3, b.getLsbD 2, b.getLsbD 1, b.getLsbD 0] ::
      bytesOf (x.flatMap bitsOfByte) = b :: x
    rw [ih]
    congr 1
    revert b; decide +kernel

/-! ## The codes (R166, R169, R170, R174) -/

theorem xefParity_length (d f : Nat) (m : List Bool) : (xefParity d f m).length = d := by
  rw [xefParity, List.length_take, List.length_append, List.length_replicate]; omega

theorem xefEncode_length (code : XefCode) (d f : Nat) (m : List Bool) : (xefEncode code d f m).length = m.length + d := by
  cases code
  · simp [xefEncode, xefDefaultEncode, xefParity_length]
  · rw [xefEncode]; split <;> simp [xefOfferedEncode, xefDefaultEncode, xefParity_length]

theorem xefDecode_length (code : XefCode) (d f : Nat) (cw : List Bool) (h : d ≤ cw.length) :
    (xefDecode code d f cw).length = d := by
  cases code
  · simp [xefDecode, xefDefaultDecode, h]
  · rw [xefDecode]; split <;> simp [xefOfferedDecode, xefDefaultDecode, h]

theorem mem_allBits (b : List Bool) : b ∈ allBits b.length := by
  induction b with
  | nil => exact List.mem_singleton.2 rfl
  | cons x b ih =>
    rw [List.length_cons, allBits, List.mem_flatMap]
    exact ⟨b, ih, by cases x <;> simp⟩

/-- What an external code is: functions that correct up to `f` errors, or `XEF_DEFAULT` (R167; log 8). -/
theorem xef_external_cases (d f : Nat) :
    ((∀ m, xefEncode .external d f m = xefOfferedEncode d f m) ∧
      (∀ w, xefDecode .external d f w = xefOfferedDecode d f w) ∧
      ∀ m e : List Bool, m.length = d → e.length = 2 * d → e.count true ≤ f →
        xefOfferedDecode d f (xorBits (xefOfferedEncode d f m) e) = m) ∨
    ((∀ m, xefEncode .external d f m = xefEncode .xefDefault d f m) ∧
      ∀ w, xefDecode .external d f w = xefDecode .xefDefault d f w) := by
  cases h : xefOfferedCorrects d f with
  | false => exact .inr ⟨fun m => by simp [xefEncode, h], fun w => by simp [xefDecode, h]⟩
  | true =>
    refine .inl ⟨fun m => by simp [xefEncode, h], fun w => by simp [xefDecode, h], fun m e hm he hw => ?_⟩
    rw [xefOfferedCorrects, List.all_eq_true] at h
    have h1 := h m (hm ▸ mem_allBits m)
    rw [List.all_eq_true] at h1
    have h2 := h1 e (he ▸ mem_allBits e)
    simpa [Nat.not_lt.2 hw] using h2

/-- Coefficients `2i` and `2i + 1` of `D2Encode` (R174). -/
theorem getD_d2Encode (c : List Bool) (n k : Nat) (h : k < n) :
    (d2Encode c n).getD k 0 = if k < 2 * c.length then d2Amplitude (c.getD (k / 2) false) else 0 := by
  have flat : ∀ (c : List Bool) (k : Nat), (c.flatMap fun b => [d2Amplitude b, d2Amplitude b])[k]? =
      if k < 2 * c.length then some (d2Amplitude (c.getD (k / 2) false)) else none := by
    intro c
    induction c with
    | nil => simp
    | cons b c ih =>
      intro k
      rw [List.flatMap_cons]
      match k with
      | 0 => simp
      | 1 => simp; omega
      | k + 2 =>
        have e : (k + 2) / 2 = k / 2 + 1 := by omega
        rw [e, List.getD_cons_succ, show ([d2Amplitude b, d2Amplitude b] ++ c.flatMap fun b => [d2Amplitude b, d2Amplitude b])[k + 2]? =
          (c.flatMap fun b => [d2Amplitude b, d2Amplitude b])[k]? from rfl, ih]
        simp only [List.length_cons]
        congr 1; simp; omega
  have len : (c.flatMap fun b => [d2Amplitude b, d2Amplitude b]).length = 2 * c.length := by
    induction c with
    | nil => rfl
    | cons b c ih => rw [List.flatMap_cons, List.length_append, ih]; simp; omega
  simp only [d2Encode, List.getD_eq_getElem?_getD, List.getElem?_take, h, if_true, List.getElem?_append, len, flat,
    List.getElem?_replicate]
  split
  · simp
  · split <;> simp

end Sys2Proof.Machine
end

