-- ==== Sys2Proof/Laws/Commands.lean ====
section
/-! SUPPORT. What a command's end looks like: one destination written and completed, two buffers written, a sparse register
written, a comparison recorded; the operand ranges as propositions; the parameter sets' sizes; the encoded word as a number. -/

namespace Sys2Proof

theorem PReg.num_lt (r : PReg) : r.num < 16 := by cases r <;> decide

theorem SReg.num_lt (r : SReg) : r.num < 16 := by cases r <;> decide

theorem BReg.num_lt (r : BReg) : r.num < 16 := by cases r <;> decide

/-- A command word as a number, field by field (R90). -/
theorem commandWord_toNat (opc rd ra rb imm : Nat) (ho : opc < 256) (hd : rd < 16) (ha : ra < 16) (hb : rb < 16)
    (hi : imm < 4096) :
    (commandWord opc rd ra rb imm).toNat = opc * 2 ^ 24 + rd * 2 ^ 20 + ra * 2 ^ 16 + rb * 2 ^ 12 + imm := by
  simp only [commandWord, BitVec.toNat_ofNat]; apply Nat.mod_eq_of_lt; omega

namespace Machine

/-! ## One destination -/

/-- A command that writes one range and completes changes nothing else. -/
theorem completesIn_fit (s : State) (base n : Nat) (x : List Byte) :
    CompletesIn s (s.writeAt base (fit n x)).complete [(base, n)] := by
  refine ⟨rfl, fun a h => ?_⟩
  exact Memory.read_writeRange_fit_out _ _ _ _ _ (h (base, n) (by simp))

theorem read_fit (s : State) (base n : Nat) (x : List Byte) (k : Nat) (h : k < n) :
    (s.writeAt base (fit n x)).complete.mem.read (base + k) = x.getD k 0 := Memory.read_writeRange_fit _ _ _ _ _ h

theorem read_fit_zero (s : State) (base n : Nat) (x : List Byte) (k : Nat) (h : x.length ≤ k) (hk : k < n) :
    (s.writeAt base (fit n x)).complete.mem.read (base + k) = 0 := by
  rw [read_fit _ _ _ _ _ hk, List.getD_eq_default _ _ h]

theorem bitAt_fit (s : State) (base n : Nat) (x : List Byte) (i : Nat) (h : i / 8 < n) :
    (s.writeAt base (fit n x)).complete.bitAt base i = (x.getD (i / 8) 0).getLsbD (7 - i % 8) := by
  unfold State.bitAt
  rw [read_fit _ _ _ _ _ h]

/-! ## Two destinations -/

/-- Two disjoint ranges written: each reads back, everything else is unchanged. -/
theorem Memory.two_writes (m : Memory) (b1 n1 b2 n2 : Nat) (x y : List Byte) (h : b1 + n1 ≤ b2 ∨ b2 + n2 ≤ b1) :
    ((m.writeRange b1 (fit n1 x)).writeRange b2 (fit n2 y)).readRange b1 n1 = fit n1 x ∧
    ((m.writeRange b1 (fit n1 x)).writeRange b2 (fit n2 y)).readRange b2 n2 = fit n2 y ∧
    ∀ a, (∀ r ∈ [(b1, n1), (b2, n2)], a < r.1 ∨ r.1 + r.2 ≤ a) →
      ((m.writeRange b1 (fit n1 x)).writeRange b2 (fit n2 y)).read a = m.read a := by
  refine ⟨?_, Memory.readRange_writeRange_fit _ _ _ _, fun a h => ?_⟩
  · rw [Memory.readRange_writeRange_disjoint _ _ _ _ _ (by simpa using h), Memory.readRange_writeRange_fit]
  · rw [Memory.read_writeRange_fit_out _ _ _ _ _ (h (b2, n2) (by simp)),
      Memory.read_writeRange_fit_out _ _ _ _ _ (h (b1, n1) (by simp))]

theorem fit_nil (n : Nat) : fit n [] = List.replicate n 0 := by simp [fit]

theorem Buffer.base_ssbuf : Buffer.ssbuf.base = 0x0100 := rfl
theorem Buffer.base_msgbuf : Buffer.msgbuf.base = 0x0120 := rfl
theorem Buffer.base_pkbuf : Buffer.pkbuf.base = 0x0400 := rfl
theorem Buffer.base_skbuf : Buffer.skbuf.base = 0x0800 := rfl
theorem Buffer.base_ctbuf : Buffer.ctbuf.base = 0x1000 := rfl
theorem Buffer.base_xbuf : Buffer.xbuf.base = 0x1800 := rfl
theorem Buffer.size_ssbuf : Buffer.ssbuf.size = 32 := rfl
theorem Buffer.size_msgbuf : Buffer.msgbuf.size = 32 := rfl
theorem Buffer.size_pkbuf : Buffer.pkbuf.size = 928 := rfl
theorem Buffer.size_skbuf : Buffer.skbuf.size = 1056 := rfl
theorem Buffer.size_ctbuf : Buffer.ctbuf.size = 1792 := rfl
theorem Buffer.size_xbuf : Buffer.xbuf.size = 1792 := rfl

/-- What a failed key generation leaves (R246). -/
theorem State.noKeys_eq (s : State) : s.noKeys = { s with
    mem := (s.mem.writeRange Buffer.pkbuf.base (fit Buffer.pkbuf.size [])).writeRange Buffer.skbuf.base
      (fit Buffer.skbuf.size [])
    pklen := 0, sklen := 0 } := rfl

/-- A key pair written. -/
theorem State.writePk_writeSk_eq (s : State) (x y : List Byte) : (s.writePk x).writeSk y = { s with
    mem := (s.mem.writeRange Buffer.pkbuf.base (fit Buffer.pkbuf.size x)).writeRange Buffer.skbuf.base
      (fit Buffer.skbuf.size y)
    pklen := BitVec.ofNat 11 x.length, sklen := BitVec.ofNat 11 y.length } := rfl

/-- A ciphertext and a shared secret written. -/
theorem State.writeCt_writeSs_eq (s : State) (x y : List Byte) : (s.writeCt x).writeBuf .ssbuf y = { s with
    mem := (s.mem.writeRange Buffer.ctbuf.base (fit Buffer.ctbuf.size x)).writeRange Buffer.ssbuf.base
      (fit Buffer.ssbuf.size y)
    ctlen := BitVec.ofNat 11 x.length } := rfl

/-! ## A sparse destination -/

theorem getD_flatMap_slotBytes (l : List Term) (m : Nat) : (l.flatMap slotBytes).getD m 0 =
    if h : m / 2 < l.length then (slotBytes l[m / 2]).getD (m % 2) 0 else 0 := by
  induction l generalizing m with
  | nil => simp
  | cons t l ih =>
    rw [List.flatMap_cons]
    match m with
    | 0 => simp [slotBytes]
    | 1 => simp [slotBytes]
    | m + 2 =>
      have e : (m + 2) / 2 = m / 2 + 1 := by omega
      have e2 : (m + 2) % 2 = m % 2 := by omega
      rw [show (slotBytes t ++ List.flatMap slotBytes l).getD (m + 2) 0 = (List.flatMap slotBytes l).getD m 0 from rfl, ih]
      simp only [e, e2, List.length_cons, List.getElem_cons_succ]
      by_cases h : m / 2 < l.length
      · rw [dif_pos h, dif_pos (by omega)]
      · rw [dif_neg h, dif_neg (by omega)]

theorem slotBytes_low (t : Term) : (slotBytes t).getD 0 0 = BitVec.ofNat 8 t.idx := rfl

theorem slotBytes_high (i : Nat) (hi : i < 1024) (σ : Sign) :
    (slotBytes ⟨i, σ⟩).getD 1 0 = BitVec.ofNat 8 (i / 256) ||| if σ = .minus then 0x80 else 0 := by
  have : ∀ x : Fin 4, BitVec.ofNat 8 (x.val % 4 + 128) = BitVec.ofNat 8 x.val ||| 0x80 ∧
      BitVec.ofNat 8 (x.val % 4 + 0) = BitVec.ofNat 8 x.val ||| 0 := by decide
  have := this ⟨i / 256, by omega⟩
  cases σ
  · exact this.2
  · exact this.1

/-- A slot read as its 16-bit entry `e`: the index is `e[9:0]` modulo `n`, the sign is minus iff `e[15]` (R22). -/
theorem slotTerm_entry (n : Nat) (lo hi : Byte) :
    (slotTerm n lo hi).idx = (lo.toNat + 256 * hi.toNat) % 1024 % n ∧
    (slotTerm n lo hi).sgn = if (lo.toNat + 256 * hi.toNat) / 2 ^ 15 % 2 = 1 then .minus else .plus := by
  have hl := lo.isLt
  have hb : hi.getLsbD 7 = decide (hi.toNat / 128 % 2 = 1) := by
    rw [BitVec.getLsbD, Nat.testBit_eq_decide_div_mod_eq]
  refine ⟨?_, ?_⟩
  · show (lo.toNat + 256 * (hi.toNat % 4)) % n = _
    congr 1; omega
  · show (if hi.getLsbD 7 then Sign.minus else .plus) = _
    rw [hb, show (lo.toNat + 256 * hi.toNat) / 2 ^ 15 = hi.toNat / 128 by omega]
    split <;> split <;> simp_all

/-- A sparse register written and the command completed: its length, its slots, and nothing else. -/
theorem writeSparse_complete (s : State) (d : SReg) (l : List Term) (hl : l.length ≤ 1024) :
    (s.writeSparse d l).complete = { s with
      run := .idle, done := true, mem := (s.writeSparse d l).complete.mem
      s0len := (s.writeSparse d l).complete.s0len, s1len := (s.writeSparse d l).complete.s1len } ∧
    (∀ r, (s.writeSparse d l).complete.sparseLen r = if r = d then l.length else s.sparseLen r) ∧
    SameOutside s (s.writeSparse d l).complete [(d.base, 2048)] ∧
    ∀ m, m < 2048 → (s.writeSparse d l).complete.mem.read (d.base + m) = (l.flatMap slotBytes).getD m 0 := by
  have e : (s.writeSparse d l).complete.mem = s.mem.writeRange d.base (fit (2 * sMax) (l.flatMap slotBytes)) := by
    cases d <;> rfl
  refine ⟨by cases d <;> rfl, fun r => ?_, fun a h => ?_, fun m hm => ?_⟩
  · have : (BitVec.ofNat 11 l.length).toNat = l.length := by simp; omega
    cases r <;> cases d <;> first | exact this | rfl
  · rw [e]; exact Memory.read_writeRange_fit_out _ _ _ _ _ (h (d.base, 2048) (by simp))
  · rw [e]; exact Memory.read_writeRange_fit _ _ _ _ _ hm

/-! ## Comparison and selection (R195, R197) -/

theorem foldl_or_zipWith_xor (x y : List Byte) (h : x.length = y.length) (acc : Byte) :
    (List.zipWith (fun a b => a ^^^ b) x y).foldl (fun acc v => acc ||| v) acc = 0 ↔ acc = 0 ∧ x = y := by
  induction x generalizing y acc with
  | nil => cases y <;> simp_all
  | cons a x ih =>
    cases y with
    | nil => simp at h
    | cons b y =>
      have e1 : ∀ p q : Byte, p ||| q = 0 ↔ p = 0 ∧ q = 0 := fun p q => BitVec.or_eq_zero_iff
      have e2 : ∀ p q : Byte, p ^^^ q = 0 ↔ p = q := fun p q => BitVec.xor_eq_zero_iff
      simp only [List.zipWith_cons_cons, List.foldl_cons]
      rw [ih y (by simpa using h), e1, e2]
      simp [and_assoc]

/-- The comparator's mask is 0xFF exactly on equal strings (R195). -/
theorem ctEqual_eq (x y : List Byte) (h : x.length = y.length) : ctEqual x y = if x = y then 0xFF else 0x00 := by
  unfold ctEqual
  have := foldl_or_zipWith_xor x y h 0
  simp only [true_and] at this
  by_cases hxy : x = y
  · rw [if_pos (this.2 hxy), if_pos hxy]
  · rw [if_neg (fun q => hxy (this.1 q)), if_neg hxy]

theorem Memory.readRange_eq_iff (m : Memory) (a b n : Nat) :
    m.readRange a n = m.readRange b n ↔ ∀ k, k < n → m.read (a + k) = m.read (b + k) := by
  simp [Memory.readRange, List.map_inj_left]

/-- `select` with the mask 0xFF is its first string (R197). -/
theorem select_ones (x y : List Byte) (h : x.length = y.length) : select 0xFF x y = x := by
  apply List.ext_getElem (by simp [select, h])
  intro i h1 h2
  simp only [select, List.getElem_zipWith]
  generalize x[i] = a, y[i]'_ = b
  show 0xFF#8 &&& a ||| (0xFF#8 ^^^ 0xFF#8) &&& b = a
  simp; apply BitVec.eq_of_getLsbD_eq; intro i hi; simp; intro _; interval_cases i <;> decide

/-- `select` with the mask 0 is its second string (R197). -/
theorem select_zero (x y : List Byte) (h : x.length = y.length) : select 0x00 x y = y := by
  apply List.ext_getElem (by simp [select, h])
  intro i h1 h2
  simp only [select, List.getElem_zipWith]
  generalize x[i]'_ = a, y[i]'_ = b
  show 0#8 &&& a ||| (0#8 ^^^ 0xFF#8) &&& b = b
  simp; apply BitVec.eq_of_getLsbD_eq; intro i hi; simp; intro _; interval_cases i <;> decide

/-! ## Ranges and sizes -/

theorem psrndRange_eq (ln ld : Nat) : psrndRange ln ld = decide (1 ≤ ld ∧ ld ≤ 8 ∧ ln ≤ ld) := by
  rw [psrndRange, ← Bool.decide_and, ← Bool.decide_and]; simp only [and_assoc]

theorem countRange_eq (n : Nat) : countRange n = decide (1 ≤ n ∧ n ≤ 64) := by rw [countRange, ← Bool.decide_and]

theorem State.packRange_eq (s : State) (n l : Nat) :
    s.packRange n l = decide (1 ≤ l ∧ l ≤ 8 ∧ s.arg.toNat / 4096 = 0 ∧ s.arg.toNat % 4096 + n * l / 8 ≤ 1792) := by
  show (decide (1 ≤ l) && decide (l ≤ 8) && decide (s.arg.toNat / 4096 = 0) &&
    decide (s.arg.toNat % 4096 + n * l / 8 ≤ 1792)) = _
  rw [← Bool.decide_and, ← Bool.decide_and, ← Bool.decide_and]
  simp only [and_assoc]

/-- The relations between the numbers of a selected parameter set that commands use (R8, R9). -/
theorem State.params_bits {s : State} {p : Params} (h : s.params = some p) :
    8 * p.msgBytes = p.d ∧ 8 * p.cwBytes = 2 * p.d ∧ 4 * p.d = p.n ∧ p.cwBytes ≤ 64 ∧ p.n ≤ 1024 ∧ 8 ∣ p.n ∧ 0 < p.n ∧
    p.msgBytes ≤ 32 ∧ p.uSize = p.msgBytes := by
  rcases State.params_cases h with rfl | rfl | rfl <;> decide

/-- The sizes of the keys and the ciphertext of a selected parameter set (R8, R9). -/
theorem State.params_sizes {s : State} {p : Params} (h : s.params = some p) :
    32 ≤ p.pkBytes ∧ p.pkBytes ≤ 928 ∧ p.skBytes ≤ 1056 ∧ p.n ≤ 1056 ∧ p.ctBytes ≤ 1792 ∧
    p.pkBytes = 32 + p.n * 7 / 8 ∧ p.skBytes = p.n + p.uSize ∧ p.ctBytes = p.c1Bytes + p.c2Bytes ∧
    p.c1Bytes = p.n * Nat.log2 p.k1 / 8 ∧ p.c2Bytes = p.n * Nat.log2 p.k2 / 8 ∧ Nat.log2 p.p = 7 ∧ 256 / p.p = 2 := by
  rcases State.params_cases h with rfl | rfl | rfl <;> decide

theorem pkeC1_length (p : Params) (pk coin : List Byte) : (pkeC1 p pk coin).length = p.n := by simp [pkeC1, pkeError]

theorem pkeC2_length (code : XefCode) (p : Params) (pk msg coin : List Byte) : (pkeC2 code p pk msg coin).length = p.n := by
  simp [pkeC2, pkeError, eccEncode, pkPoly]

theorem pkeEncrypt_length (code : XefCode) (p : Params) (pk msg coin : List Byte) :
    (pkeEncrypt code p pk msg coin).length = p.ctBytes := by
  simp [pkeEncrypt, packCt, pkeC1_length, pkeC2_length, Params.ctBytes, Params.c1Bytes, Params.c2Bytes]

theorem pkeDecrypt_length (code : XefCode) (p : Params) (sDense ct : List Byte) :
    (pkeDecrypt code p sDense ct).length = p.msgBytes := by
  rw [pkeDecrypt, eccDecode, bytesOf_length, xefDecode_length _ _ _ _ (by simp; omega)]; rfl

/-! ## The host's accesses -/

theorem accessLegal_iff (addr n : Nat) : accessLegal addr n = true ↔ LegalAccess addr n := by
  have e : addr + n ≤ windowSize ↔ addr + n ≤ 0x4000 := Iff.rfl
  simp only [accessLegal, LegalAccess, Bool.and_eq_true, Bool.or_eq_true, beq_iff_eq, decide_eq_true_eq, e, or_assoc, and_assoc]

theorem writeLegal_iff (addr n : Nat) : writeLegal addr n = true ↔ LegalAccess addr n ∧ (0x0100 ≤ addr ∨ n = 4) := by
  have e : dataStart ≤ addr ↔ 0x0100 ≤ addr := Iff.rfl
  simp only [writeLegal, Bool.and_eq_true, accessLegal_iff, Bool.or_eq_true, decide_eq_true_eq, beq_iff_eq, e]

theorem landWrite_data {s : State} {addr n : Nat} {v : Word} (hr : s.run = .idle) (ha : 0x0100 ≤ addr) :
    s.landWrite addr n v = s.storeBytes addr (leBytes n v.toNat) := by
  have hd : dataStart ≤ addr := ha
  have e1 : ¬ addr = csrStatus := by show ¬ addr = 0x10; omega
  have e2 : ¬ addr = csrCmd := by show ¬ addr = 0x08; omega
  have e3 : ¬ s.run = .busy := by rw [hr]; decide
  rw [State.landWrite, if_neg e1, if_neg e3, if_neg e2, if_pos hd]

theorem landWrite_csr {s : State} {addr n : Nat} {v : Word} (hr : s.run = .idle) (ha : addr < 0x0100) (h1 : addr ≠ 0x08)
    (h2 : addr ≠ 0x10) : s.landWrite addr n v = s.writeCsr addr v := by
  have hd : ¬ dataStart ≤ addr := by show ¬ 0x0100 ≤ addr; omega
  have e1 : ¬ addr = csrStatus := h2
  have e2 : ¬ addr = csrCmd := h1
  have e3 : ¬ s.run = .busy := by rw [hr]; decide
  rw [State.landWrite, if_neg e1, if_neg e3, if_neg e2, if_neg hd]

/-- Where a stored byte lands: its own offset, if that is implemented. -/
theorem storeByte_read (s : State) (x : Nat) (v : Byte) (a : Nat) :
    (s.storeByte x v).mem.read a =
      if a = x ∧ implemented a = true then (if slotHigh a then v &&& 0x83 else v) else s.mem.read a := by
  unfold State.storeByte
  by_cases h : a = x
  · subst h
    by_cases hi : implemented a = true
    · have := Memory.read_writeRange_in s.mem a [storedByte a v] 0 (by simp)
      simp at this
      simp [hi]; exact this
    · simp [hi]
  · split
    · rw [State.writeAt_mem, Memory.read_writeRange_out _ _ _ _ (by simp; omega)]; simp [h]
    · simp [h]

theorem storeByte_frame (s : State) (x : Nat) (v : Byte) : ∃ m, s.storeByte x v = { s with mem := m } := by
  unfold State.storeByte; split
  · exact ⟨_, rfl⟩
  · exact ⟨s.mem, rfl⟩

/-- Storing bytes changes the memory alone. -/
theorem storeBytes_frame (bs : List Byte) (s : State) (x : Nat) : ∃ m, s.storeBytes x bs = { s with mem := m } := by
  induction bs generalizing s x with
  | nil => exact ⟨s.mem, rfl⟩
  | cons b bs ih =>
    obtain ⟨m, hm⟩ := storeByte_frame s x b
    obtain ⟨m', hm'⟩ := ih (s.storeByte x b) (x + 1)
    exact ⟨m', by rw [State.storeBytes, hm', hm]⟩

end Machine

end Sys2Proof
end

