-- ==== Sys2Proof/Laws/PerInstr.lean ====
section
/-! SUPPORT. The family EncodesInRow: the word of every well-formed command selects the command's own row of the opcode map
(spec/30_encoding.md R96), one lemma per command. -/

namespace Sys2Proof.Laws

/-- The encoded word of a well-formed command matches the command's row. -/
def EncodesInRow.Statement (i : Instr) : Prop := i.wellFormed = true → i.selects (encode i)

/-- Low immediate bits that a mask does not cover do not matter to it. -/
theorem commandWord_and (bits opc rd ra rb imm : Nat) (mask : Word) (hb : bits ≤ 12) (hi : imm < 2 ^ bits)
    (hm : ∀ k, k < bits → mask.getLsbD k = false) :
    commandWord opc rd ra rb imm &&& mask = commandWord opc rd ra rb 0 &&& mask := by
  apply BitVec.eq_of_getLsbD_eq
  intro k hk
  by_cases h : k < bits
  · simp [hm k h]
  · have e : opc * 2 ^ 24 + rd * 2 ^ 20 + ra * 2 ^ 16 + rb * 2 ^ 12 =
        2 ^ bits * ((opc * 2 ^ 12 + rd * 2 ^ 8 + ra * 2 ^ 4 + rb) * 2 ^ (12 - bits)) := by
      have : 2 ^ bits * 2 ^ (12 - bits) = 2 ^ 12 := by rw [← Nat.pow_add]; congr 1; omega
      calc _ = (opc * 2 ^ 12 + rd * 2 ^ 8 + ra * 2 ^ 4 + rb) * 2 ^ 12 := by ring
        _ = _ := by rw [← this]; ring
    simp only [BitVec.getLsbD_and, commandWord, BitVec.getLsbD_ofNat, Nat.add_zero]
    rw [e, Nat.testBit_two_pow_mul_add _ hi, if_neg h]
    have := Nat.testBit_two_pow_mul_add ((opc * 2 ^ 12 + rd * 2 ^ 8 + ra * 2 ^ 4 + rb) * 2 ^ (12 - bits)) (b := 0)
      (i := bits) (by positivity) k
    rw [Nat.add_zero, if_neg h] at this
    rw [this]


theorem EncodesInRow.nop : EncodesInRow.Statement (.nop) := by
  intro _; rfl

theorem EncodesInRow.wipe (mask : BitVec 11) : EncodesInRow.Statement (.wipe mask) := by
  intro _
  have hb : mask.toNat < 2 ^ 11 := mask.isLt
  rw [Instr.selects, encode, commandWord_and 11 _ _ _ _ _ _ (by decide) hb (by intro k hk; dsimp only [opcodeRow]; interval_cases k <;> rfl)]
  dsimp only [opcodeRow]
  decide

theorem EncodesInRow.padd (rd : PReg) (ra : PReg) (rb : PReg) : EncodesInRow.Statement (.padd rd ra rb) := by
  intro _; cases rd <;> cases ra <;> cases rb <;> rfl

theorem EncodesInRow.psub (rd : PReg) (ra : PReg) (rb : PReg) : EncodesInRow.Statement (.psub rd ra rb) := by
  intro _; cases rd <;> cases ra <;> cases rb <;> rfl

theorem EncodesInRow.pneg (rd : PReg) (ra : PReg) : EncodesInRow.Statement (.pneg rd ra) := by
  intro _; cases rd <;> cases ra <;> rfl

theorem EncodesInRow.pscale (rd : PReg) (ra : PReg) (f : Byte) : EncodesInRow.Statement (.pscale rd ra f) := by
  intro _
  have hb : f.toNat < 2 ^ 8 := f.isLt
  rw [Instr.selects, encode, commandWord_and 8 _ _ _ _ _ _ (by decide) hb (by intro k hk; dsimp only [opcodeRow]; interval_cases k <;> rfl)]
  dsimp only [opcodeRow]
  cases rd <;> cases ra <;> decide

theorem EncodesInRow.psrnd (rd : PReg) (ra : PReg) (ln : Nat) (ld : Nat) : EncodesInRow.Statement (.psrnd rd ra ln ld) := by
  intro h
  have hb : ld * 16 + ln < 2 ^ 8 := by simp [Instr.wellFormed] at h; omega
  rw [Instr.selects, encode, commandWord_and 8 _ _ _ _ _ _ (by decide) hb (by intro k hk; dsimp only [opcodeRow]; interval_cases k <;> rfl)]
  dsimp only [opcodeRow]
  cases rd <;> cases ra <;> decide

theorem EncodesInRow.pmuld (rd : PReg) (ra : PReg) (rb : PReg) : EncodesInRow.Statement (.pmuld rd ra rb) := by
  intro _; cases rd <;> cases ra <;> cases rb <;> rfl

theorem EncodesInRow.pmuls (rd : PReg) (ra : PReg) (rb : SReg) : EncodesInRow.Statement (.pmuls rd ra rb) := by
  intro _; cases rd <;> cases ra <;> cases rb <;> rfl

theorem EncodesInRow.ptosp (rd : SReg) (ra : PReg) : EncodesInRow.Statement (.ptosp rd ra) := by
  intro _; cases rd <;> cases ra <;> rfl

theorem EncodesInRow.pfrsp (rd : PReg) (ra : SReg) : EncodesInRow.Statement (.pfrsp rd ra) := by
  intro _; cases rd <;> cases ra <;> rfl

theorem EncodesInRow.pcteq (ra : PReg) (rb : PReg) : EncodesInRow.Statement (.pcteq ra rb) := by
  intro _; cases ra <;> cases rb <;> rfl

theorem EncodesInRow.sunif (rd : PReg) (ra : BReg) : EncodesInRow.Statement (.sunif rd ra) := by
  intro _; cases rd <;> cases ra <;> rfl

theorem EncodesInRow.shwt (rd : SReg) (ra : BReg) (h : Nat) : EncodesInRow.Statement (.shwt rd ra h) := by
  intro hw
  have hb : h < 2 ^ 11 := by simpa [Instr.wellFormed] using hw
  rw [Instr.selects, encode, commandWord_and 11 _ _ _ _ _ _ (by decide) hb (by intro k hk; dsimp only [opcodeRow]; interval_cases k <;> rfl)]
  dsimp only [opcodeRow]
  cases rd <;> cases ra <;> decide

theorem EncodesInRow.sderive (rd : BReg) (ra : BReg) : EncodesInRow.Statement (.sderive rd ra) := by
  intro _; cases rd <;> cases ra <;> rfl

theorem EncodesInRow.srand (rd : BReg) (n : Nat) : EncodesInRow.Statement (.srand rd n) := by
  intro h
  have hb : n < 2 ^ 7 := by simpa [Instr.wellFormed] using h
  rw [Instr.selects, encode, commandWord_and 7 _ _ _ _ _ _ (by decide) hb (by intro k hk; dsimp only [opcodeRow]; interval_cases k <;> rfl)]
  dsimp only [opcodeRow]
  cases rd <;> decide

theorem EncodesInRow.xefenc (rd : BReg) (ra : BReg) : EncodesInRow.Statement (.xefenc rd ra) := by
  intro _; cases rd <;> cases ra <;> rfl

theorem EncodesInRow.xefdec (rd : BReg) (ra : BReg) : EncodesInRow.Statement (.xefdec rd ra) := by
  intro _; cases rd <;> cases ra <;> rfl

theorem EncodesInRow.d2enc (rd : PReg) (ra : BReg) : EncodesInRow.Statement (.d2enc rd ra) := by
  intro _; cases rd <;> cases ra <;> rfl

theorem EncodesInRow.d2dec (rd : BReg) (ra : PReg) : EncodesInRow.Statement (.d2dec rd ra) := by
  intro _; cases rd <;> cases ra <;> rfl

theorem EncodesInRow.pack (ra : PReg) (l : Nat) : EncodesInRow.Statement (.pack ra l) := by
  intro h
  have hb : l < 2 ^ 4 := by simpa [Instr.wellFormed] using h
  rw [Instr.selects, encode, commandWord_and 4 _ _ _ _ _ _ (by decide) hb (by intro k hk; dsimp only [opcodeRow]; interval_cases k <;> rfl)]
  dsimp only [opcodeRow]
  cases ra <;> decide

theorem EncodesInRow.unpack (rd : PReg) (l : Nat) : EncodesInRow.Statement (.unpack rd l) := by
  intro h
  have hb : l < 2 ^ 4 := by simpa [Instr.wellFormed] using h
  rw [Instr.selects, encode, commandWord_and 4 _ _ _ _ _ _ (by decide) hb (by intro k hk; dsimp only [opcodeRow]; interval_cases k <;> rfl)]
  dsimp only [opcodeRow]
  cases rd <;> decide

theorem EncodesInRow.bcteq (n : Nat) : EncodesInRow.Statement (.bcteq n) := by
  intro h
  have hb : n < 2 ^ 11 := by simpa [Instr.wellFormed] using h
  rw [Instr.selects, encode, commandWord_and 11 _ _ _ _ _ _ (by decide) hb (by intro k hk; dsimp only [opcodeRow]; interval_cases k <;> rfl)]
  dsimp only [opcodeRow]
  decide

theorem EncodesInRow.bsel (rd : BReg) (ra : BReg) (rb : BReg) (n : Nat) : EncodesInRow.Statement (.bsel rd ra rb n) := by
  intro h
  have hb : n < 2 ^ 7 := by simpa [Instr.wellFormed] using h
  rw [Instr.selects, encode, commandWord_and 7 _ _ _ _ _ _ (by decide) hb (by intro k hk; dsimp only [opcodeRow]; interval_cases k <;> rfl)]
  dsimp only [opcodeRow]
  cases rd <;> cases ra <;> cases rb <;> decide

theorem EncodesInRow.pkekg : EncodesInRow.Statement (.pkekg) := by
  intro _; rfl

theorem EncodesInRow.pkeenc (ra : BReg) : EncodesInRow.Statement (.pkeenc ra) := by
  intro _; cases ra <;> rfl

theorem EncodesInRow.pkedec : EncodesInRow.Statement (.pkedec) := by
  intro _; rfl

theorem EncodesInRow.kemkg : EncodesInRow.Statement (.kemkg) := by
  intro _; rfl

theorem EncodesInRow.kemenc : EncodesInRow.Statement (.kemenc) := by
  intro _; rfl

theorem EncodesInRow.kemdec : EncodesInRow.Statement (.kemdec) := by
  intro _; rfl

end Sys2Proof.Laws
end

