-- ==== Sys2Proof/Laws/Ring.lean ====
section
/-! SUPPORT. The coefficients of what the ring functions answer: pointwise functions, rotation, the sparse product and the
dense view of a list. -/

namespace Sys2Proof.Machine

theorem getD_out (a : List Byte) (i : Nat) (h : a.length ≤ i) : a.getD i 0 = 0 := List.getD_eq_default _ _ h

/-- Strings of one length are equal when their bytes are. -/
theorem ext_getD (x y : List Byte) (n : Nat) (hx : x.length = n) (hy : y.length = n)
    (h : ∀ k, k < n → x.getD k 0 = y.getD k 0) : x = y := by
  apply List.ext_getElem (by omega)
  intro k h1 h2
  have := h k (by omega)
  simpa [List.getD_eq_getElem?_getD, h1, h2] using this

theorem getD_polyAdd (a b : List Byte) (k : Nat) (ha : k < a.length) (hb : k < b.length) :
    (polyAdd a b).getD k 0 = a.getD k 0 + b.getD k 0 := by
  simp [polyAdd, List.getD_eq_getElem?_getD, ha, hb]

theorem getD_polySub (a b : List Byte) (k : Nat) (ha : k < a.length) (hb : k < b.length) :
    (polySub a b).getD k 0 = a.getD k 0 - b.getD k 0 := by
  simp [polySub, List.getD_eq_getElem?_getD, ha, hb]

/-- The list sum of a range is the sum over the range. -/
theorem sum_map_range (n : Nat) (f : Nat → Int) : ((List.range n).map f).sum = ∑ i ∈ Finset.range n, f i := by
  induction n with
  | zero => rfl
  | succ n ih => rw [List.range_succ, List.map_append, List.sum_append, ih, Finset.sum_range_succ]; simp

theorem ofInt_toNat (x : Byte) : BitVec.ofInt 8 (x.toNat : Int) = x := by apply BitVec.eq_of_toNat_eq; simp

theorem ofInt_neg_toNat (x : Byte) : BitVec.ofInt 8 (-(x.toNat : Int)) = -x := by rw [BitVec.ofInt_neg, ofInt_toNat]

/-- Coefficient `k` of `d·X^j` (R132). -/
theorem getD_rotate (d : List Byte) (n k j : Nat) (hd : d.length = n) (hk : k < n) (hj : j < n) :
    (rotate d j).getD k 0 = if j ≤ k then d.getD (k - j) 0 else -d.getD (k + n - j) 0 := by
  subst hd
  simp only [rotate, List.getD_eq_getElem?_getD]
  split
  · next h =>
    rw [List.getElem?_append_right (by simp; omega)]
    simp only [List.length_map, List.length_drop]
    rw [List.getElem?_take_of_lt (by omega)]
    congr 2; omega
  · next h =>
    rw [List.getElem?_append_left (by simp; omega), List.getElem?_map, List.getElem?_drop,
      show d.length - j + k = k + d.length - j by omega, List.getElem?_eq_getElem (by omega)]
    rfl

/-- What one term of a list adds to coefficient `k` of the sparse product, as an integer (R132). -/
def termSum (d : List Byte) (n k : Nat) (t : Term) : Int :=
  ∑ i ∈ Finset.range n, (if t.sgn = .plus then 1 else -1) *
    ((if i + t.idx = k then 1 else 0) - (if i + t.idx = k + n then 1 else 0)) * ((d.getD i 0).toNat : Int)

theorem getD_signed_rotate (d : List Byte) (n k : Nat) (t : Term) (hd : d.length = n) (hk : k < n) (hj : t.idx < n) :
    (((rotate d t.idx).map t.sgn.apply).getD k 0) = BitVec.ofInt 8 (termSum d n k t) := by
  have e0 : ((rotate d t.idx).map t.sgn.apply).getD k 0 = t.sgn.apply ((rotate d t.idx).getD k 0) := by
    simp only [List.getD_eq_getElem?_getD, List.getElem?_map]
    rw [List.getElem?_eq_getElem (by simp; omega)]; rfl
  rw [e0, getD_rotate d n k t.idx hd hk hj, termSum]
  by_cases h : t.idx ≤ k
  · rw [if_pos h, Finset.sum_eq_single (k - t.idx)]
    · rw [if_pos (by omega : k - t.idx + t.idx = k), if_neg (by omega : ¬ k - t.idx + t.idx = k + n)]
      cases t.sgn <;> simp [Sign.apply, ofInt_neg_toNat]
    · intro i hi hne
      have := Finset.mem_range.1 hi
      have h1 : ¬ i + t.idx = k := fun e => hne (by omega)
      have h2 : ¬ i + t.idx = k + n := fun e => hne (by omega)
      rw [if_neg h1, if_neg h2]; simp
    · intro hn; exact absurd (Finset.mem_range.2 (by omega)) hn
  · rw [if_neg h, Finset.sum_eq_single (k + n - t.idx)]
    · rw [if_neg (by omega : ¬ k + n - t.idx + t.idx = k), if_pos (by omega : k + n - t.idx + t.idx = k + n)]
      cases t.sgn <;> simp [Sign.apply, ofInt_neg_toNat]
    · intro i hi hne
      have := Finset.mem_range.1 hi
      have h1 : ¬ i + t.idx = k := fun e => hne (by omega)
      have h2 : ¬ i + t.idx = k + n := fun e => hne (by omega)
      rw [if_neg h1, if_neg h2]; simp
    · intro hn; exact absurd (Finset.mem_range.2 (by omega)) hn

/-- Coefficient `k` of the sparse product is the sum of its terms' shares, modulo 256 (R132). -/
theorem getD_mulSparse (d : List Byte) (n : Nat) (l : List Term) (k : Nat) (hd : d.length = n) (hk : k < n)
    (hl : ∀ t ∈ l, t.idx < n) : (mulSparse d l).getD k 0 = BitVec.ofInt 8 ((l.map (termSum d n k)).sum) := by
  have key : ∀ (l : List Term) (acc : List Byte), acc.length = n → (∀ t ∈ l, t.idx < n) →
      (l.foldl (fun acc t => polyAdd acc ((rotate d t.idx).map t.sgn.apply)) acc).getD k 0 =
        acc.getD k 0 + BitVec.ofInt 8 ((l.map (termSum d n k)).sum) := by
    intro l
    induction l with
    | nil => intro acc ha hl; simp
    | cons t l ih =>
      intro acc ha hl
      rw [List.foldl_cons, ih _ (by simp [ha, hd]) (fun t ht => hl t (by simp [ht])),
        getD_polyAdd _ _ _ (by omega) (by simp; omega), getD_signed_rotate d n k t hd hk (hl t (by simp)), List.map_cons,
        List.sum_cons, BitVec.ofInt_add, BitVec.add_assoc]
  rw [mulSparse, key l _ (by simpa using hd) hl, List.getD_eq_getElem?_getD, List.getElem?_replicate]
  split <;> simp

/-- Where no term has index `k`, the dense view keeps coefficient `k` (R134). -/
theorem getD_foldl_set_of_not_mem (l : List Term) (a : List Byte) (k : Nat) (h : ∀ t ∈ l, t.idx ≠ k) :
    (l.foldl (fun a t => a.set t.idx t.sgn.coeff) a).getD k 0 = a.getD k 0 := by
  induction l generalizing a with
  | nil => rfl
  | cons t l ih =>
    rw [List.foldl_cons, ih _ fun x hx => h x (by simp [hx])]
    simp [List.getD_eq_getElem?_getD, h t (by simp)]

/-- The last term with index `k` decides coefficient `k` of the dense view (R134). -/
theorem getD_foldl_set_of_last (l : List Term) (a : List Byte) (k m : Nat) (hm : m < l.length)
    (hlast : ∀ m' (h' : m' < l.length), m < m' → l[m'].idx ≠ l[m].idx) (hk : l[m].idx = k) (ha : k < a.length) :
    (l.foldl (fun a t => a.set t.idx t.sgn.coeff) a).getD k 0 = l[m].sgn.coeff := by
  induction l generalizing a m with
  | nil => simp at hm
  | cons t l ih =>
    rw [List.foldl_cons]
    cases m with
    | zero =>
      simp only [List.getElem_cons_zero] at hk hlast ⊢
      have hn : ∀ x ∈ l, x.idx ≠ k := by
        intro x hx
        obtain ⟨m', hm', rfl⟩ := List.getElem_of_mem hx
        have := hlast (m' + 1) (by simp; omega) (by omega)
        simpa [hk] using this
      rw [getD_foldl_set_of_not_mem l _ k hn]
      subst hk
      simp [List.getD_eq_getElem?_getD, ha]
    | succ m =>
      exact ih (a.set t.idx t.sgn.coeff) m (by simpa using hm)
        (fun m' h' hmm => hlast (m' + 1) (by simpa using h') (by omega)) (by simpa using hk) (by simpa using ha)

end Sys2Proof.Machine
end

