-- ==== Sys2Proof/Tests/Slice0.lean ====
section
/-! SUPPORT. The model's own tests: the smoke test of WellFormed, one word per command written out from the spec, one or two
steps per command with values of spec/95_test_vectors.md and of the rules' examples, and for each obligation with hypotheses
a witness that meets them. -/

set_option Elab.async false -- one kernel evaluation at a time

namespace Sys2Proof.Tests

open Sys2Proof Sys2Proof.Machine

/-! ## Helpers -/

/-- The reset state with `CFG.PSEL` set. -/
def psel (k : Nat) : State := { State.reset with cfg := BitVec.ofNat 32 k }

/-- The state after one command; the state before where the command gave none (no command does). -/
def after (i : Instr) (s : State) : State :=
  match exec i s with
  | .next t => t
  | _ => s

/-- The state after one step. -/
def stepped (s : State) : State :=
  match step s with
  | .next t => t
  | _ => s

/-- Bytes placed in the window. -/
def bytesAt (base : Nat) (bs : List Byte) (s : State) : State := s.writeAt base bs

/-- An entropy port with the bytes `0, 1, .. n − 1` to give, then a failure. -/
def counting (n : Nat) : EntropyPort := ⟨(List.range n).map (fun k => some (BitVec.ofNat 8 k)) ++ [none], 0⟩

/-- The reset state with one scheduled event. -/
def scheduled (r : RunState) (e : Event) : State := { State.reset with run := r, inputs := [e] }

/-! ## WellFormed: an ill-formed term for each check (R95) -/

theorem test_wellFormed_psrnd_ln : (Instr.psrnd .p0 .p0 16 8).wellFormed = false := by decide
theorem test_wellFormed_psrnd_ld : (Instr.psrnd .p0 .p0 1 16).wellFormed = false := by decide
theorem test_wellFormed_shwt : (Instr.shwt .s0 .b0 2048).wellFormed = false := by decide
theorem test_wellFormed_srand : (Instr.srand .b0 128).wellFormed = false := by decide
theorem test_wellFormed_pack : (Instr.pack .p0 16).wellFormed = false := by decide
theorem test_wellFormed_unpack : (Instr.unpack .p0 16).wellFormed = false := by decide
theorem test_wellFormed_bcteq : (Instr.bcteq 2048).wellFormed = false := by decide
theorem test_wellFormed_bsel : (Instr.bsel .b0 .b0 .b0 128).wellFormed = false := by decide

/-! ## Decoding: a word per command (R96, with the examples of the rules) -/

theorem test_decode_system :
    decode 0x00000000 = .ok .nop ∧ decode 0x01000001 = .ok (.wipe 1) ∧ decode 0x010007FF = .ok (.wipe 0x7FF) := by decide

theorem test_decode_polynomial :
    decode 0x10012000 = .ok (.padd .p0 .p1 .p2) ∧ decode 0x11221000 = .ok (.psub .p2 .p2 .p1) ∧
    decode 0x12310000 = .ok (.pneg .p3 .p1) ∧ decode 0x13110002 = .ok (.pscale .p1 .p1 2) ∧
    decode 0x14220081 = .ok (.psrnd .p2 .p2 1 8) ∧ decode 0x15223000 = .ok (.pmuld .p2 .p2 .p3) ∧
    decode 0x16001000 = .ok (.pmuls .p0 .p0 .s1) ∧ decode 0x17130000 = .ok (.ptosp .s1 .p3) ∧
    decode 0x18310000 = .ok (.pfrsp .p3 .s1) ∧ decode 0x19021000 = .ok (.pcteq .p2 .p1) := by decide

theorem test_decode_sampling :
    decode 0x20010000 = .ok (.sunif .p0 .b1) ∧ decode 0x21120020 = .ok (.shwt .s1 .b2 32) ∧
    decode 0x22200000 = .ok (.sderive .b2 .b0) ∧ decode 0x23100004 = .ok (.srand .b1 4) := by decide

theorem test_decode_ecc :
    decode 0x30100000 = .ok (.xefenc .b1 .b0) ∧ decode 0x31320000 = .ok (.xefdec .b3 .b2) ∧
    decode 0x32310000 = .ok (.d2enc .p3 .b1) ∧ decode 0x33120000 = .ok (.d2dec .b1 .p2) := by decide

theorem test_decode_pack_compare :
    decode 0x40020008 = .ok (.pack .p2 8) ∧ decode 0x41200008 = .ok (.unpack .p2 8) ∧ decode 0x42000400 = .ok (.bcteq 1024) ∧
    decode 0x43201004 = .ok (.bsel .b2 .b0 .b1 4) := by decide

theorem test_decode_pke_kem :
    decode 0x80000000 = .ok .pkekg ∧ decode 0x81030000 = .ok (.pkeenc .b3) ∧ decode 0x82000000 = .ok .pkedec ∧
    decode 0x90000000 = .ok .kemkg ∧ decode 0x91000000 = .ok .kemenc ∧ decode 0x92000000 = .ok .kemdec := by decide

/-- The four cases of R99, words of V12, V40 and V50. -/
theorem test_decode_refused :
    decode 0x02000000 = .error .reservedOpcode ∧ decode 0x00000001 = .error .immediateBitNotZero ∧
    decode 0x01000800 = .error .immediateBitNotZero ∧ decode 0x40000010 = .error .immediateBitNotZero ∧
    decode 0x10400000 = .error .registerOutOfClass ∧ decode 0x16002000 = .error .registerOutOfClass ∧
    decode 0x80100000 = .error .unusedFieldNotZero := by decide

theorem test_decodeTableWord :
    decodeTableWord 32 0x10012000 = some (.padd .p0 .p1 .p2) ∧ decodeTableWord 32 0x02000000 = none := by decide

/-! ## System commands (V12) -/

theorem test_nop : (after .nop (psel 3)).status = 0x00000002 ∧ (after .nop (psel 3)).cfg = 3 := by decide

theorem test_wipe_s0 :
    let s := after (.wipe 0x100) { bytesAt 0x3000 [5, 0x80] (bytesAt 0x2000 [7] State.reset) with s0len := 1, eq := true }
    s.mem = [(0x2000, 7)] ∧ s.s0len = 0 ∧ s.status = 0x0000000A := by decide +kernel

theorem test_wipe_arg_eq :
    let s := after (.wipe 0x600) { psel 3 with arg := 9, eq := true, pklen := 480 }
    s.arg = 0 ∧ s.pklen = 480 ∧ s.status = 0x00000002 := by decide +kernel

/-! ## Polynomial commands (V13, V14, V16, V17) -/

theorem test_padd :
    ((after (.padd .p0 .p1 .p2) (bytesAt 0x2400 [250, 10] (bytesAt 0x2800 [10, 250] State.reset))).mem.readRange 0x2000 3) =
      [4, 4, 0] := by decide +kernel

/-- The destination is a source, and a lane from N on is zeroed. -/
theorem test_padd_aliased :
    let s := after (.padd .p1 .p1 .p1) (bytesAt 0x2400 [200] (bytesAt 0x2600 [9] State.reset))
    s.mem.read 0x2400 = 144 ∧ s.mem.read 0x2600 = 0 := by decide +kernel

theorem test_psub :
    ((after (.psub .p0 .p1 .p2) (bytesAt 0x2400 [0, 5] (bytesAt 0x2800 [1, 5] State.reset))).mem.readRange 0x2000 2) =
      [255, 0] := by decide +kernel

theorem test_pneg :
    ((after (.pneg .p0 .p1) (bytesAt 0x2400 [1, 0, 128, 255] State.reset)).mem.readRange 0x2000 4) = [255, 0, 128, 1] := by
  decide +kernel

theorem test_pscale :
    ((after (.pscale .p0 .p1 128) (bytesAt 0x2400 [1, 2, 3, 129] State.reset)).mem.readRange 0x2000 4) =
      [128, 0, 128, 128] := by decide +kernel

theorem test_psrnd :
    ((after (.psrnd .p0 .p1 7 8) (bytesAt 0x2400 [0, 1, 2, 3, 4, 127, 128, 253, 254, 255] State.reset)).mem.readRange
      0x2000 10) = [0, 1, 1, 2, 2, 64, 64, 127, 127, 128] := by decide +kernel

theorem test_psrnd_operand :
    (after (.psrnd .p0 .p1 0 9) State.reset).status = 0x00000204 ∧ (after (.psrnd .p0 .p1 2 1) State.reset).errcode = 2 := by
  decide +kernel

/-- `(3 + 5X)·(2 + X) = 6 + 13X + 5X²`. -/
theorem test_mulSchool : mulSchool [3, 5, 0, 0] [2, 1, 0, 0] = [6, 13, 5, 0] := by decide +kernel

/-- `(1 + X³)·X = 255 + X` in degree 4. -/
theorem test_mulSchool_wraps : mulSchool [1, 0, 0, 1] [0, 1, 0, 0] = [255, 1, 0, 0] := by decide +kernel

theorem test_pmuls_negative :
    let s := after (.pmuls .p0 .p1 .s0)
      { bytesAt 0x2400 [1] (bytesAt 0x25FF [1] (bytesAt 0x3000 [1, 0x80] State.reset)) with s0len := 1 }
    s.mem.readRange 0x2000 2 = [1, 255] ∧ s.mem.read 0x21FF = 0 := by decide +kernel

theorem test_ptosp :
    let s := after (.ptosp .s0 .p0) (bytesAt 0x2000 [0, 1, 7, 255] (bytesAt 0x3006 [9] State.reset))
    s.s0len = 2 ∧ s.mem.readRange 0x3000 8 = [1, 0, 3, 0x80, 0, 0, 0, 0] := by decide +kernel

theorem test_pfrsp_last_wins :
    let s := after (.pfrsp .p0 .s0) { bytesAt 0x3000 [5, 0, 5, 0x80, 2, 0x80] State.reset with s0len := 3 }
    s.mem.readRange 0x2000 7 = [0, 0, 255, 0, 0, 255, 0] := by decide +kernel

theorem test_pfrsp_index_modulo :
    (after (.pfrsp .p0 .s0) { bytesAt 0x3000 [1, 2] State.reset with s0len := 1 }).mem.readRange 0x2000 3 = [0, 1, 0] := by
  decide +kernel

theorem test_pcteq :
    (after (.pcteq .p0 .p1) (bytesAt 0x2258 [1] State.reset)).status = 0x0000000A ∧
    (after (.pcteq .p0 .p1) { bytesAt 0x212C [1] State.reset with eq := true }).status = 0x00000002 := by decide +kernel

/-! ## Sampling commands (V22; the streams of the others are uninterpreted) -/

theorem test_sunif :
    let s := after (.sunif .p0 .b0) (bytesAt 0x0200 [9] (psel 1))
    s.status = 0x00000002 ∧ s.mem.read 0x0200 = 9 := by decide +kernel

theorem test_shwt_operand : (after (.shwt .s0 .b0 513) State.reset).status = 0x00000204 := by decide +kernel

theorem test_shwt_zero :
    let s := after (.shwt .s1 .b0 0) { bytesAt 0x3800 [5, 0x80] State.reset with s1len := 1 }
    s.mem = [] ∧ s.s1len = 0 := by decide +kernel

/-- The first draws of V20 with `h = 4`: 382, 431, 489, 95; the low bits of the sign bytes 0xC1, 0x05, 0xA4, 0xB2. -/
theorem test_sampleFrom :
    sampleFrom [0x79, 0x7E, 0x4D, 0x88, 0xD3, 0x15, 0xCD, 0x27, 0xC1, 0x05, 0xA4, 0xB2] 512 4 =
      [⟨382, .plus⟩, ⟨431, .plus⟩, ⟨489, .minus⟩, ⟨95, .minus⟩] := by decide +kernel

theorem test_sderive :
    let s := after (.sderive .b1 .b1) (bytesAt 0x0200 [3] State.reset)
    s.status = 0x00000002 ∧ s.mem.read 0x0200 = 3 := by decide +kernel

/-- The counter of SDERIVE, least significant byte first (V21: the oracle's input ends 04 03 02 01). -/
theorem test_le32 : le32 0x01020304 = [4, 3, 2, 1] := by decide

theorem test_srand :
    let s := after (.srand .b1 4) (bytesAt 0x0244 [9] { State.reset with entropy := counting 8 })
    s.mem.readRange 0x0240 5 = [0, 1, 2, 3, 0] ∧ s.entropy.read 1 = (some [4], ⟨[some 5, some 6, some 7, none], 0⟩) := by
  decide +kernel

theorem test_srand_fails :
    let s := after (.srand .b0 4) (bytesAt 0x0200 [9, 9] { State.reset with entropy := counting 3 })
    s.status = 0x00000504 ∧ s.mem = [] := by decide +kernel

/-! ## Error-correction commands (V30 to V32) -/

theorem test_xefenc :
    (after (.xefenc .b1 .b0) (bytesAt 0x0200 (List.replicate 16 0xAA) State.reset)).mem.readRange 0x0250 16 =
      [0x00, 0x00, 0x01, 0x5F, 0xFD, 0xAA, 0x00, 0x00, 0xAA, 0x55, 0x57, 0xE0, 0x00, 0x00, 0x00, 0x00] := by decide +kernel

/-- V32: bits 0, 44 and 87 flipped. -/
theorem test_xefdec :
    (after (.xefdec .b2 .b1) (bytesAt 0x0240
      [0x2A, 0xAA, 0xAA, 0xAA, 0xAA, 0xA2, 0xAA, 0xAA, 0xAA, 0xAA, 0xAB, 0xAA, 0xAA, 0xAA, 0xAA, 0xAA,
       0x00, 0x00, 0x01, 0x5F, 0xFD, 0xAA, 0x00, 0x00, 0xAA, 0x55, 0x57, 0xE0, 0x00, 0x00, 0x00, 0x00]
      State.reset)).mem.readRange 0x0280 17 = List.replicate 16 0xAA ++ [0] := by decide +kernel

theorem test_d2enc :
    (after (.d2enc .p0 .b0) (bytesAt 0x0200 [0xAA] State.reset)).mem.readRange 0x2000 17 =
      [128, 128, 0, 0, 128, 128, 0, 0, 128, 128, 0, 0, 128, 128, 0, 0, 0] := by decide +kernel

theorem test_d2dec :
    d2Decode [127, 0, 64, 64, 255, 255, 0, 128, 100, 27, 100, 28, 0, 0, 128, 128] 8 =
      [false, true, true, true, false, true, false, true] ∧
    (after (.d2dec .b0 .p0) State.reset).status = 0x00000002 := by decide +kernel

/-! ## Packing, comparison, selection (V40, V41) -/

theorem test_compress :
    compress [0x00, 0xFF, 0x80, 0x01, 0xFE, 0x7F, 0x55, 0xAA] 7 = [0x80, 0x3F, 0x10, 0xF0, 0xFF, 0xA9, 0xAA] ∧
    compress [0x00, 0xFF, 0x80, 0x01, 0xFE, 0x7F, 0x55, 0xAA] 2 = [0x2C, 0x97] ∧
    decompress [0x80, 0x3F, 0x10, 0xF0, 0xFF, 0xA9, 0xAA] 8 7 = [0, 254, 128, 0, 254, 126, 84, 170] := by decide +kernel

theorem test_pack_operand :
    (after (.pack .p0 0) State.reset).status = 0x00000204 ∧ (after (.pack .p0 0) (psel 3)).status = 0x00000304 ∧
    (after (.pack .p0 8) { State.reset with arg := 1281 }).status = 0x00000204 ∧
    (after (.pack .p0 8) { State.reset with arg := 0x1000 }).status = 0x00000204 := by decide +kernel

theorem test_pack_at_the_end :
    let s := after (.pack .p0 8) { bytesAt 0x2000 [7] (bytesAt 0x1CFF [5] (bytesAt 0x1D00 [6] State.reset)) with arg := 1280 }
    s.mem.readRange 0x1CFF 3 = [5, 7, 0] ∧ s.status = 0x00000002 := by decide +kernel

theorem test_unpack :
    (after (.unpack .p1 1) (bytesAt 0x1801 [0x96] { State.reset with arg := 1 })).mem.readRange 0x2400 8 =
      [0, 128, 128, 0, 128, 0, 0, 128] := by decide +kernel

theorem test_unpack_operand : (after (.unpack .p1 9) State.reset).status = 0x00000204 := by decide +kernel

theorem test_bcteq :
    (after (.bcteq 700) (bytesAt 0x12BC [1] State.reset)).eq = true ∧
    (after (.bcteq 701) (bytesAt 0x12BC [1] State.reset)).eq = false := by decide +kernel

theorem test_bcteq_operand :
    (after (.bcteq 1793) State.reset).status = 0x00000204 ∧ (after (.bcteq 0) State.reset).eq = true := by decide +kernel

theorem test_bsel :
    let s := bytesAt 0x0200 [0x11, 0x22, 0x33, 0x44, 0x55] (bytesAt 0x0240 [0xAA, 0xBB, 0xCC, 0xDD, 0xEE] State.reset)
    (after (.bsel .b2 .b0 .b1 4) s).mem.readRange 0x0280 5 = [0xAA, 0xBB, 0xCC, 0xDD, 0] ∧
    (after (.bsel .b2 .b0 .b1 4) { s with eq := true }).mem.readRange 0x0280 5 = [0x11, 0x22, 0x33, 0x44, 0] := by
  decide +kernel

theorem test_bsel_operand :
    (after (.bsel .b2 .b0 .b1 0) State.reset).errcode = 2 ∧ (after (.bsel .b2 .b0 .b1 65) State.reset).errcode = 2 := by
  decide +kernel

/-! ## Public-key encryption and key encapsulation (Program 4, V50; the keys themselves are uninterpreted) -/

theorem test_pkekg_entropy :
    let s := after .pkekg { bytesAt 0x0400 [1] (bytesAt 0x0800 [2] State.reset) with
      entropy := counting 63, pklen := 480, sklen := 512 }
    s.status = 0x00000504 ∧ s.mem = [] ∧ s.pklen = 0 ∧ s.sklen = 0 := by decide +kernel

theorem test_pkekg :
    let s := after .pkekg { State.reset with entropy := counting 64 }
    s.status = 0x00000002 ∧ s.mem.readRange 0x0401 3 = [1, 2, 3] ∧ s.entropy = ⟨[none], 0⟩ := by decide +kernel

theorem test_pkeenc_len : (after (.pkeenc .b0) State.reset).status = 0x00000404 := by decide +kernel

/-- V15: the rounding of decryption; and PKEDEC completes whatever the buffers hold. -/
theorem test_pkedec :
    pkeRecover [0, 63, 64, 127, 128, 191, 192, 255] = [0, 0, 128, 128, 128, 128, 0, 0] ∧
    (after .pkedec { State.reset with sklen := 528, ctlen := 1024 }).status = 0x00000002 := by decide +kernel

theorem test_pkedec_len : (after .pkedec { State.reset with sklen := 512, ctlen := 1023 }).status = 0x00000404 := by
  decide +kernel

/-- Program 4's variant: the third draw fails. -/
theorem test_kemkg_entropy :
    let s := after .kemkg { bytesAt 0x0400 [1] State.reset with entropy := counting 64, pklen := 480 }
    s.status = 0x00000504 ∧ s.mem = [] ∧ s.pklen = 0 := by decide +kernel

theorem test_kemkg :
    let s := after .kemkg { State.reset with entropy := counting 80 }
    s.status = 0x00000002 ∧ s.entropy = ⟨[none], 0⟩ := by decide +kernel

/-- `E_LEN`, and no entropy consumed (V50). -/
theorem test_kemenc_len :
    let s := after .kemenc { State.reset with entropy := counting 16 }
    s.status = 0x00000404 ∧ s.entropy = counting 16 := by decide +kernel

theorem test_kemenc_entropy :
    let s := after .kemenc { bytesAt 0x0100 [1] (bytesAt 0x1000 [2] State.reset) with
      entropy := counting 15, pklen := 480, ctlen := 1024 }
    s.status = 0x00000504 ∧ s.mem = [] ∧ s.ctlen = 0 := by decide +kernel

theorem test_kemdec_len :
    (after .kemdec { State.reset with pklen := 480, sklen := 528, ctlen := 1023 }).status = 0x00000404 ∧
    (after .kemdec { State.reset with cfg := 1, pklen := 480, sklen := 528, ctlen := 1024 }).status = 0x00000404 := by
  decide +kernel

theorem test_kemdec_eq :
    let s := after .kemdec { State.reset with pklen := 480, sklen := 528, ctlen := 1024, eq := true }
    s.status = 0x00000002 ∧ s.ctlen = 1024 := by decide +kernel

/-! ## The host's window (V45, Program 5) and the step -/

/-- V45: bits 14:10 of a sparse slot are forced to 0. -/
theorem test_write_slots :
    let s := stepped (scheduled .idle (.write 0x3000 4 0xFFFF8005))
    s.mem = [(0x3000, 0x05), (0x3001, 0x80), (0x3002, 0xFF), (0x3003, 0x83)] ∧
    (stepped { s with inputs := [.read 0x3000 4] }).response = .value 0x83FF8005 := by decide +kernel

/-- V45: `ID` by word, byte and halfword; a sparse length modulo 2048 and cut at 1024. -/
theorem test_read_id_write_length :
    (stepped (scheduled .idle (.read 0 4))).response = .value 0x544B4501 ∧
    (stepped (scheduled .idle (.read 1 1))).response = .value 0x45 ∧
    (stepped (scheduled .idle (.read 2 2))).response = .value 0x544B ∧
    (stepped (scheduled .idle (.write 0x20 4 3000))).s0len = 952 ∧
    (stepped (scheduled .idle (.write 0x20 4 1500))).s0len = 1024 := by decide +kernel

/-- Program 5, events 2 to 5: a busy engine. -/
theorem test_busy_accesses :
    (stepped (scheduled .idle (.write 8 4 0x80000000))).status = 0x00000001 ∧
    (stepped (scheduled .busy (.read 0x400 4))).status = 0x00000011 ∧
    (stepped (scheduled .busy (.write 8 4 0))).status = 0x00000021 ∧
    (stepped (scheduled .busy (.write 0xC 4 5))).arg = 0 := by decide +kernel

/-- Program 5, event 7: a W1C write of `DONE`, `ACCV` and `CMDOVR`. -/
theorem test_clear_status :
    let s := stepped { State.reset with done := true, accv := true, cmdovr := true, cfg := 0x300, inputs := [.write 0x10 4 0x32] }
    s.status = 0 ∧ s.irq = false := by decide +kernel

theorem test_illegal_word : (stepped { psel 3 with run := .busy, cmd := 0x02000000 }).status = 0x00000104 := by decide +kernel

theorem test_withFetchWord :
    stepped (State.reset.withFetchWord 32 0x01000200) = { State.reset with cmd := 0x01000200, done := true } ∧
    stepped { State.reset.withFetchWord 32 0x10012000 with cfg := 3 } =
      { State.reset with cfg := 3, cmd := 0x10012000, err := true, errcode := 3 } := by decide +kernel

/-! ## Witnesses: for each obligation with hypotheses, a state and operands that meet them, clause by clause -/

/-- A memory with a byte of a buffer and a slot of `S0`. -/
def someMemory : Memory := [(0x0100, 1), (0x3004, 5), (0x3005, 0x83)]

theorem test_witness_DecodeOfEncodeIsTheCommand :
    (Instr.psrnd .p3 .p0 15 15).wellFormed = true ∧ (Instr.bsel .b3 .b2 .b1 127).wellFormed = true := by decide

theorem test_witness_EncodeOfDecodeIsTheWord : decode 0x42000701 = .ok (.bcteq 1793) := by decide

theorem test_witness_DecoderFollowsTheOpcodeMap :
    decode 0x210107FF = .ok (.shwt .s0 .b1 2047) ∧ (Instr.shwt .s0 .b0 0).selects 0x211307FF := by
  refine ⟨by decide, ?_⟩; unfold Instr.selects; decide

theorem test_witness_StepRunsTheDecodedCommand :
    let s : State := { State.reset with run := .busy, cmd := 0x90000000 }
    s.run = .busy ∧ decode s.cmd = .ok .kemkg ∧ s.inputs = [] ∧
    ({ s with inputs := [.engine, .reset] } : State).inputs = .engine :: [.reset] ∧
    State.reset.run = .idle ∧ State.reset.inputs = [] ∧ (scheduled .idle .engine).inputs = .engine :: [] := by decide

theorem test_witness_IllegalWordEndsWithIllcmd :
    let s : State := { psel 3 with run := .busy, cmd := 0x01000800 }
    s.run = .busy ∧ s.cmd = 0x01000800 ∧ (∀ i : Instr, ¬ i.selects 0x01000800) ∧ s.inputs = [] ∧
    ({ s with inputs := [.engine] } : State).inputs = .engine :: [] := by
  refine ⟨rfl, rfl, fun i => ?_, rfl, rfl⟩
  cases i <;> simp only [Instr.selects, opcodeRow] <;> decide

theorem test_witness_CommandWriteStartsOrIsDropped :
    (scheduled .idle (.write 0x0008 4 0)).inputs = .write 0x0008 4 0 :: [] ∧
    (scheduled .idle (.write 0x0008 4 0)).run = .idle ∧ (scheduled .busy (.write 0x0008 4 0)).run = .busy ∧
    (scheduled .busy (.write 0x0008 4 0)).inputs = .write 0x0008 4 0 :: [] := by decide

theorem test_witness_BusyEngineRefusesAccesses :
    let r := scheduled .busy (.read 0x0100 4)
    let w := scheduled .busy (.write 0x3FFF 1 7)
    let c := scheduled .busy (.write 0x000C 4 7)
    (r.run = .busy ∧ LegalAccess 0x0100 4 ∧ 0x0100 ≤ 0x0100 ∧ r.inputs = .read 0x0100 4 :: []) ∧
    (w.run = .busy ∧ LegalAccess 0x3FFF 1 ∧ 0x0100 ≤ 0x3FFF ∧ w.inputs = .write 0x3FFF 1 7 :: []) ∧
    (c.run = .busy ∧ LegalAccess 0x000C 4 ∧ 0x000C ≠ 0x0008 ∧ 0x000C ≠ 0x0010 ∧ c.inputs = .write 0x000C 4 7 :: []) := by
  unfold LegalAccess; decide

theorem test_witness_AccessesDoNotDisturbTheCommand :
    exec .nop { State.reset with run := .busy } = .next { State.reset with done := true } := rfl

theorem test_witness_BusErrorHasNoEffect :
    (¬ LegalAccess 0x4000 1 ∧ (scheduled .busy (.read 0x4000 1)).inputs = .read 0x4000 1 :: []) ∧
    (¬ LegalAccess 0x0102 4 ∧ (scheduled .idle (.write 0x0102 4 1)).inputs = .write 0x0102 4 1 :: []) ∧
    (0x00FF < 0x0100 ∧ 1 ≠ 4 ∧ (scheduled .idle (.write 0x00FF 1 1)).inputs = .write 0x00FF 1 1 :: []) := by
  unfold LegalAccess; decide

theorem test_witness_WindowShowsTheMap :
    implemented 0x0100 = true ∧ implemented 0x3FFF = true ∧ 0x0028 ≤ 0x0028 ∧ implemented 0x0028 = false ∧
    implemented 0x0140 = false ∧ implemented 0x0C20 = false ∧ 3 < 4 := by decide

theorem test_witness_ReadReturnsTheWindowBytes :
    (LegalAccess 0x00FC 4 ∧ 0x00FC < 0x0100 ∧ (scheduled .busy (.read 0x00FC 4)).inputs = .read 0x00FC 4 :: []) ∧
    (LegalAccess 0x3FFE 2 ∧ (scheduled .idle (.read 0x3FFE 2)).run = .idle ∧
      (scheduled .idle (.read 0x3FFE 2)).inputs = .read 0x3FFE 2 :: []) := by
  unfold LegalAccess; decide

theorem test_witness_WriteStoresTheBytes :
    let s := scheduled .idle (.write 0x3FFC 4 0xFFFFFFFF)
    LegalAccess 0x3FFC 4 ∧ 0x0100 ≤ 0x3FFC ∧ s.run = .idle ∧ s.inputs = .write 0x3FFC 4 0xFFFFFFFF :: [] := by
  unfold LegalAccess; decide

theorem test_witness_CsrWritesStoreTheirFields :
    ∀ addr ∈ [0x04, 0x0C, 0x14, 0x18, 0x1C, 0x20, 0x24, 0x00, 0x28, 0xFC],
      (scheduled .idle (.write addr 4 0xFFFFFFFF)).run = .idle ∧
      (scheduled .idle (.write addr 4 0xFFFFFFFF)).inputs = .write addr 4 0xFFFFFFFF :: [] := by decide

theorem test_witness_StatusReadsAndClearsItsFields :
    (scheduled .busy (.write 0x0010 4 0x36)).inputs = .write 0x0010 4 0x36 :: [] := by decide

theorem test_witness_ResetRestoresTheResetState : (scheduled .busy .reset).inputs = .reset :: [] := by decide

theorem test_witness_EveryOtherCommandRaisesParam :
    Instr.kemdec ≠ .nop ∧ (∀ m, Instr.kemdec ≠ .wipe m) ∧ (psel 3).cfg.toNat % 4 = 3 ∧
    (Instr.nop = .nop ∨ ∃ m, Instr.nop = .wipe m) ∧ (Instr.wipe 0x7FF = .nop ∨ ∃ m, Instr.wipe 0x7FF = .wipe m) :=
  ⟨by decide, by decide, by decide, .inl rfl, .inr ⟨_, rfl⟩⟩

theorem test_witness_OnlyTheNamedCommandsWrite :
    exec .nop State.reset = .next { State.reset with done := true } ∧ (∀ m, Instr.nop ≠ .wipe m) ∧
    (∀ a b, Instr.nop ≠ .pcteq a b) ∧ (∀ n, Instr.nop ≠ .bcteq n) ∧ Instr.nop ≠ .kemdec ∧ Instr.nop ≠ .pkekg ∧
    Instr.nop ≠ .kemkg ∧ (∀ a, Instr.nop ≠ .pkeenc a) ∧ Instr.nop ≠ .kemenc ∧ (∀ d a h, Instr.nop ≠ .shwt d a h) ∧
    (∀ d a, Instr.nop ≠ .ptosp d a) ∧ (∀ d n, Instr.nop ≠ .srand d n) := by
  simp [exec, execNop, State.complete]; rfl

theorem test_witness_EveryStepKeepsTheMemory :
    MemoryInv { scheduled .idle (.write 0x3001 1 0xFF) with mem := someMemory } ∧
    ∃ t, step { scheduled .idle (.write 0x3001 1 0xFF) with mem := someMemory } = .next t :=
  ⟨⟨by decide, by decide, by decide⟩, ⟨_, rfl⟩⟩

theorem test_witness_EveryStepKeepsTheFlagsAndCsrs :
    let s : State := { psel 2 with err := true, errcode := 5, s0len := 1024, s1len := 1 }
    StatusInv s ∧ CsrInv s ∧ step s = .next s :=
  ⟨⟨by decide, by decide, by decide, by decide⟩, ⟨by decide, by decide, by decide⟩, rfl⟩

/-- The two hypotheses that every statement on a command of the parameter sets has: a set is selected, each of the three; none
is. -/
theorem test_witness_params :
    (psel 0).params = some tiger128 ∧ (psel 1).params = some tiger192 ∧ (psel 2).params = some tiger256 ∧
    (psel 3).cfg.toNat % 4 = 3 := by decide

/-- One command of each row of the opcode map. -/
def oneOfEach : List Instr :=
  [.nop, .wipe 0, .padd .p0 .p0 .p0, .psub .p0 .p0 .p0, .pneg .p0 .p0, .pscale .p0 .p0 0, .psrnd .p0 .p0 0 0,
    .pmuld .p0 .p0 .p0, .pmuls .p0 .p0 .s0, .ptosp .s0 .p0, .pfrsp .p0 .s0, .pcteq .p0 .p0, .sunif .p0 .b0, .shwt .s0 .b0 0,
    .sderive .b0 .b0, .srand .b0 0, .xefenc .b0 .b0, .xefdec .b0 .b0, .d2enc .p0 .b0, .d2dec .b0 .p0, .pack .p0 0,
    .unpack .p0 0, .bcteq 0, .bsel .b0 .b0 .b0 0, .pkekg, .pkeenc .b0, .pkedec, .kemkg, .kemenc, .kemdec]

/-- No row of the opcode map has all 24 operand bits free. -/
theorem test_no_row_of_ones :
    ∀ r ∈ oneOfEach.map opcodeRow, ∀ opc : Fin 256, BitVec.ofNat 32 (opc.val * 2 ^ 24 + 0xFFFFFF) &&& r.mask ≠ r.pattern := by
  decide +kernel

/-- The hypotheses of `RaisesIllcmd`, met for every opcode by the word with all operand bits set. -/
theorem test_witness_RaisesIllcmd :
    ∀ opc, opc < 256 →
      let s : State := { State.reset with run := .busy, cmd := BitVec.ofNat 32 (opc * 2 ^ 24 + 0xFFFFFF) }
      s.run = .busy ∧ s.cmd.toNat / 2 ^ 24 = opc ∧ ∀ i : Instr, ¬ i.selects s.cmd := by
  refine fun opc h => ⟨rfl, by simp only [BitVec.toNat_ofNat]; omega, fun i => ?_⟩
  unfold Instr.selects
  cases i <;> exact test_no_row_of_ones _ (by simp [oneOfEach, opcodeRow]) ⟨opc, h⟩

theorem test_witness_NopCompletesAndWipeZeroes :
    (0x7FF : BitVec 11).getLsbD 0 = true ∧ (0x7FF : BitVec 11).getLsbD 10 = true ∧ (0x000 : BitVec 11).getLsbD 0 = false := by
  decide

theorem test_witness_PaddAndPsubCombineCoefficients :
    (psel 0).params = some tiger128 ∧ 511 < tiger128.n ∧ tiger128.n ≤ 512 ∧ 1023 < 1024 := by decide

theorem test_witness_PnegAndPscaleMapCoefficients :
    (psel 1).params = some tiger192 ∧ 1023 < tiger192.n ∧ (psel 0).params = some tiger128 ∧ tiger128.n ≤ 512 := by decide

theorem test_witness_PsrndRoundsCoefficients :
    (psel 0).params = some tiger128 ∧ 2 < 16 ∧ 1 < 16 ∧ ¬ (1 ≤ 1 ∧ 1 ≤ 8 ∧ 2 ≤ 1) ∧ ¬ (1 ≤ 9 ∧ 9 ≤ 8 ∧ 9 ≤ 9) ∧
    ¬ (1 ≤ 0 ∧ 0 ≤ 8 ∧ 0 ≤ 0) ∧ (1 ≤ 8 ∧ 8 ≤ 8 ∧ 8 ≤ 8) ∧ (1 ≤ 1 ∧ 1 ≤ 8 ∧ 0 ≤ 1) := by decide

theorem test_witness_PmuldMultipliesInTheRing : (psel 2).params = some tiger256 ∧ 1023 < tiger256.n := by decide

theorem test_witness_PmulsAddsTheRotatedTerms :
    let s : State := { psel 1 with s1len := 1024 }
    s.params = some tiger192 ∧ s.sparseLen .s1 ≤ 1024 ∧ 1023 < tiger192.n := by decide

theorem test_witness_PtospListsTheTernaryCoefficients :
    (psel 0).params = some tiger128 ∧ (bytesAt 0x21FF [255] (psel 0)).mem.read (0x2000 + 511) = 255 ∧ 511 < tiger128.n := by
  decide +kernel

theorem test_witness_PfrspWritesTheListedCoefficients :
    let s : State := { bytesAt 0x3000 [5, 0, 5, 0x80] (psel 0) with s0len := 2 }
    let idx : Nat → Nat := fun m =>
      ((s.mem.read (SReg.s0.base + 2 * m)).toNat + 256 * (s.mem.read (SReg.s0.base + 2 * m + 1)).toNat) % 1024 % 512
    s.params = some tiger128 ∧ s.sparseLen .s0 ≤ 1024 ∧ 1 < s.sparseLen .s0 ∧
    (∀ m', 1 < m' → m' < s.sparseLen .s0 → idx m' ≠ idx 1) ∧ (∀ m, m < s.sparseLen .s0 → idx m ≠ 1023) := by
  refine ⟨by decide, by decide, by decide, fun m' h1 h2 => ?_, by decide +kernel⟩
  exact absurd (show m' < 2 from h2) (by omega)

theorem test_witness_PcteqComparesTheCoefficients : (psel 0).params = some tiger128 ∧ 511 < tiger128.n := by decide

theorem test_witness_SunifExpandsTheSeed :
    (psel 0).params = some tiger128 ∧ 511 < tiger128.n ∧ tiger128.n ≤ 512 := by decide

theorem test_witness_ShwtSamplesTheList :
    (psel 0).params = some tiger128 ∧ 513 < 2048 ∧ tiger128.n < 513 ∧ 512 ≤ tiger128.n ∧ 0 ≤ tiger128.n ∧ 511 < 512 ∧
    2 * 512 ≤ 1024 ∧ 2047 < 2048 := by decide

theorem test_witness_SamplerPositionsAreDistinct : 160 ≤ 512 ∧ 511 < 512 ∧ 512 ≤ 512 := by decide

theorem test_witness_SderiveHashesSeedAndCounter : (psel 0).params = some tiger128 ∧ 31 < 32 ∧ 32 ≤ 32 := by decide

theorem test_witness_SrandWritesTheDraw :
    let s : State := { psel 0 with entropy := counting 64 }
    s.params = some tiger128 ∧ 127 < 128 ∧ 64 < 65 ∧ (1 ≤ 64 ∧ 64 ≤ 64) ∧
    s.entropy.read 64 = (some ((List.range 64).map (BitVec.ofNat 8)), ⟨[none], 0⟩) ∧
    EntropyPort.read 64 (counting 63) = (none, ⟨[], 0⟩) ∧ EntropyPort.read 1 (counting 1) = (some [0], ⟨[none], 0⟩) := by
  decide +kernel

theorem test_witness_EntropyPortReadsItsStream :
    ([1, 2] : List Byte).length < 3 ∧
    (EntropyPort.reads [2, 0, 1] ⟨[some 7, some 8, some 9, none], 4⟩).1 = some [[7, 8], [], [9]] := by decide

theorem test_witness_XefencWritesTheCodeword :
    (psel 2).params = some tiger256 ∧ 511 < 2 * tiger256.d ∧ 31 < tiger256.msgBytes ∧ tiger256.cwBytes ≤ 64 ∧
    (psel 0).params = some tiger128 ∧ tiger128.cwBytes ≤ 32 ∧ 63 < 64 := by decide

theorem test_witness_XefdecWritesTheMessage :
    (psel 0).params = some tiger128 ∧ 127 < tiger128.d ∧ tiger128.msgBytes ≤ 16 ∧ 63 < 64 ∧
    (List.replicate 128 false).length = tiger128.d ∧
    ∀ i, i < 2 * tiger128.d → (psel 0).bitAt BReg.b1.base i =
      (xefEncode (psel 0).xef tiger128.d tiger128.f (List.replicate 128 false)).getD i false := by
  refine ⟨by decide, by decide, by decide, by decide, List.length_replicate, ?_⟩
  have h : xefEncode (psel 0).xef tiger128.d tiger128.f (List.replicate 128 false) = List.replicate 256 false := by decide +kernel
  intro i _
  rw [h, List.getD_eq_getElem?_getD, List.getElem?_replicate]
  split <;> simp [State.bitAt, psel, State.reset, Memory.read]

theorem test_witness_XefDefaultParityIsTheRegisterSum :
    ((128 = 128 ∧ 3 = 3) ∧ (List.replicate 128 true).length = 128 ∧ 127 < 128 ∧ (List.replicate 256 true).length = 2 * 128) ∧
    ((256 = 256 ∧ 5 = 5) ∧ (List.replicate 256 true).length = 256 ∧ (List.replicate 512 true).length = 2 * 256) := by
  simp only [List.length_replicate]; decide

theorem test_witness_XefDefaultCorrectsUpToFErrors :
    (List.replicate 128 true).length = 128 ∧
    (List.replicate 2 true ++ List.replicate 253 false ++ [true]).length = 2 * 128 ∧
    (List.replicate 2 true ++ List.replicate 253 false ++ [true]).count true ≤ 3 ∧
    (List.replicate 256 false).length = 256 ∧ (List.replicate 5 true ++ List.replicate 507 false).length = 2 * 256 ∧
    (List.replicate 5 true ++ List.replicate 507 false).count true ≤ 5 ∧
    ((128 = 128 ∧ 3 = 3) ∨ (128 = 256 ∧ 3 = 5)) ∧ ((256 = 128 ∧ 5 = 3) ∨ (256 = 256 ∧ 5 = 5)) := by decide +kernel

theorem test_witness_D2encRepeatsEachBit :
    (psel 0).params = some tiger128 ∧ 255 < 2 * tiger128.d ∧ 4 * tiger128.d ≤ 512 ∧ 1023 < 1024 := by decide

theorem test_witness_D2decThresholdsEachPair :
    (psel 0).params = some tiger128 ∧ 255 < 2 * tiger128.d ∧ tiger128.cwBytes ≤ 32 ∧ 63 < 64 := by decide

theorem test_witness_PackWritesTheBitStream :
    let s : State := { psel 0 with arg := 1280 }
    let t : State := { psel 0 with arg := 1281 }
    s.params = some tiger128 ∧ (1 ≤ 8 ∧ 8 ≤ 8 ∧ s.arg.toNat / 4096 = 0 ∧ s.arg.toNat % 4096 + 512 * 8 / 8 ≤ 1792) ∧
    t.params = some tiger128 ∧ ¬ (1 ≤ 8 ∧ 8 ≤ 8 ∧ t.arg.toNat / 4096 = 0 ∧ t.arg.toNat % 4096 + 512 * 8 / 8 ≤ 1792) ∧
    ¬ (1 ≤ 0 ∧ 0 ≤ 8) ∧ ¬ (1 ≤ 9 ∧ 9 ≤ 8) ∧ 4095 < tiger128.n * 8 := by decide

theorem test_witness_UnpackReadsTheBitStream :
    let s : State := { psel 2 with arg := 768 }
    let t : State := { psel 2 with arg := 0x1000 }
    s.params = some tiger256 ∧ (1 ≤ 8 ∧ 8 ≤ 8 ∧ s.arg.toNat / 4096 = 0 ∧ s.arg.toNat % 4096 + 1024 * 8 / 8 ≤ 1792) ∧
    t.params = some tiger256 ∧ ¬ (1 ≤ 1 ∧ 1 ≤ 8 ∧ t.arg.toNat / 4096 = 0 ∧ t.arg.toNat % 4096 + 1024 * 1 / 8 ≤ 1792) ∧
    1023 < tiger256.n ∧ 0 < 8 - 7 ∧ 6 < 7 := by decide

theorem test_witness_CompressionLaws :
    (1 ≤ 7 ∧ 7 ≤ 8 ∧ 8 ∣ (List.replicate 8 (0xFF : Byte)).length * 7) ∧
    (1 ≤ 1 ∧ 1 ≤ 8 ∧ 8 * ([0x96] : List Byte).length = 8 * 1) := by decide

theorem test_witness_BcteqComparesTheBuffers :
    (psel 0).params = some tiger128 ∧ 2047 < 2048 ∧ 1792 < 1793 ∧ 1792 ≤ 1792 ∧ 0 ≤ 1792 := by decide

theorem test_witness_BselSelectsByEq :
    (psel 0).params = some tiger128 ∧ 127 < 128 ∧ 64 < 65 ∧ (1 ≤ 1 ∧ 1 ≤ 64) ∧ (1 ≤ 64 ∧ 64 ≤ 64) ∧ 63 < 64 := by decide

theorem test_witness_PkekgGeneratesTheKeys :
    let s : State := { psel 0 with entropy := counting 64 }
    s.params = some tiger128 ∧
    s.entropy.reads [32, 32] = (some [(List.range 32).map (BitVec.ofNat 8),
      (List.range 32).map fun k => BitVec.ofNat 8 (32 + k)], ⟨[none], 0⟩) ∧
    EntropyPort.reads [32, 32] (counting 63) = (none, ⟨[], 0⟩) := by decide +kernel

theorem test_witness_PkeencEncryptsTheMessage :
    let s : State := { psel 0 with pklen := 480 }
    s.params = some tiger128 ∧ s.pklen.toNat = tiger128.pkBytes ∧ (psel 0).pklen.toNat ≠ tiger128.pkBytes := by decide

theorem test_witness_PkedecDecryptsTheMessage :
    let s : State := { psel 0 with sklen := 512, ctlen := 1024 }
    let t : State := { psel 0 with sklen := 528, ctlen := 1024 }
    s.params = some tiger128 ∧ s.sklen.toNat = tiger128.n ∧ s.ctlen.toNat = tiger128.ctBytes ∧
    t.sklen.toNat = tiger128.skBytes ∧ t.ctlen.toNat = tiger128.ctBytes ∧
    ¬ (((psel 0).sklen.toNat = tiger128.n ∨ (psel 0).sklen.toNat = tiger128.skBytes) ∧
      (psel 0).ctlen.toNat = tiger128.ctBytes) ∧ 127 < tiger128.d ∧ tiger128.msgBytes ≤ 16 := by decide

theorem test_witness_KemkgGeneratesTheKeys :
    let s : State := { psel 0 with entropy := counting 80 }
    s.params = some tiger128 ∧
    s.entropy.reads [32, 32, tiger128.uSize] = (some [(List.range 32).map (BitVec.ofNat 8),
      (List.range 32).map (fun k => BitVec.ofNat 8 (32 + k)), (List.range 16).map fun k => BitVec.ofNat 8 (64 + k)],
      ⟨[none], 0⟩) ∧
    EntropyPort.reads [32, 32, tiger128.uSize] (counting 64) = (none, ⟨[], 0⟩) := by decide +kernel

theorem test_witness_KemencEncapsulates :
    let s : State := { psel 0 with pklen := 480, entropy := counting 16 }
    s.params = some tiger128 ∧ s.pklen.toNat = tiger128.pkBytes ∧ (psel 0).pklen.toNat ≠ tiger128.pkBytes ∧
    s.entropy.read tiger128.msgBytes = (some ((List.range 16).map (BitVec.ofNat 8)), ⟨[none], 0⟩) ∧
    EntropyPort.read tiger128.msgBytes (counting 15) = (none, ⟨[], 0⟩) := by decide +kernel

theorem test_witness_KemdecDecapsulates :
    let s : State := { psel 1 with pklen := 928, sklen := 1056, ctlen := 1792 }
    s.params = some tiger192 ∧ s.pklen.toNat = tiger192.pkBytes ∧ s.sklen.toNat = tiger192.skBytes ∧
    s.ctlen.toNat = tiger192.ctBytes ∧
    ¬ ((psel 1).pklen.toNat = tiger192.pkBytes ∧ (psel 1).sklen.toNat = tiger192.skBytes ∧
      (psel 1).ctlen.toNat = tiger192.ctBytes) := by decide

theorem test_witness_RingLaws :
    ([1, 2, 3, 4] : List Byte).length = ([5, 6, 7, 255] : List Byte).length ∧
    ([1, 2, 3, 4] : List Byte).length = ([9, 0, 0, 128] : List Byte).length ∧ 2 ≤ ([1, 2, 3, 4] : List Byte).length := by
  decide

theorem test_witness_SparseProductIsTheSchoolbookProduct :
    let d : List Byte := [1, 2, 3, 4]
    let s : List Term := [⟨3, .minus⟩, ⟨0, .plus⟩]
    (s.map Term.idx).Nodup ∧ ∀ x ∈ s, x.idx < d.length := by decide

theorem test_witness_RecoveredCoefficientIsNearest : 2 * 1 ≤ ([63, 64, 191, 192] : List Byte).length := by decide

theorem test_witness_ParameterSetsAreValid : paramsOf 0 = some tiger128 ∧ paramsOf 2 = some tiger256 ∧ 3 ≤ 3 := by
  decide +kernel

/-! ### The zero keys: what decrypts under them, whatever the hash streams are -/

/-- `n` zero bytes. -/
def zeros (n : Nat) : List Byte := List.replicate n 0

theorem zeros_length (n : Nat) : (zeros n).length = n := List.length_replicate

theorem zeros_getD (n k : Nat) : (zeros n).getD k 0 = 0 := by
  rw [zeros, List.getD_eq_getElem?_getD, List.getElem?_replicate]; split <;> rfl

theorem eq_zeros (x : List Byte) (n : Nat) (hx : x.length = n) (h : ∀ k, k < n → x.getD k 0 = 0) : x = zeros n :=
  ext_getD x (zeros n) n hx (by simp [zeros]) fun k hk => by rw [h k hk, zeros_getD]

theorem rotate_zeros (n j : Nat) : rotate (zeros n) j = zeros n := by
  simp only [rotate, zeros, List.length_replicate, List.drop_replicate, List.take_replicate, List.map_replicate]
  rw [show (-(0 : Byte)) = 0 from rfl, ← List.replicate_add]
  congr 1; omega

theorem mulSparse_zeros (n : Nat) (l : List Term) : mulSparse (zeros n) l = zeros n := by
  have h : ∀ t : Term, polyAdd (zeros n) ((rotate (zeros n) t.idx).map t.sgn.apply) = zeros n := by
    intro t
    rw [rotate_zeros, zeros, List.map_replicate, polyAdd, List.zipWith_replicate]
    cases t.sgn <;> simp [Sign.apply]
  rw [mulSparse]
  induction l with
  | nil => simp [zeros]
  | cons t l ih =>
    rw [List.foldl_cons, show List.replicate (zeros n).length (0 : Byte) = zeros n by simp [zeros], h t]
    rw [show List.replicate (zeros n).length (0 : Byte) = zeros n by simp [zeros]] at ih
    exact ih

theorem toSparse_zeros (n : Nat) : toSparse (zeros n) = [] := by
  rw [toSparse, List.filterMap_eq_nil_iff]
  intro c hc
  have : c.1 = 0 := by
    have := List.mem_zipIdx hc
    simp [zeros] at this
    exact this.2
  rw [this]; rfl

theorem polySub_zeros (a : List Byte) (n : Nat) (h : a.length = n) : polySub a (zeros n) = a :=
  ext_getD _ _ n (by simp [zeros, h]) h fun k hk => by
    rw [getD_polySub _ _ _ (by omega) (by simpa [zeros] using hk), zeros_getD]; simp

/-- The secret 0 leaves the second half of the ciphertext. -/
theorem diff_zero (ct : List Byte) : pkeDiff tiger128 (zeros 512) ct = ctSecond tiger128 ct := by
  have h1 : (ctSecond tiger128 ct).length = 512 := by simp [ctSecond]; rfl
  have h2 : (ctFirst tiger128 ct).length = 512 := by simp [ctFirst]; rfl
  have h3 : mulSparse (ctFirst tiger128 ct) [] = zeros 512 := by rw [mulSparse, h2]; rfl
  rw [pkeDiff, toSparse_zeros, h3, polySub_zeros _ 512 h1]

theorem decrypt_zero (code : XefCode) (ct : List Byte) :
    pkeDecrypt code tiger128 (zeros 512) ct = eccDecode code tiger128 (pkeRecover (ctSecond tiger128 ct)) := by
  rw [pkeDecrypt, diff_zero]

theorem decompress_compress_8 (a : List Byte) : decompress (compress a 8) a.length 8 = a := by
  refine ext_getD _ _ a.length (by simp) rfl fun k hk => BitVec.eq_of_getLsbD_eq fun j hj => ?_
  have h1 := bit_decompress_high (compress a 8) a.length 8 k j (by omega) hk hj
  have h2 := bit_compress a 8 (k * 8 + j) (by omega) (by omega) (by omega)
  rw [show 8 - 8 + j = j by omega] at h1
  rw [h1, h2, show (k * 8 + j) / 8 = k by omega, show 8 - 8 + (k * 8 + j) % 8 = j by omega]

theorem fromSparse_values (n : Nat) (l : List Term) (k : Nat) :
    (fromSparse n l).getD k 0 = 0 ∨ (fromSparse n l).getD k 0 = 1 ∨ (fromSparse n l).getD k 0 = 255 := by
  have key : ∀ (l : List Term) (a : List Byte), (a.getD k 0 = 0 ∨ a.getD k 0 = 1 ∨ a.getD k 0 = 255) →
      ((l.foldl (fun a t => a.set t.idx t.sgn.coeff) a).getD k 0 = 0 ∨
       (l.foldl (fun a t => a.set t.idx t.sgn.coeff) a).getD k 0 = 1 ∨
       (l.foldl (fun a t => a.set t.idx t.sgn.coeff) a).getD k 0 = 255) := by
    intro l
    induction l with
    | nil => intro a h; exact h
    | cons t l ih =>
      intro a h
      refine ih _ ?_
      simp only [List.getD_eq_getElem?_getD, List.getElem?_set] at h ⊢
      split
      · split
        · cases t.sgn
          · exact .inr (.inl rfl)
          · exact .inr (.inr rfl)
        · exact .inl rfl
      · exact h
  exact key l _ (.inl (zeros_getD n k))

theorem ctSecond_packCt (c1 c2 : List Byte) (h1 : c1.length = 512) (h2 : c2.length = 512) :
    ctSecond tiger128 (packCt tiger128 c1 c2) = c2 := by
  rw [ctSecond, packCt, List.drop_left' (by rw [compress_length, h1]; rfl)]
  have := decompress_compress_8 c2
  rw [h2] at this; exact this

theorem getD_pkeRecover (a : List Byte) (k : Nat) (h : k < a.length) :
    (pkeRecover a).getD k 0 = BitVec.ofNat 8 (((a.getD k 0).toNat * 2 + 256 / 2) / 256) * 128 := by
  simp only [pkeRecover, polyScale, scaleRound, List.map_map, List.getD_eq_getElem?_getD, List.getElem?_map]
  rw [List.getElem?_eq_getElem h]; rfl

theorem d2Encode_values (w : List Bool) (n k : Nat) (h : k < n) : (d2Encode w n).getD k 0 = 0 ∨ (d2Encode w n).getD k 0 = 128 := by
  rw [getD_d2Encode _ n _ h]
  split
  · unfold d2Amplitude; split
    · exact .inr rfl
    · exact .inl rfl
  · exact .inl rfl

theorem d2Decode_d2Encode (w : List Bool) (n : Nat) (h : 2 * w.length ≤ n) : d2Decode (d2Encode w n) w.length = w := by
  apply List.ext_getElem (by simp)
  intro i h1 h2
  simp only [d2Decode, List.getElem_map, List.getElem_range]
  rw [getD_d2Encode _ _ _ (by omega), getD_d2Encode _ _ _ (by omega), if_pos (by omega), if_pos (by omega),
    show 2 * i / 2 = i by omega, show (2 * i + 1) / 2 = i by omega, List.getD_eq_getElem _ _ h2]
  generalize w[i] = b
  revert b; decide

/-- With the zero public key and the zero secret, decryption returns what was encrypted, whatever the hash streams are. -/
theorem decrypt_encrypt_zero (code : XefCode) (msg coin : List Byte) :
    pkeDecrypt code tiger128 (zeros 512) (pkeEncrypt code tiger128 (zeros 480) msg coin) =
      eccDecode code tiger128 (eccEncode code tiger128 msg) := by
  rw [decrypt_zero]
  congr 1
  have hl2 := pkeC2_length code tiger128 (zeros 480) msg coin
  have hm : (eccEncode code tiger128 msg).length = 512 := by simp [eccEncode]; rfl
  have h1 : ctSecond tiger128 (pkeEncrypt code tiger128 (zeros 480) msg coin) = pkeC2 code tiger128 (zeros 480) msg coin :=
    ctSecond_packCt _ _ (pkeC1_length _ _ _) hl2
  have h2 : polyScale (pkPoly tiger128 (zeros 480)) (BitVec.ofNat 8 (256 / tiger128.p)) = zeros 512 := by
    refine eq_zeros _ 512 (by simp [pkPoly]; rfl) fun k hk => ?_
    have : (pkPoly tiger128 (zeros 480)).getD k 0 = 0 := by
      show (decompress ((zeros 480).drop 32) 512 7).getD k 0 = 0
      rw [show (zeros 480).drop 32 = zeros 448 from List.drop_replicate]
      refine BitVec.eq_of_getLsbD_eq fun j hj => ?_
      by_cases h : j < 1
      · rw [bit_decompress_low _ 512 7 k j hk h]; simp
      · have := bit_decompress_high (zeros 448) 512 7 k (j - 1) (by omega) hk (by omega)
        rw [show 8 - 7 + (j - 1) = j by omega, zeros_getD] at this
        rw [this]; simp
    have hlen : (pkPoly tiger128 (zeros 480)).length = 512 := by simp [pkPoly]; rfl
    rw [polyScale, List.getD_eq_getElem?_getD, List.getElem?_map, List.getElem?_eq_getElem (by omega)]
    rw [List.getD_eq_getElem _ _ (by omega)] at this
    rw [this]; rfl
  rw [h1, pkeC2, h2, mulSparse_zeros 512]
  have he := fromSparse_values tiger128.n (sampleSparse (derive coin 1) tiger128.n tiger128.he)
  have hel : (fromSparse tiger128.n (sampleSparse (derive coin 1) tiger128.n tiger128.he)).length = 512 := fromSparse_length _ _
  rw [pkeError]
  generalize fromSparse tiger128.n (sampleSparse (derive coin 1) tiger128.n tiger128.he) = e at he hel ⊢
  have hb : ∀ k, k < 512 → (eccEncode code tiger128 msg).getD k 0 = 0 ∨ (eccEncode code tiger128 msg).getD k 0 = 128 :=
    fun k hk => d2Encode_values _ _ _ hk
  generalize eccEncode code tiger128 msg = m at hm hb ⊢
  have hz : polyAdd m (zeros 512) = m := ext_getD _ _ 512 (by rw [polyAdd_length, zeros_length, hm]; rfl) hm fun k hk => by
    rw [getD_polyAdd _ _ _ (by omega) (by rw [zeros_length]; exact hk), zeros_getD]; simp
  rw [hz]
  refine ext_getD _ _ 512 (by simp [pkeRecover, hm, hel]) hm fun k hk => ?_
  have hs : (polyAdd m e).getD k 0 = m.getD k 0 + e.getD k 0 := getD_polyAdd _ _ _ (by omega) (by omega)
  have hl : k < (polyAdd m e).length := by simp [hm, hel, hk]
  rw [getD_pkeRecover _ _ hl, hs]
  rcases hb k hk with h | h <;> rcases he k with h' | h' | h' <;> rw [h, h'] <;> decide

/-- The all-zero message encodes and decodes to itself. -/
theorem ecc_zero : eccDecode .xefDefault tiger128 (eccEncode .xefDefault tiger128 (zeros 16)) = zeros 16 := by
  have hl : (xefEncode .xefDefault tiger128.d tiger128.f (bitsOf (zeros 16) tiger128.d)).length = 2 * tiger128.d := by
    rw [xefEncode_length, bitsOf_length _ _ (by rw [zeros_length]; decide)]; rfl
  rw [eccDecode, eccEncode, ← hl, d2Decode_d2Encode _ _ (by rw [hl]; decide)]
  decide +kernel

/-- The zero keys and the zero message meet the first clause; of two ciphertexts that decrypt alike one meets the second. -/
theorem test_witness_DecapsulationOfAnEncapsulation :
    (zeros 528).length = tiger128.skBytes ∧ (zeros 480).length = tiger128.pkBytes ∧ (zeros 16).length = tiger128.msgBytes ∧
    (pkeEncrypt .xefDefault tiger128 (zeros 480) (zeros 16) (sha3 (zeros 16))).length = tiger128.ctBytes ∧
    pkeDecrypt .xefDefault tiger128 ((zeros 528).take tiger128.n)
      (pkeEncrypt .xefDefault tiger128 (zeros 480) (zeros 16) (sha3 (zeros 16))) = zeros 16 ∧
    ∃ c : List Byte, c.length = tiger128.ctBytes ∧
      c ≠ pkeEncrypt .xefDefault tiger128 (zeros 480) (pkeDecrypt .xefDefault tiger128 ((zeros 528).take tiger128.n) c)
        (sha3 (pkeDecrypt .xefDefault tiger128 ((zeros 528).take tiger128.n) c)) := by
  have ht : (zeros 528).take tiger128.n = zeros 512 := List.take_replicate
  have hc : ∀ (x : Byte) (l : List Byte), ctSecond tiger128 (x :: l) = decompress (l.drop 511) 512 8 := fun x l => by
    rw [ctSecond, show tiger128.c1Bytes = 511 + 1 by decide, List.drop_succ_cons]; rfl
  have hl : ∀ x : Byte, (x :: zeros 1023).length = tiger128.ctBytes := fun x => by
    rw [List.length_cons, zeros_length]; rfl
  have hd : ∀ x : Byte, pkeDecrypt .xefDefault tiger128 (zeros 512) (x :: zeros 1023) =
      pkeDecrypt .xefDefault tiger128 (zeros 512) (0 :: zeros 1023) := fun x => by
    rw [decrypt_zero, decrypt_zero, hc, hc]
  refine ⟨List.length_replicate, List.length_replicate, List.length_replicate, pkeEncrypt_length _ _ _ _ _, ?_, ?_⟩
  · rw [ht, decrypt_encrypt_zero, ecc_zero]
  · rw [ht]
    by_cases h : (0 :: zeros 1023) = pkeEncrypt .xefDefault tiger128 (zeros 480)
        (pkeDecrypt .xefDefault tiger128 (zeros 512) (0 :: zeros 1023))
        (sha3 (pkeDecrypt .xefDefault tiger128 (zeros 512) (0 :: zeros 1023)))
    · refine ⟨1 :: zeros 1023, hl _, ?_⟩
      rw [hd 1, ← h]
      intro e
      exact absurd (List.cons.inj e).1 (by decide)
    · exact ⟨_, hl _, h⟩

/-- A codeword with `f` wrong bits, which the zero secret decrypts. -/
theorem test_witness_DecryptionCorrectsUpToFErrors :
    let w := List.replicate 3 true ++ List.replicate 253 false
    let ct := packCt tiger128 (zeros 512) (d2Encode w 512)
    (zeros 16).length = tiger128.msgBytes ∧
    (xorBits (xefEncode .xefDefault tiger128.d tiger128.f (bitsOf (zeros 16) tiger128.d))
      (d2Decode (pkeRecover (pkeDiff tiger128 (zeros 512) ct)) (2 * tiger128.d))).count true ≤ tiger128.f := by
  intro w ct
  refine ⟨zeros_length 16, ?_⟩
  have hw : w.length = 256 := by
    simp only [w, List.length_append, List.length_replicate]
  have hd : pkeDiff tiger128 (zeros 512) ct = d2Encode w 512 := by
    rw [diff_zero, ctSecond_packCt _ _ (zeros_length _) (d2Encode_length _ _)]
  have hr : pkeRecover (d2Encode w 512) = d2Encode w 512 :=
    ext_getD _ _ 512 (by simp [pkeRecover]) (by simp) fun k hk => by
      rw [getD_pkeRecover _ _ (by simpa using hk)]
      rcases d2Encode_values w 512 k hk with h | h <;> rw [h] <;> decide
  rw [hd, hr, show 2 * tiger128.d = w.length from hw.symm, d2Decode_d2Encode _ _ (by omega)]
  decide +kernel

end Sys2Proof.Tests
end

section
/-! The entropy port (R15, R263, R248): one rule per item drawn, what a draw of a known stream gives, and the draws of one
command as a single draw of all their bytes. -/

namespace Sys2Proof.Machine

variable {e e' : EntropyPort} {m n : Nat} {ns : List Nat} {b : Byte} {x : List Byte}

/-! ## One item, one draw -/

@[simp] theorem EntropyPort.read_zero (e : EntropyPort) : e.read 0 = (some [], e) := rfl

theorem EntropyPort.read_succ_of_byte (h : e.next = (some b, e')) (n : Nat) :
    e.read (n + 1) = ((e'.read n).1.map (b :: ·), (e'.read n).2) := by
  rw [EntropyPort.read, h]
  rcases hr : e'.read n with ⟨_ | bs, e''⟩ <;> simp [hr]

theorem EntropyPort.read_succ_of_failure (h : e.next = (none, e')) (n : Nat) : e.read (n + 1) = (none, e') := by
  rw [EntropyPort.read, h]

@[simp] theorem EntropyPort.reads_nil (e : EntropyPort) : e.reads [] = (some [], e) := rfl

theorem EntropyPort.reads_cons_of_bytes (h : e.read n = (some x, e')) (ns : List Nat) :
    e.reads (n :: ns) = ((e'.reads ns).1.map (x :: ·), (e'.reads ns).2) := by
  rw [EntropyPort.reads, h]
  rcases hr : e'.reads ns with ⟨_ | xs, e''⟩ <;> simp [hr]

theorem EntropyPort.reads_cons_of_failure (h : e.read n = (none, e')) (ns : List Nat) : e.reads (n :: ns) = (none, e') := by
  rw [EntropyPort.reads, h]

/-! ## A draw in two parts -/

/-- A draw goes on where its first part ended. -/
theorem EntropyPort.read_add_of_bytes (h : e.read m = (some x, e')) (n : Nat) :
    e.read (m + n) = ((e'.read n).1.map (x ++ ·), (e'.read n).2) := by
  induction m generalizing e x with
  | zero =>
    obtain ⟨rfl, rfl⟩ : [] = x ∧ e = e' := by simpa using h
    simp
  | succ m ih =>
    rw [Nat.succ_add]
    rcases hn : e.next with ⟨_ | b, e₁⟩
    · simp [EntropyPort.read_succ_of_failure hn] at h
    · rw [EntropyPort.read_succ_of_byte hn] at h ⊢
      rcases hm : e₁.read m with ⟨_ | y, e₂⟩
      · simp [hm] at h
      · obtain ⟨rfl, rfl⟩ : b :: y = x ∧ e₂ = e' := by simpa [hm] using h
        simp [ih hm, Function.comp_def]

/-- A failure in the first part of a draw ends the draw. -/
theorem EntropyPort.read_add_of_failure (h : e.read m = (none, e')) (n : Nat) : e.read (m + n) = (none, e') := by
  induction m generalizing e with
  | zero => simp at h
  | succ m ih =>
    rw [Nat.succ_add]
    rcases hn : e.next with ⟨_ | b, e₁⟩
    · rwa [EntropyPort.read_succ_of_failure hn] at h ⊢
    · rw [EntropyPort.read_succ_of_byte hn] at h ⊢
      have hm : e₁.read m = (none, e') := by simpa [Prod.ext_iff] using h
      rw [ih hm, Option.map_none]

/-! ## Draws of a known stream -/

/-- The injected bytes come in order. -/
theorem EntropyPort.read_injected (ys : List Byte) (rest : List (Option Byte)) (c : Nat) :
    EntropyPort.read ys.length ⟨ys.map some ++ rest, c⟩ = (some ys, ⟨rest, c⟩) := by
  induction ys with
  | nil => rfl
  | cons y ys ih =>
    have hn : EntropyPort.next ⟨(y :: ys).map some ++ rest, c⟩ = (some y, ⟨ys.map some ++ rest, c⟩) := rfl
    rw [List.length_cons, EntropyPort.read_succ_of_byte hn, ih, Option.map_some]

/-- An injected failure ends the draw that reaches it and is consumed by it (log 6). -/
theorem EntropyPort.read_injected_failure (ys : List Byte) (rest : List (Option Byte)) (c : Nat) (h : ys.length < n) :
    EntropyPort.read n ⟨ys.map some ++ none :: rest, c⟩ = (none, ⟨rest, c⟩) := by
  obtain ⟨k, rfl⟩ := Nat.exists_eq_add_of_lt h
  have hn : EntropyPort.next ⟨none :: rest, c⟩ = (none, ⟨rest, c⟩) := rfl
  rw [Nat.add_assoc, EntropyPort.read_add_of_bytes (EntropyPort.read_injected ys (none :: rest) c),
    EntropyPort.read_succ_of_failure hn, Option.map_none]

/-- With nothing injected the port gives the source's items from its counter on. The counter passes the bytes before the
first failure and the failing item, if the draw reaches one. -/
theorem EntropyPort.read_source (m c : Nat) :
    EntropyPort.read m ⟨[], c⟩ =
      ((List.range m).mapM fun k => Config.entropyItem (c + k),
        ⟨[], c + min m (((List.range m).takeWhile fun k => (Config.entropyItem (c + k)).isSome).length + 1)⟩) := by
  induction m generalizing c with
  | zero => simp
  | succ m ih =>
    have hn : EntropyPort.next ⟨[], c⟩ = (Config.entropyItem c, ⟨[], c + 1⟩) := rfl
    rcases hc : Config.entropyItem c with _ | b <;> rw [hc] at hn
    · simp [EntropyPort.read_succ_of_failure hn, List.range_succ_eq_map, hc]
    · rw [EntropyPort.read_succ_of_byte hn, ih]
      simp [List.range_succ_eq_map, List.takeWhile_map, List.mapM_map, Option.map_eq_bind, Function.comp_def, hc,
        Nat.add_assoc, Nat.add_comm 1]

/-! ## The draws of one command as one draw -/

/-- The draws of one command leave the port where one draw of all their bytes does, and give its bytes, cut in pieces. -/
theorem EntropyPort.reads_eq_read_sum (ns : List Nat) (e : EntropyPort) :
    (e.reads ns).2 = (e.read ns.sum).2 ∧ (e.reads ns).1.map List.flatten = (e.read ns.sum).1 := by
  induction ns generalizing e with
  | nil => simp
  | cons n ns ih =>
    rw [List.sum_cons]
    rcases hn : e.read n with ⟨_ | x, e₁⟩
    · simp [EntropyPort.reads_cons_of_failure hn, EntropyPort.read_add_of_failure hn]
    · obtain ⟨hport, hbytes⟩ := ih e₁
      simp [EntropyPort.reads_cons_of_bytes hn, EntropyPort.read_add_of_bytes hn, ← hport, ← hbytes, Function.comp_def]

theorem EntropyPort.reads_of_read_sum_failure (h : e.read ns.sum = (none, e')) : e.reads ns = (none, e') := by
  obtain ⟨hport, hbytes⟩ := EntropyPort.reads_eq_read_sum ns e
  rw [h] at hport hbytes
  exact Prod.ext (Option.map_eq_none_iff.1 hbytes) hport

/-- Where the one draw gives the bytes of some pieces, draws of the pieces' lengths give the pieces. -/
theorem EntropyPort.reads_of_read_flatten {xss : List (List Byte)} (h : e.read xss.flatten.length = (some xss.flatten, e')) :
    e.reads (xss.map List.length) = (some xss, e') := by
  obtain ⟨hport, hbytes⟩ := EntropyPort.reads_eq_read_sum (xss.map List.length) e
  rw [← List.length_flatten, h] at hport hbytes
  obtain ⟨zss, hzss, hflat⟩ := Option.map_eq_some_iff.1 hbytes
  have hreads : e.reads (xss.map List.length) = (some zss, e') := Prod.ext hzss hport
  rwa [List.eq_iff_flatten_eq.2 ⟨hflat, EntropyPort.reads_lengths hreads⟩] at hreads

end Sys2Proof.Machine
end

section
/-! The entropy port's statement, assembled from the rules above. -/

namespace Sys2Proof.Proofs

open Sys2Proof Sys2Proof.Machine

/-- Settles O37: the draws of one command are one draw of all their bytes, and a single draw follows its stream. -/
theorem entropyPortReadsItsStream : Obligations.EntropyPortReadsItsStream := by
  refine ⟨fun ys rest c n => ⟨EntropyPort.read_injected ys rest c, EntropyPort.read_injected_failure ys rest c⟩,
    fun ys c m => ?source, fun xss rest c => ?pieces, fun xss ys rest c n ns hlt => ?failure, fun ns e => ?oneDraw⟩
  case source =>
    have hinj := EntropyPort.read_injected ys [] c
    rw [List.append_nil] at hinj
    rw [EntropyPort.read_add_of_bytes hinj, EntropyPort.read_source]
  case pieces => exact EntropyPort.reads_of_read_flatten (EntropyPort.read_injected _ rest c)
  case failure =>
    refine EntropyPort.reads_of_read_sum_failure (EntropyPort.read_injected_failure _ rest c ?_)
    rw [List.sum_append, List.sum_cons, ← List.length_flatten, List.length_append]
    omega
  case oneDraw =>
    obtain ⟨hport, hbytes⟩ := EntropyPort.reads_eq_read_sum ns e
    exact ⟨hport, hbytes, fun xss h => EntropyPort.reads_lengths (Prod.ext h rfl)⟩

end Sys2Proof.Proofs
end

section
/-! The parameter sets (R7 to R9): what `paramsOf` selects, and what holds of each set it can select. -/

namespace Sys2Proof.Machine

theorem paramsOf_of_three_le {psel : Nat} (h : 3 ≤ psel) : paramsOf psel = none := by
  obtain ⟨k, rfl⟩ := Nat.exists_eq_add_of_le' h
  rfl

/-- A set that a selector gives is one of the three rows of the table of R9. -/
theorem paramsOf_cases {psel : Nat} {p : Params} (h : paramsOf psel = some p) :
    p = tiger128 ∨ p = tiger192 ∨ p = tiger256 := by
  match psel, h with
  | 0, h => exact .inl (Option.some.inj h).symm
  | 1, h => exact .inr (.inl (Option.some.inj h).symm)
  | 2, h => exact .inr (.inr (Option.some.inj h).symm)
  | k + 3, h => simp [paramsOf_of_three_le (Nat.le_add_left 3 k)] at h

/-- Each selectable set meets R7, with an implicit-rejection value of a message's length and 4 coefficients per message bit. -/
theorem paramsOf_valid {psel : Nat} {p : Params} (h : paramsOf psel = some p) :
    p.valid = true ∧ p.uSize = p.msgBytes ∧ 4 * p.d = p.n := by
  obtain rfl | rfl | rfl := paramsOf_cases h <;> decide +kernel

end Sys2Proof.Machine

namespace Sys2Proof.Proofs

open Sys2Proof Sys2Proof.Machine

/-- Settles O60: the selector's cases and the validity of the sets are lemmas; the table's rows and sizes are evaluated. -/
theorem parameterSetsAreValid : Obligations.ParameterSetsAreValid := by
  refine ⟨fun _ => rfl, rfl, rfl, rfl, fun _ => paramsOf_of_three_le, rfl, rfl, rfl, fun _ _ => paramsOf_valid, ?_⟩
  decide +kernel

end Sys2Proof.Proofs
end

section
/-! What a command can do: the destination each command has, the states a written destination can leave, and the ways a
command ends (R92, R246). The frames and invariants of all commands follow from the one inversion lemma `exec_ends`. -/

namespace Sys2Proof.Machine

/-! ## Destinations -/

/-- What a command writes besides `STATE` and `STATUS.DONE`, `ERR`, `ERRCODE`. -/
inductive Destination where
  /-- NOP writes nothing. -/
  | nothing
  /-- The items WIPE's mask names. -/
  | wiped (mask : BitVec 11)
  | poly (d : PReg)
  | bytes (d : BReg)
  /-- A byte-string register filled from the entropy port. -/
  | drawn (d : BReg)
  | sparse (d : SReg)
  /-- `STATUS.EQ`. -/
  | comparator
  /-- A range of `XBUF`. -/
  | packed
  /-- `PKBUF`, `SKBUF` and their lengths, from the entropy port. -/
  | keys
  | ciphertext
  /-- `CTBUF`, `CTLEN` and `SSBUF`, from the entropy port. -/
  | encapsulation
  | message
  /-- `SSBUF` and `STATUS.EQ`. -/
  | secret

end Sys2Proof.Machine

namespace Sys2Proof

open Sys2Proof.Machine

/-- The destination of each command (R110 to R230). -/
@[simp]
def Instr.destination : Instr → Destination
  | .nop => .nothing
  | .wipe mask => .wiped mask
  | .padd d _ _ | .psub d _ _ | .pneg d _ | .pscale d _ _ | .psrnd d _ _ _ | .pmuld d _ _ | .pmuls d _ _ | .pfrsp d _
  | .sunif d _ | .d2enc d _ | .unpack d _ => .poly d
  | .sderive d _ | .xefenc d _ | .xefdec d _ | .d2dec d _ | .bsel d _ _ _ => .bytes d
  | .srand d _ => .drawn d
  | .ptosp d _ | .shwt d _ _ => .sparse d
  | .pcteq _ _ | .bcteq _ => .comparator
  | .pack _ _ => .packed
  | .pkekg | .kemkg => .keys
  | .pkeenc _ => .ciphertext
  | .kemenc => .encapsulation
  | .pkedec => .message
  | .kemdec => .secret

/-! Which commands have a destination that several statements name. -/

theorem Instr.destination_eq_wiped {i : Instr} {m : BitVec 11} : i.destination = .wiped m ↔ i = .wipe m := by
  cases i <;> simp

theorem Instr.destination_eq_drawn {i : Instr} {d : BReg} : i.destination = .drawn d ↔ ∃ n, i = .srand d n := by
  cases i <;> simp

theorem Instr.destination_eq_sparse {i : Instr} {d : SReg} :
    i.destination = .sparse d ↔ (∃ a h, i = .shwt d a h) ∨ ∃ a, i = .ptosp d a := by
  cases i <;> simp

theorem Instr.destination_eq_comparator {i : Instr} :
    i.destination = .comparator ↔ (∃ a b, i = .pcteq a b) ∨ ∃ n, i = .bcteq n := by
  cases i <;> simp

theorem Instr.destination_eq_keys {i : Instr} : i.destination = .keys ↔ i = .pkekg ∨ i = .kemkg := by
  cases i <;> simp

theorem Instr.destination_eq_ciphertext {i : Instr} : i.destination = .ciphertext ↔ ∃ a, i = .pkeenc a := by
  cases i <;> simp

theorem Instr.destination_eq_encapsulation {i : Instr} : i.destination = .encapsulation ↔ i = .kemenc := by
  cases i <;> simp

theorem Instr.destination_eq_secret {i : Instr} : i.destination = .secret ↔ i = .kemdec := by
  cases i <;> simp

end Sys2Proof

namespace Sys2Proof.Machine

variable {s t u : State} {d : Destination}

/-- `Written s d u`: the state `u` is `s` with the destination `d` written, whatever the values. Where the values are drawn,
the entropy port has moved as well. -/
inductive Written (s : State) : Destination → State → Prop where
  | nothing : Written s .nothing s
  | wiped (mask : BitVec 11) : Written s (.wiped mask) (s.wipe mask)
  | poly (d : PReg) (x : List Byte) : Written s (.poly d) (s.writePoly d x)
  | bytes (d : BReg) (x : List Byte) : Written s (.bytes d) (s.writeBytes d x)
  | drawn (d : BReg) (e : EntropyPort) (x : List Byte) : Written s (.drawn d) (State.writeBytes { s with entropy := e } d x)
  | sparse (d : SReg) (l : List Term) (hl : l.length ≤ 1024) : Written s (.sparse d) (s.writeSparse d l)
  | comparator (m : Byte) : Written s .comparator (s.setEq m)
  | packed (off : Nat) (x : List Byte) (hx : off + x.length ≤ 1792) : Written s .packed (s.writeAt (Buffer.xbuf.base + off) x)
  | keys (e : EntropyPort) (x y : List Byte) : Written s .keys ((State.writePk { s with entropy := e } x).writeSk y)
  | ciphertext (x : List Byte) : Written s .ciphertext (s.writeCt x)
  | encapsulation (e : EntropyPort) (x y : List Byte) :
    Written s .encapsulation ((State.writeCt { s with entropy := e } x).writeBuf .ssbuf y)
  | message (x : List Byte) : Written s .message (s.writeBuf .msgbuf x)
  | secret (x : List Byte) : Written s .secret { s.writeBuf .ssbuf x with eq := false }

/-- `Ends s d t`: how a command with destination `d`, started in `s`, can end in `t`: a failed check, with no effect but the
error (never `E_ILLCMD`, which is the decoder's, R242); its destination written and the completion; or a failed draw, its
destination written (with zeros) and `E_ENTROPY` (R246). -/
inductive Ends (s : State) (d : Destination) : State → Prop where
  | refused (e : ErrorCode) (he : e ≠ .illcmd) : Ends s d (s.raise e)
  | completed {u : State} (hu : Written s d u) : Ends s d u.complete
  | failed {u : State} (hu : Written s d u) : Ends s d (u.raise .entropy)

/-! ## The checks and the draw of a command -/

theorem Ends.withParams {k : Params → State} (h : ∀ p, s.params = some p → Ends s d (k p)) : Ends s d (s.withParams k) := by
  rcases hp : s.params with _ | p
  · rw [State.withParams, hp]
    exact .refused .param (by decide)
  · rw [State.withParams_some hp]
    exact h p hp

theorem Ends.require {ok : Bool} {e : ErrorCode} (he : e ≠ .illcmd) (h : ok = true → Ends s d t) :
    Ends s d (s.require ok e t) := by
  cases ok with
  | true => exact h rfl
  | false => exact .refused e he

theorem Ends.draw {ns : List Nat} {ok : List (List Byte) → State → State} {failed : State → State}
    (hok : ∀ xs e, Ends s d (ok xs { s with entropy := e })) (hfailed : ∀ e, Ends s d (failed { s with entropy := e })) :
    Ends s d (s.draw ns ok failed) := by
  rcases State.draw_cases s ns ok failed with ⟨xs, e, _, h⟩ | ⟨e, _, h⟩ <;> rw [h]
  · exact hok xs e
  · exact hfailed e

/-- A command whose only check is that of the parameters. -/
theorem Ends.of_params {k : Params → State} (h : ∀ p, Written s d (k p)) :
    Ends s d (s.withParams fun p => (k p).complete) :=
  .withParams fun p _ => .completed (h p)

/-- A command with one more check, whose outcome its destination does not depend on. -/
theorem Ends.of_check {k : Params → State} {ok : Params → Bool} {e : ErrorCode} (he : e ≠ .illcmd)
    (h : ∀ p, Written s d (k p)) : Ends s d (s.withParams fun p => s.require (ok p) e (k p).complete) :=
  .withParams fun p _ => .require he fun _ => .completed (h p)

/-! ## The inversion lemma -/

theorem toSparse_length_le (a : List Byte) : (toSparse a).length ≤ a.length := by
  simpa [toSparse] using List.length_filterMap_le (fun c : Byte × Nat => termOf c.1 c.2) a.zipIdx

theorem Ends.ptosp (r : SReg) (a : PReg) (s : State) :
    Ends s (.sparse r) (s.withParams fun p => (s.writeSparse r (toSparse (s.readPoly a p.n))).complete) := by
  refine .withParams fun p hp => .completed (.sparse r _ ?_)
  obtain ⟨-, -, -, -, hn, -⟩ := State.params_bits hp
  have hlen := toSparse_length_le (s.readPoly a p.n)
  rw [State.readPoly_length] at hlen
  omega

theorem Ends.shwt (r : SReg) (a : BReg) (h : Nat) (s : State) :
    Ends s (.sparse r) (s.withParams fun p => s.require (decide (h ≤ p.n)) .operand
      (s.writeSparse r (sampleSparse (s.seed a) p.n h)).complete) := by
  refine .withParams fun p hp => .require (by decide) fun hle => .completed (.sparse r _ ?_)
  obtain ⟨-, -, -, -, hn, -⟩ := State.params_bits hp
  rw [sampleSparse_length]
  exact (of_decide_eq_true hle).trans hn

theorem Ends.pack (a : PReg) (l : Nat) (s : State) :
    Ends s .packed (s.withParams fun p => s.require (s.packRange p.n l) .operand
      (s.writeAt (Buffer.xbuf.base + s.packOffset) (fit (p.n * l / 8) (compress (s.readPoly a p.n) l))).complete) := by
  refine .withParams fun p _ => .require (by decide) fun hr => .completed (.packed _ _ ?_)
  rw [State.packRange_eq, decide_eq_true_eq] at hr
  obtain ⟨-, -, -, hend⟩ := hr
  rw [fit_length]
  exact hend

/-- Every command answers a next state, and it is one of the ends its destination allows. -/
theorem exec_ends (i : Instr) (s : State) : ∃ t, exec i s = .next t ∧ Ends s i.destination t := by
  cases i with
  | nop => exact ⟨_, rfl, .completed .nothing⟩
  | wipe mask => exact ⟨_, rfl, .completed (.wiped mask)⟩
  | padd | psub | pneg | pscale | pmuld | pmuls | pfrsp | sunif | d2enc => exact ⟨_, rfl, Ends.of_params fun _ => .poly _ _⟩
  | psrnd | unpack => exact ⟨_, rfl, Ends.of_check (by decide) fun _ => .poly _ _⟩
  | sderive | xefenc | xefdec | d2dec => exact ⟨_, rfl, Ends.of_params fun _ => .bytes _ _⟩
  | bsel => exact ⟨_, rfl, Ends.of_check (by decide) fun _ => .bytes _ _⟩
  | pcteq => exact ⟨_, rfl, Ends.of_params fun _ => .comparator _⟩
  | bcteq => exact ⟨_, rfl, Ends.of_check (by decide) fun _ => .comparator _⟩
  | ptosp d a => exact ⟨_, rfl, .ptosp d a s⟩
  | shwt d a h => exact ⟨_, rfl, .shwt d a h s⟩
  | pack a l => exact ⟨_, rfl, .pack a l s⟩
  | srand =>
    exact ⟨_, rfl, .withParams fun _ _ => .require (by decide) fun _ =>
      .draw (fun _ e => .completed (.drawn _ e _)) fun e => .failed (.drawn _ e _)⟩
  | pkekg | kemkg =>
    exact ⟨_, rfl, .withParams fun _ _ => .draw (fun _ e => .completed (.keys e _ _)) fun e => .failed (.keys e _ _)⟩
  | pkeenc => exact ⟨_, rfl, Ends.of_check (by decide) fun _ => .ciphertext _⟩
  | kemenc =>
    exact ⟨_, rfl, .withParams fun _ _ => .require (by decide) fun _ =>
      .draw (fun _ e => .completed (.encapsulation e _ _)) fun e => .failed (.encapsulation e _ _)⟩
  | pkedec => exact ⟨_, rfl, Ends.of_check (by decide) fun _ => .message _⟩
  | kemdec => exact ⟨_, rfl, Ends.of_check (by decide) fun _ => .secret _⟩

theorem Ends.of_exec {i : Instr} (h : exec i s = .next t) : Ends s i.destination t := by
  obtain ⟨t', ht', hends⟩ := exec_ends i s
  rw [h] at ht'
  injection ht' with ht
  exact ht ▸ hends

end Sys2Proof.Machine
end

section
/-! The frames of the destinations (R25, R34, R36 to R39, R263): what stays whatever is written, and which destination each
CSR, the flag `EQ` and the entropy port belong to. -/

namespace Sys2Proof.Machine

variable {s t u : State} {d : Destination}

/-! ## WIPE -/

theorem State.wipeIf_keeps {Inv : State → Prop} {f : State → State} (bit : Bool) (hf : ∀ s, Inv s → Inv (f s)) (h : Inv s) :
    Inv (s.wipeIf bit f) := by
  cases bit with
  | true => exact hf s h
  | false => exact h

/-- WIPE (R111) keeps what zeroing a range and clearing each of its CSRs keep. -/
theorem State.wipe_keeps {Inv : State → Prop} (zero : ∀ base size s, Inv s → Inv (State.zeroAt base size s))
    (pklen : ∀ s, Inv s → Inv { s with pklen := 0 }) (sklen : ∀ s, Inv s → Inv { s with sklen := 0 })
    (ctlen : ∀ s, Inv s → Inv { s with ctlen := 0 }) (sparse : ∀ s, Inv s → Inv { s with s0len := 0, s1len := 0 })
    (arg : ∀ s, Inv s → Inv { s with arg := 0 }) (eq : ∀ s, Inv s → Inv { s with eq := false })
    (mask : BitVec 11) (h : Inv s) : Inv (s.wipe mask) := by
  have zeroThen {f : State → State} (hf : ∀ s, Inv s → Inv (f s)) base size s (h : Inv s) :
      Inv (f (State.zeroAt base size s)) := hf _ (zero base size s h)
  exact wipeIf_keeps _ eq <| wipeIf_keeps _ arg <| wipeIf_keeps _ (zeroThen sparse _ _) <|
    wipeIf_keeps _ (zero _ _) <| wipeIf_keeps _ (zero _ _) <| wipeIf_keeps _ (zero _ _) <|
    wipeIf_keeps _ (zeroThen ctlen _ _) <| wipeIf_keeps _ (zeroThen sklen _ _) <| wipeIf_keeps _ (zeroThen pklen _ _) <|
    wipeIf_keeps _ (zero _ _) <| wipeIf_keeps _ (zero _ _) h

/-! ## What no destination touches -/

/-- The state without what commands write: two states with the same control part agree in `STATE`, `CFG`, `CMD`, the flags
other than `EQ`, the host's side and the XEf code. -/
def State.control (s : State) : State := { s with
  arg := 0, eq := false, pklen := 0, sklen := 0, ctlen := 0, s0len := 0, s1len := 0, mem := [], entropy := ⟨[], 0⟩ }

theorem State.wipe_control (s : State) (mask : BitVec 11) : (s.wipe mask).control = s.control :=
  State.wipe_keeps (Inv := fun u => u.control = s.control) (fun _ _ _ h => h) (fun _ h => h) (fun _ h => h)
    (fun _ h => h) (fun _ h => h) (fun _ h => h) (fun _ h => h) mask rfl

theorem Written.control (h : Written s d u) : u.control = s.control := by
  cases h with
  | wiped mask => exact s.wipe_control mask
  | sparse d l => cases d <;> simp [State.control]
  | _ => simp [State.control]

/-! ## What only some destinations touch -/

/-- `t` differs from `s` in `EQ`, `ARG`, a length or the entropy port only where the destination `d`, not WIPE's, is or has
it. -/
structure KeepsOthers (d : Destination) (s t : State) : Prop where
  arg : t.arg = s.arg
  eq : d ≠ .comparator → d ≠ .secret → t.eq = s.eq
  keyLens : d ≠ .keys → t.pklen = s.pklen ∧ t.sklen = s.sklen
  ctlen : d ≠ .ciphertext → d ≠ .encapsulation → t.ctlen = s.ctlen
  sparseLens : (∀ r, d ≠ .sparse r) → t.s0len = s.s0len ∧ t.s1len = s.s1len
  entropy : (∀ r, d ≠ .drawn r) → d ≠ .keys → d ≠ .encapsulation → t.entropy = s.entropy

theorem Written.keepsOthers (h : Written s d u) (hd : ∀ m, d ≠ .wiped m) : KeepsOthers d s u := by
  cases h with
  | wiped mask => exact absurd rfl (hd mask)
  | sparse d l => cases d <;> constructor <;> simp
  | _ => constructor <;> simp

/-- The end of a command touches `STATE` and the outcome flags alone. -/
theorem Ends.keepsOthers (h : Ends s d t) (hd : ∀ m, d ≠ .wiped m) : KeepsOthers d s t := by
  cases h with
  | refused e => exact ⟨rfl, fun _ _ => rfl, fun _ => ⟨rfl, rfl⟩, fun _ _ => rfl, fun _ => ⟨rfl, rfl⟩, fun _ _ _ => rfl⟩
  | completed hu | failed hu =>
    obtain ⟨harg, heq, hkeys, hct, hsparse, hentropy⟩ := hu.keepsOthers hd
    exact ⟨harg, heq, hkeys, hct, hsparse, hentropy⟩

end Sys2Proof.Machine

namespace Sys2Proof.Proofs

open Sys2Proof Sys2Proof.Machine

/-- Settles O19: each clause is the frame of the destinations it excludes, read at the command's own destination. -/
theorem onlyTheNamedCommandsWrite : Obligations.OnlyTheNamedCommandsWrite := by
  intro i s t h hwipe
  obtain ⟨harg, heq, hkeys, hct, hsparse, hentropy⟩ :=
    (Ends.of_exec h).keepsOthers fun m => mt Instr.destination_eq_wiped.1 (hwipe m)
  simp only [ne_eq, Instr.destination_eq_comparator, Instr.destination_eq_secret, Instr.destination_eq_keys,
    Instr.destination_eq_ciphertext, Instr.destination_eq_encapsulation, Instr.destination_eq_sparse,
    Instr.destination_eq_drawn, not_or, not_exists] at heq hkeys hct hsparse hentropy
  exact ⟨harg, fun hp hb hk => heq ⟨hp, hb⟩ hk, fun hp hk => hkeys ⟨hp, hk⟩, hct, fun hs hp => hsparse fun r => ⟨hs r, hp r⟩,
    fun hs hp hk he => hentropy hs ⟨hp, hk⟩ he⟩

end Sys2Proof.Proofs
end

section
/-! What a step can do to an invariant (R24, R63, R75, R92): the events it is enough to look at, once for all invariants. -/

namespace Sys2Proof.Machine

variable {s t : State} {Inv : State → Prop}

/-- Every event keeps `Inv`: one field for each thing that an event can do to the state. -/
structure KeptByEvents (Inv : State → Prop) : Prop where
  /-- The schedule, the answer to the host, `ACCV` and `CMDOVR` may become anything. -/
  host : ∀ (s : State) (l : List Event) (r : HostResponse) (a c : Bool), Inv s →
    Inv { s with inputs := l, response := r, accv := a, cmdovr := c }
  clearStatus : ∀ (s : State) (v : Word), Inv s → Inv (s.clearStatus v)
  startCommand : ∀ (s : State) (w : Word), Inv s → Inv (s.startCommand w)
  storeByte : ∀ (s : State) (a : Nat) (v : Byte), Inv s → Inv (s.storeByte a v)
  writeCsr : ∀ (s : State) (a : Nat) (v : Word), Inv s → Inv (s.writeCsr a v)
  illegal : ∀ s : State, s.run = .busy → Inv s → Inv (s.raise .illcmd)
  command : ∀ (s : State) (d : Destination) (t : State), s.run = .busy → Ends s d t → Inv s → Inv t
  resetEngine : ∀ s : State, Inv s.resetEngine

namespace KeptByEvents

theorem storeBytes (k : KeptByEvents Inv) (a : Nat) (bs : List Byte) (h : Inv s) : Inv (s.storeBytes a bs) := by
  induction bs generalizing s a with
  | nil => exact h
  | cons b bs ih => exact ih (a + 1) (k.storeByte s a b h)

theorem hostRead (k : KeptByEvents Inv) (addr n : Nat) (h : Inv s) : Inv (s.hostRead addr n) := by
  unfold State.hostRead
  split
  · split
    · exact k.host s _ _ _ _ h
    · exact k.host s _ _ _ _ h
  · exact k.host s _ _ _ _ h

theorem landWrite (k : KeptByEvents Inv) (addr n : Nat) (v : Word) (h : Inv s) : Inv (s.landWrite addr n v) := by
  unfold State.landWrite
  split
  · exact k.clearStatus s v h
  · split
    · split
      · exact k.host s _ _ _ _ h
      · exact k.host s _ _ _ _ h
    · split
      · exact k.startCommand s v h
      · split
        · exact k.storeBytes addr _ h
        · exact k.writeCsr s addr v h

theorem hostWrite (k : KeptByEvents Inv) (addr n : Nat) (v : Word) (h : Inv s) : Inv (s.hostWrite addr n v) := by
  unfold State.hostWrite
  split
  · exact k.host _ _ _ _ _ (k.landWrite addr n v h)
  · exact k.host s _ _ _ _ h

theorem engineTurn (k : KeptByEvents Inv) (h : Inv s) (ht : engineTurn s = .next t) : Inv t := by
  rcases hrun : s.run with _ | _
  · rw [engineTurn_idle hrun] at ht
    injection ht with ht
    exact ht ▸ h
  · rcases hd : decode s.cmd with e | i
    · rw [engineTurn_illegal hrun hd] at ht
      injection ht with ht
      exact ht ▸ k.illegal s hrun h
    · rw [engineTurn_busy hrun hd] at ht
      exact k.command s _ t hrun (Ends.of_exec ht) h

theorem deliver (k : KeptByEvents Inv) {e : Event} (h : Inv s) (ht : deliver e s = .next t) : Inv t := by
  cases e with
  | read addr n => injection ht with ht; exact ht ▸ k.hostRead addr n h
  | write addr n v => injection ht with ht; exact ht ▸ k.hostWrite addr n v h
  | engine => exact k.engineTurn h ht
  | reset => injection ht with ht; exact ht ▸ k.resetEngine s

/-- What every event keeps, every step keeps. -/
theorem step (k : KeptByEvents Inv) (h : Inv s) (ht : step s = .next t) : Inv t := by
  rcases hin : s.inputs with _ | ⟨e, rest⟩
  · rw [step_nil hin] at ht
    exact k.engineTurn h ht
  · rw [step_cons hin] at ht
    exact k.deliver (k.host s rest _ _ _ h) ht

end KeptByEvents

end Sys2Proof.Machine
end

section
/-! The memory invariant (R22, R66, R67; log 1): every write of the engine and of the host lands on implemented offsets, and
in the high byte of a sparse slot on its bits 15 and 9:8. -/

namespace Sys2Proof.Machine

variable {s t u : State} {d : Destination}

/-! ## The map of the window -/

/-- The implemented data offsets, adjacent ranges joined (R66). -/
theorem implemented_iff (a : Nat) : implemented a = true ↔
    (0x0100 ≤ a ∧ a < 0x0140) ∨ (0x0200 ≤ a ∧ a < 0x0300) ∨ (0x0400 ≤ a ∧ a < 0x07A0) ∨ (0x0800 ≤ a ∧ a < 0x0C20) ∨
    (0x1000 ≤ a ∧ a < 0x1700) ∨ (0x1800 ≤ a ∧ a < 0x1F00) ∨ (0x2000 ≤ a ∧ a < 0x4000) := by
  simp only [implemented, windowMap, List.any_cons, List.any_nil, Bool.or_false, Bool.or_eq_true, Bool.and_eq_true,
    decide_eq_true_eq]
  omega

theorem slotHigh_iff (a : Nat) : slotHigh a = true ↔ 0x3000 ≤ a ∧ a < 0x4000 ∧ a % 2 = 1 := by
  simp only [slotHigh, Bool.and_eq_true, decide_eq_true_eq, and_assoc]

/-! ## One written range -/

theorem MemoryInv.of_mem_eq (h : MemoryInv s) (hm : t.mem = s.mem) : MemoryInv t :=
  ⟨hm ▸ h.canonical, hm ▸ h.located, hm ▸ h.slots⟩

/-- A written range keeps the invariant if each of its bytes may stand where it lands. -/
theorem MemoryInv.writeAt (h : MemoryInv s) {base : Nat} {bs : List Byte}
    (hloc : ∀ k, k < bs.length → bs.getD k 0 ≠ 0 → implemented (base + k) = true)
    (hslot : ∀ k, k < bs.length → slotHigh (base + k) = true → bs.getD k 0 &&& 0x7C = 0) : MemoryInv (s.writeAt base bs) := by
  have hnew {c : Host.Cell} (hlow : base ≤ c.1) (hhigh : c.1 < base + bs.length) (hc : c ∈ Memory.cells base bs) :
      ∃ k, k < bs.length ∧ c.1 = base + k ∧ c.2 = bs.getD k 0 :=
    ⟨c.1 - base, by omega, by omega, Memory.mem_cells_value hc⟩
  refine ⟨Memory.wf_writeRange _ _ _ h.canonical, fun c hc => ?_, fun c hc hs => ?_⟩
  · rcases Memory.mem_writeRange hc with ⟨hold, _⟩ | ⟨hlow, hhigh, hc⟩
    · exact h.located c hold
    · obtain ⟨-, -, hne⟩ := Memory.mem_cells hc
      obtain ⟨k, hk, haddr, hval⟩ := hnew hlow hhigh hc
      exact haddr ▸ hloc k hk (hval ▸ hne)
  · rcases Memory.mem_writeRange hc with ⟨hold, _⟩ | ⟨hlow, hhigh, hc⟩
    · exact h.slots c hold hs
    · obtain ⟨k, hk, haddr, hval⟩ := hnew hlow hhigh hc
      exact hval ▸ hslot k hk (haddr ▸ hs)

/-- Zeros may stand anywhere: none of them is listed. -/
theorem MemoryInv.zeroAt (base size : Nat) (s : State) (h : MemoryInv s) : MemoryInv (State.zeroAt base size s) :=
  h.writeAt (fun k _ hne => absurd (by simp) hne) fun k _ _ => by simp

/-- Below the sparse registers any byte may stand at an implemented offset. -/
theorem MemoryInv.writeAt_of_implemented (h : MemoryInv s) {base : Nat} {bs : List Byte} (hend : base + bs.length ≤ 0x3000)
    (himp : ∀ a, base ≤ a → a < base + bs.length → implemented a = true) : MemoryInv (s.writeAt base bs) := by
  refine h.writeAt (fun k hk _ => himp _ (by omega) (by omega)) fun k hk hs => ?_
  rw [slotHigh_iff] at hs
  omega

/-! ## The destinations -/

theorem MemoryInv.writePoly (h : MemoryInv s) (r : PReg) (x : List Byte) : MemoryInv (s.writePoly r x) := by
  refine h.writeAt_of_implemented ?_ fun a => ?_ <;> rw [fit_length, show nMax = 1024 from rfl]
  · cases r <;> decide
  · rw [implemented_iff]
    cases r <;> simp only [PReg.base] <;> omega

theorem MemoryInv.writeBytes (h : MemoryInv s) (r : BReg) (x : List Byte) : MemoryInv (s.writeBytes r x) := by
  refine h.writeAt_of_implemented ?_ fun a => ?_ <;> rw [fit_length, show bBytes = 64 from rfl]
  · cases r <;> decide
  · rw [implemented_iff]
    cases r <;> simp only [BReg.base] <;> omega

theorem MemoryInv.writeBuf (h : MemoryInv s) (b : Buffer) (x : List Byte) : MemoryInv (s.writeBuf b x) := by
  refine h.writeAt_of_implemented ?_ fun a => ?_ <;> rw [fit_length]
  · cases b <;> decide
  · rw [implemented_iff]
    cases b <;> simp only [Buffer.base, Buffer.size] <;> omega

theorem MemoryInv.writeXbuf (h : MemoryInv s) {off : Nat} {x : List Byte} (hx : off + x.length ≤ 1792) :
    MemoryInv (s.writeAt (Buffer.xbuf.base + off) x) := by
  refine h.writeAt_of_implemented ?_ fun a => ?_ <;> rw [Buffer.base_xbuf]
  · omega
  · rw [implemented_iff]
    omega

/-- The high byte of a slot holds bits 15 and 9:8 of it, and 0 in bits 14:10 (R22). -/
theorem slotBytes_high_reserved (t : Term) : (slotBytes t).getD 1 0 &&& 0x7C = 0 := by
  have hbits : ∀ (x : Fin 4) (sign : Bool), BitVec.ofNat 8 (x + if sign then 128 else 0) &&& 0x7C#8 = 0 := by decide
  simpa [slotBytes] using hbits ⟨t.idx / 256 % 4, Nat.mod_lt _ (by decide)⟩ (decide (t.sgn = .minus))

theorem SReg.base_cases (r : SReg) : r.base = 0x3000 ∨ r.base = 0x3800 := by cases r <;> decide

theorem MemoryInv.writeSlots (h : MemoryInv s) (r : SReg) (l : List Term) :
    MemoryInv (s.writeAt r.base (fit (2 * sMax) (l.flatMap slotBytes))) := by
  have hr := SReg.base_cases r
  have hsize : 2 * sMax = 2048 := rfl
  rw [hsize]
  refine h.writeAt (fun k hk _ => ?_) fun k hk hs => ?_ <;> rw [fit_length] at hk
  · rw [implemented_iff]
    omega
  · have hodd : k % 2 = 1 := by
      rw [slotHigh_iff] at hs
      omega
    rw [getD_fit _ _ _ hk, getD_flatMap_slotBytes, hodd]
    split
    · exact slotBytes_high_reserved _
    · rfl

theorem MemoryInv.writeSparse (h : MemoryInv s) (r : SReg) (l : List Term) : MemoryInv (s.writeSparse r l) :=
  (h.writeSlots r l).of_mem_eq (by cases r <;> rfl)

theorem MemoryInv.written (hu : Written s d u) (h : MemoryInv s) : MemoryInv u := by
  have hport e : MemoryInv { s with entropy := e } := h.of_mem_eq rfl
  cases hu with
  | nothing => exact h
  | wiped mask =>
    exact State.wipe_keeps MemoryInv.zeroAt (fun _ h => h.of_mem_eq rfl) (fun _ h => h.of_mem_eq rfl)
      (fun _ h => h.of_mem_eq rfl) (fun _ h => h.of_mem_eq rfl) (fun _ h => h.of_mem_eq rfl) (fun _ h => h.of_mem_eq rfl)
      mask h
  | poly d x => exact h.writePoly d x
  | bytes d x => exact h.writeBytes d x
  | drawn d e x => exact (hport e).writeBytes d x
  | sparse d l => exact h.writeSparse d l
  | comparator m => exact h.of_mem_eq rfl
  | packed off x hx => exact h.writeXbuf hx
  | keys e x y => exact (((hport e).writeBuf .pkbuf x).writeBuf .skbuf y).of_mem_eq rfl
  | ciphertext x => exact (h.writeBuf .ctbuf x).of_mem_eq rfl
  | encapsulation e x y => exact (((hport e).writeBuf .ctbuf x).writeBuf .ssbuf y).of_mem_eq rfl
  | message x => exact h.writeBuf .msgbuf x
  | secret x => exact (h.writeBuf .ssbuf x).of_mem_eq rfl

theorem MemoryInv.ends (he : Ends s d t) (h : MemoryInv s) : MemoryInv t := by
  cases he with
  | refused e => exact h.of_mem_eq rfl
  | completed hu => exact (h.written hu).of_mem_eq rfl
  | failed hu => exact (h.written hu).of_mem_eq rfl

/-! ## The host -/

theorem storedByte_reserved {a : Nat} (ha : slotHigh a = true) (v : Byte) : storedByte a v &&& 0x7C = 0 := by
  rw [storedByte, if_pos ha, BitVec.and_assoc]
  exact BitVec.and_zero

theorem MemoryInv.storeByte (h : MemoryInv s) (a : Nat) (v : Byte) : MemoryInv (s.storeByte a v) := by
  unfold State.storeByte
  split
  · next himp =>
    refine h.writeAt (fun k hk _ => ?_) fun k hk hs => ?_ <;> obtain rfl : k = 0 := by simpa using hk
    · exact himp
    · exact storedByte_reserved hs v
  · exact h

theorem State.writeCsr_mem (s : State) (a : Nat) (v : Word) : (s.writeCsr a v).mem = s.mem := by
  unfold State.writeCsr
  split_ifs <;> rfl

theorem MemoryInv.reset : MemoryInv State.reset := ⟨by decide, by decide, by decide⟩

theorem MemoryInv.kept : KeptByEvents MemoryInv where
  host _ _ _ _ _ h := h.of_mem_eq rfl
  clearStatus _ _ h := h.of_mem_eq rfl
  startCommand _ _ h := h.of_mem_eq rfl
  storeByte _ a v h := h.storeByte a v
  writeCsr s a v h := h.of_mem_eq (s.writeCsr_mem a v)
  illegal _ _ h := h.of_mem_eq rfl
  command _ _ _ _ he h := h.ends he
  resetEngine _ := MemoryInv.reset.of_mem_eq rfl

end Sys2Proof.Machine

namespace Sys2Proof.Proofs

open Sys2Proof Sys2Proof.Machine

/-- Settles O21: every event keeps the memory invariant. -/
theorem everyStepKeepsTheMemory : Obligations.EveryStepKeepsTheMemory :=
  fun _ _ h ht => MemoryInv.kept.step h ht

end Sys2Proof.Proofs
end

section
/-! The invariants of `STATUS` (R35, R241), of `CFG`'s reserved bits (R32) and of the sparse lengths (R39). -/

namespace Sys2Proof.Machine

variable {s t u : State} {d : Destination}

/-! ## `STATUS` -/

/-- The invariant is about the control part of the state alone. -/
theorem statusInv_control : StatusInv s.control ↔ StatusInv s :=
  ⟨fun ⟨hexcl, hbusy, hcode, hrange⟩ => ⟨hexcl, hbusy, hcode, hrange⟩,
    fun ⟨hexcl, hbusy, hcode, hrange⟩ => ⟨hexcl, hbusy, hcode, hrange⟩⟩

theorem StatusInv.of_control_eq (h : StatusInv s) (hc : t.control = s.control) : StatusInv t :=
  statusInv_control.1 (hc ▸ statusInv_control.2 h)

theorem run_eq_of_control_eq (h : t.control = s.control) : t.run = s.run := by
  simpa [State.control] using congrArg State.run h

theorem StatusInv.complete (h : StatusInv s) (hrun : s.run = .busy) : StatusInv s.complete := by
  obtain ⟨hdone, herr⟩ := h.busy hrun
  exact ⟨by simp [herr], by simp, h.errcode, h.range⟩

theorem ErrorCode.code_ne_zero (e : ErrorCode) : e.code ≠ 0 := by cases e <;> decide

theorem ErrorCode.code_le (e : ErrorCode) : e.code.toNat ≤ 5 := by cases e <;> decide

theorem StatusInv.raise (h : StatusInv s) (hrun : s.run = .busy) (e : ErrorCode) : StatusInv (s.raise e) := by
  obtain ⟨hdone, herr⟩ := h.busy hrun
  exact ⟨by simp [hdone], by simp, by simpa using e.code_ne_zero, e.code_le⟩

theorem StatusInv.ends (he : Ends s d t) (hrun : s.run = .busy) (h : StatusInv s) : StatusInv t := by
  have hbusy {u} (hu : Written s d u) : u.run = .busy := (run_eq_of_control_eq hu.control).trans hrun
  cases he with
  | refused e => exact h.raise hrun e
  | completed hu => exact (h.of_control_eq hu.control).complete (hbusy hu)
  | failed hu => exact (h.of_control_eq hu.control).raise (hbusy hu) .entropy

theorem StatusInv.startCommand (s : State) (w : Word) : StatusInv (s.startCommand w) :=
  ⟨by simp, by simp, by simp, by simp⟩

/-- A W1C write clears `ERR` and `ERRCODE` together (R35). -/
theorem StatusInv.clearStatus (h : StatusInv s) (v : Word) : StatusInv (s.clearStatus v) := by
  obtain ⟨hexcl, hbusy, hcode, hrange⟩ := h
  refine ⟨?_, fun hrun => ?_, ?_, ?_⟩
  · rw [State.clearStatus_done, State.clearStatus_err, Bool.and_eq_true, Bool.and_eq_true]
    exact fun ⟨⟨hdone, _⟩, herr, _⟩ => hexcl ⟨hdone, herr⟩
  · obtain ⟨hdone, herr⟩ := hbusy hrun
    simp [hdone, herr]
  · rw [State.clearStatus_errcode, State.clearStatus_err]
    cases v.getLsbD 2 with
    | false => simpa using hcode
    | true => simp
  · rw [State.clearStatus_errcode]
    cases v.getLsbD 2 <;> simp [hrange]

theorem StatusInv.writeCsr (h : StatusInv s) (a : Nat) (v : Word) : StatusInv (s.writeCsr a v) := by
  obtain ⟨hexcl, hbusy, hcode, hrange⟩ := h
  unfold State.writeCsr
  split_ifs <;> exact ⟨hexcl, hbusy, hcode, hrange⟩

theorem StatusInv.storeByte (h : StatusInv s) (a : Nat) (v : Byte) : StatusInv (s.storeByte a v) := by
  obtain ⟨m, hm⟩ := storeByte_frame s a v
  rw [hm]
  exact h.of_control_eq rfl

theorem StatusInv.reset : StatusInv State.reset := ⟨by decide, by decide, by decide, by decide⟩

theorem StatusInv.kept : KeptByEvents StatusInv where
  host _ _ _ _ _ := fun ⟨hexcl, hbusy, hcode, hrange⟩ => ⟨hexcl, hbusy, hcode, hrange⟩
  clearStatus _ v h := h.clearStatus v
  startCommand s w _ := .startCommand s w
  storeByte _ a v h := h.storeByte a v
  writeCsr _ a v h := h.writeCsr a v
  illegal _ hrun h := h.raise hrun .illcmd
  command _ _ _ hrun he h := h.ends he hrun
  resetEngine _ := have ⟨hexcl, hbusy, hcode, hrange⟩ := StatusInv.reset
    ⟨hexcl, hbusy, hcode, hrange⟩

/-! ## `CFG` and the sparse lengths -/

theorem CsrInv.of_fields_eq (h : CsrInv s) (hcfg : t.cfg = s.cfg) (h0 : t.s0len = s.s0len) (h1 : t.s1len = s.s1len) :
    CsrInv t :=
  ⟨hcfg ▸ h.cfg, h0 ▸ h.s0len, h1 ▸ h.s1len⟩

theorem CsrInv.setSparseLen (h : CsrInv s) (r : SReg) {n : Nat} (hn : n ≤ 1024) : CsrInv (s.setSparseLen r n) := by
  have hlen : (BitVec.ofNat 11 n).toNat ≤ 1024 := by
    rw [BitVec.toNat_ofNat]
    exact (Nat.mod_le _ _).trans hn
  cases r with
  | s0 => exact ⟨h.cfg, hlen, h.s1len⟩
  | s1 => exact ⟨h.cfg, h.s0len, hlen⟩

theorem CsrInv.wipe (h : CsrInv s) (mask : BitVec 11) : CsrInv (s.wipe mask) :=
  State.wipe_keeps (Inv := CsrInv) (fun _ _ _ h => h.of_fields_eq rfl rfl rfl)
    (fun _ h => h.of_fields_eq rfl rfl rfl) (fun _ h => h.of_fields_eq rfl rfl rfl)
    (fun _ h => h.of_fields_eq rfl rfl rfl) (fun _ h => ⟨h.cfg, Nat.zero_le _, Nat.zero_le _⟩)
    (fun _ h => h.of_fields_eq rfl rfl rfl) (fun _ h => h.of_fields_eq rfl rfl rfl) mask h

theorem CsrInv.written (hu : Written s d u) (h : CsrInv s) : CsrInv u := by
  cases hu with
  | wiped mask => exact h.wipe mask
  | sparse r l hl =>
    have hmem : CsrInv (s.writeAt r.base (fit (2 * sMax) (l.flatMap slotBytes))) := h.of_fields_eq rfl rfl rfl
    exact hmem.setSparseLen r hl
  | _ => exact h.of_fields_eq (by simp) (by simp) (by simp)

theorem CsrInv.ends (he : Ends s d t) (h : CsrInv s) : CsrInv t := by
  cases he with
  | refused e => exact h.of_fields_eq rfl rfl rfl
  | completed hu | failed hu => exact (h.written hu).of_fields_eq rfl rfl rfl

theorem cfgMask_reserved (v : Word) : v &&& cfgMask &&& 0xFFFFFCFC = 0 := by
  rw [BitVec.and_assoc]
  exact BitVec.and_zero

theorem CsrInv.writeCsr (h : CsrInv s) (a : Nat) (v : Word) : CsrInv (s.writeCsr a v) := by
  have hlen : sparseLenOf v ≤ 1024 := Nat.min_le_right _ _
  unfold State.writeCsr
  split_ifs
  · exact ⟨cfgMask_reserved v, h.s0len, h.s1len⟩
  case pos | pos | pos | pos => exact h.of_fields_eq rfl rfl rfl
  · exact h.setSparseLen .s0 hlen
  · exact h.setSparseLen .s1 hlen
  · exact h

theorem CsrInv.storeByte (h : CsrInv s) (a : Nat) (v : Byte) : CsrInv (s.storeByte a v) := by
  obtain ⟨m, hm⟩ := storeByte_frame s a v
  rw [hm]
  exact h.of_fields_eq rfl rfl rfl

theorem CsrInv.reset : CsrInv State.reset := ⟨by decide, by decide, by decide⟩

theorem CsrInv.kept : KeptByEvents CsrInv where
  host _ _ _ _ _ h := h.of_fields_eq rfl rfl rfl
  clearStatus _ _ h := h.of_fields_eq rfl rfl rfl
  startCommand _ _ h := h.of_fields_eq rfl rfl rfl
  storeByte _ a v h := h.storeByte a v
  writeCsr _ a v h := h.writeCsr a v
  illegal _ _ h := h.of_fields_eq rfl rfl rfl
  command _ _ _ _ he h := h.ends he
  resetEngine _ := CsrInv.reset.of_fields_eq rfl rfl rfl

end Sys2Proof.Machine

namespace Sys2Proof.Proofs

open Sys2Proof Sys2Proof.Machine

/-- Settles O22: every event keeps both invariants. -/
theorem everyStepKeepsTheFlagsAndCsrs : Obligations.EveryStepKeepsTheFlagsAndCsrs :=
  fun _ _ ht => ⟨fun h => StatusInv.kept.step h ht, fun h => CsrInv.kept.step h ht⟩

/-- Settles O20: each invariant evaluated on the reset state. -/
theorem invariantsHoldAtReset : Obligations.InvariantsHoldAtReset := ⟨.reset, .reset, .reset⟩

end Sys2Proof.Proofs
end

section
/-! The window and the CSRs as the host sees them (R30 to R39, R61, R66, R67), the bits of `STATUS` (R35), and the reset
event (R55, R280). -/

namespace Sys2Proof.Machine

variable {s : State}

/-! ## Reading the window -/

theorem windowByte_of_implemented {a : Nat} (h : implemented a = true) : s.windowByte a = s.mem.read a := by
  have ha : ¬ a < dataStart := by
    rw [implemented_iff] at h
    show ¬ a < 0x100
    omega
  rw [State.windowByte, if_neg ha, if_pos h]

/-- Byte `j` of the CSR word number `k`, at its offset (R30). -/
theorem windowByte_csr (s : State) {k j : Nat} (hk : k < 64) (hj : j < 4) :
    s.windowByte (4 * k + j) = (s.csr k).extractLsb' (8 * j) 8 := by
  have ha : 4 * k + j < dataStart := by
    show 4 * k + j < 0x100
    omega
  have hdiv : (4 * k + j) / 4 = k := by omega
  have hmod : (4 * k + j) % 4 = j := by omega
  rw [State.windowByte, if_pos ha, hdiv, hmod, BitVec.extractLsb', Nat.shiftRight_eq_div_pow]

/-- The CSR words after the last CSR read 0 (R67). -/
theorem csr_of_ten_le (s : State) {k : Nat} (hk : 10 ≤ k) : s.csr k = 0 := by
  obtain ⟨i, rfl⟩ := Nat.exists_eq_add_of_le' hk
  rfl

theorem windowByte_of_reserved {a : Nat} (ha : 0x28 ≤ a) (h : implemented a = false) : s.windowByte a = 0 := by
  by_cases hd : a < 0x100
  · have hbyte := windowByte_csr s (k := a / 4) (j := a % 4) (by omega) (Nat.mod_lt _ (by decide))
    rw [Nat.div_add_mod, csr_of_ten_le s (by omega)] at hbyte
    rw [hbyte]
    exact BitVec.extractLsb'_zero
  · have hd' : ¬ a < dataStart := hd
    rw [State.windowByte, if_neg hd', h, if_neg Bool.false_ne_true]

/-! ## Writing a CSR -/

/-- A 32-bit write of an aligned offset below the data is no bus error (R64). -/
theorem hostWrite_csr {addr : Nat} (v : Word) (ha : addr < 0x100) (haligned : addr % 4 = 0) :
    s.hostWrite addr 4 v = { s.landWrite addr 4 v with response := .written } := by
  have hlegal : writeLegal addr 4 = true := (writeLegal_iff addr 4).2 ⟨⟨by simp, haligned, by omega⟩, .inr rfl⟩
  rw [State.hostWrite, if_pos hlegal]

/-- What the idle engine's CSR write does, other than of `CMD` and `STATUS`. -/
theorem step_writeCsr {addr : Nat} {v : Word} {rest : List Event} (hrun : s.run = .idle)
    (hin : s.inputs = .write addr 4 v :: rest) (ha : addr < 0x100) (haligned : addr % 4 = 0) (hcmd : addr ≠ 0x08)
    (hstatus : addr ≠ 0x10) :
    step s = .next { State.writeCsr { s with inputs := rest } addr v with response := .written } := by
  have hland := landWrite_csr (s := { s with inputs := rest }) (n := 4) (v := v) hrun ha hcmd hstatus
  rw [step_cons hin, deliver, hostWrite_csr v ha haligned, hland]

/-- `ID` and the reserved offsets below the data ignore writes (R31, R67). -/
theorem writeCsr_ignored {addr : Nat} (v : Word) (h : addr = 0 ∨ 0x28 ≤ addr) : s.writeCsr addr v = s := by
  have hne : addr ≠ csrCfg ∧ addr ≠ csrArg ∧ addr ≠ csrPklen ∧ addr ≠ csrSklen ∧ addr ≠ csrCtlen ∧ addr ≠ csrS0len ∧
      addr ≠ csrS1len := by
    show addr ≠ 0x04 ∧ addr ≠ 0x0C ∧ addr ≠ 0x14 ∧ addr ≠ 0x18 ∧ addr ≠ 0x1C ∧ addr ≠ 0x20 ∧ addr ≠ 0x24
    omega
  obtain ⟨hcfg, harg, hpk, hsk, hct, h0, h1⟩ := hne
  rw [State.writeCsr, if_neg hcfg, if_neg harg, if_neg hpk, if_neg hsk, if_neg hct, if_neg h0, if_neg h1]

/-! ## The bits of `STATUS` -/

/-- `STATUS` as a number, one bit after the other, two reserved bits before `ERRCODE` (R35). -/
theorem status_toNat (s : State) : s.status.toNat =
    Nat.bit (decide (s.run = .busy)) (Nat.bit s.done (Nat.bit s.err (Nat.bit s.eq (Nat.bit s.accv (Nat.bit s.cmdovr
      (Nat.bit false (Nat.bit false s.errcode.toNat))))))) := by
  have hcode := s.errcode.isLt
  have hrun := (decide (s.run = .busy)).toNat_le
  have hdone := s.done.toNat_le
  have herr := s.err.toNat_le
  have heq := s.eq.toNat_le
  have haccv := s.accv.toNat_le
  have hcmdovr := s.cmdovr.toNat_le
  rw [State.status, BitVec.toNat_ofNat, Nat.mod_eq_of_lt (by omega)]
  simp only [Nat.bit_val, Bool.toNat_false]
  ring

theorem status_getLsbD (s : State) :
    s.status.getLsbD 0 = decide (s.run = .busy) ∧ s.status.getLsbD 1 = s.done ∧ s.status.getLsbD 2 = s.err ∧
    s.status.getLsbD 3 = s.eq ∧ s.status.getLsbD 4 = s.accv ∧ s.status.getLsbD 5 = s.cmdovr := by
  simp only [BitVec.getLsbD, status_toNat, Nat.testBit_bit_zero, Nat.testBit_bit_succ, and_self]

/-- Above the flags stand two reserved bits and `ERRCODE`, and nothing above it. -/
theorem status_div (s : State) : s.status.toNat / 2 ^ 6 = 4 * s.errcode.toNat := by
  have hpow : 2 ^ 6 = 2 * 2 * 2 * 2 * 2 * 2 := rfl
  rw [status_toNat, hpow]
  simp only [← Nat.div_div_eq_div_mul, Nat.bit_div_two]
  simp only [Nat.bit_val, Bool.toNat_false]
  omega

theorem status_extractLsb' (s : State) :
    s.status.extractLsb' 6 2 = 0 ∧ s.status.extractLsb' 8 4 = s.errcode ∧ s.status.extractLsb' 12 20 = 0 := by
  have hhigh := status_div s
  have hcode := s.errcode.isLt
  refine ⟨?_, ?_, ?_⟩ <;> apply BitVec.eq_of_toNat_eq <;> rw [BitVec.extractLsb'_toNat, Nat.shiftRight_eq_div_pow]
  · show s.status.toNat / 2 ^ 6 % 2 ^ 2 = 0
    omega
  · omega
  · show s.status.toNat / 2 ^ 12 % 2 ^ 20 = 0
    omega

/-! ## The reset state -/

theorem reset_csr (k : Nat) : State.reset.csr k = if k = 0 then idWord else 0 := by
  match k with
  | 0 | 1 | 2 | 3 | 4 | 5 | 6 | 7 | 8 | 9 => decide
  | k + 10 => rfl

/-- After reset the window reads 0 but for the four bytes of `ID` (R31, R55). -/
theorem reset_windowByte (a : Nat) : State.reset.windowByte a =
    if a = 0 then 0x01 else if a = 1 then 0x45 else if a = 2 then 0x4B else if a = 3 then 0x54 else 0 := by
  by_cases hid : a < 4
  · interval_cases a <;> decide
  · have hne : a ≠ 0 ∧ a ≠ 1 ∧ a ≠ 2 ∧ a ≠ 3 := by omega
    obtain ⟨h0, h1, h2, h3⟩ := hne
    rw [if_neg h0, if_neg h1, if_neg h2, if_neg h3, State.windowByte]
    have hcsr : State.reset.csr (a / 4) = 0 := by rw [reset_csr, if_neg (by omega)]
    split_ifs
    · have hzero : (0 : Word).toNat = 0 := rfl
      rw [hcsr, hzero, Nat.zero_div]
      rfl
    · rfl
    · rfl

end Sys2Proof.Machine

namespace Sys2Proof.Proofs

open Sys2Proof Sys2Proof.Machine

/-- Settles O5: the engine's turn, busy and idle, with nothing scheduled and with itself scheduled next. -/
theorem stepRunsTheDecodedCommand : Obligations.StepRunsTheDecodedCommand := by
  refine fun s => ⟨fun i hrun hdecode => ⟨fun hin => ?_, fun rest hin => ?_⟩, fun hrun => ⟨fun hin => ?_, fun rest hin => ?_⟩⟩
  · rw [step_nil hin, engineTurn_busy hrun hdecode]
  · rw [step_cons hin, deliver]
    exact engineTurn_busy hrun hdecode
  · rw [step_nil hin, engineTurn_idle hrun]
  · rw [step_cons hin, deliver]
    exact engineTurn_idle hrun

/-- Settles O11: the map by its ranges, the registers by their numbers, the CSRs by their word numbers. -/
theorem windowShowsTheMap : Obligations.WindowShowsTheMap := by
  refine ⟨implemented_iff, fun r => by cases r <;> rfl, fun r => by cases r <;> rfl, fun r => by cases r <;> rfl,
    fun s => ⟨fun a => windowByte_of_implemented, fun a => windowByte_of_reserved, fun j hj => ?_⟩⟩
  have hcsr (k : Nat) (hk : k < 10) := windowByte_csr s (Nat.lt_of_lt_of_le hk (by decide : 10 ≤ 64)) hj
  have hid := hcsr 0 (by decide)
  rw [Nat.mul_zero, Nat.zero_add] at hid
  exact ⟨hid, hcsr 1 (by decide), hcsr 2 (by decide), hcsr 3 (by decide), hcsr 4 (by decide), hcsr 5 (by decide),
    hcsr 6 (by decide), hcsr 7 (by decide), hcsr 8 (by decide), hcsr 9 (by decide)⟩

/-- Settles O14: each write lands by `State.writeCsr`, evaluated at its offset. -/
theorem csrWritesStoreTheirFields : Obligations.CsrWritesStoreTheirFields := by
  rintro s u addr v rest hrun hin rfl
  refine ⟨?_, ?_, ?_, ?_, ?_, ?_, ?_, ?ignored⟩
  case ignored =>
    intro haddr
    rw [step_writeCsr hrun hin (by omega) (by omega) (by omega) (by omega), writeCsr_ignored v (by omega)]
  all_goals
    rintro rfl
    exact step_writeCsr hrun hin (by decide) (by decide) (by decide) (by decide)

/-- Settles O15: `STATUS` bit by bit, and the W1C write, which lands in both states. -/
theorem statusReadsAndClearsItsFields : Obligations.StatusReadsAndClearsItsFields := by
  intro s
  obtain ⟨hbusy, hdone, herr, heq, haccv, hcmdovr⟩ := status_getLsbD s
  obtain ⟨hlow, hcode, hhigh⟩ := status_extractLsb' s
  refine ⟨⟨hbusy, hdone, herr, heq, haccv, hcmdovr, hlow, hcode, hhigh⟩, by rw [hdone, herr, State.irq], fun v rest hin => ?_⟩
  rw [step_cons hin, deliver, hostWrite_csr v (by decide) (by decide), State.landWrite, if_pos (by rfl)]
  rfl

/-- Settles O16: the step is the reset event, and the reset state reads as computed. -/
theorem resetRestoresTheResetState : Obligations.ResetRestoresTheResetState :=
  ⟨fun _ _ hin => step_cons hin, rfl, rfl, rfl, rfl, fun _ => rfl, reset_windowByte⟩

end Sys2Proof.Proofs
end

section
/-! The host's transactions (R61 to R65, R291): what a read answers, what a write lands as, and where the bytes stand in the
word on the bus. -/

namespace Sys2Proof.Machine

variable {s : State} {addr n : Nat}

/-! ## The bytes of a bus word (R61) -/

/-- Byte `k` of the little-endian word of a byte string is its byte `k`; past its end the word is 0. -/
theorem extractLsb'_leNat (x : List Byte) {k : Nat} (hk : k < 4) :
    (BitVec.ofNat 32 (leNat x)).extractLsb' (8 * k) 8 = x.getD k 0 := by
  apply BitVec.eq_of_getLsbD_eq
  intro j hj
  have hbit : 8 * k + j < 32 := by omega
  have hdiv : (8 * k + j) / 8 = k := by omega
  have hmod : (8 * k + j) % 8 = j := by omega
  rw [BitVec.getLsbD_extractLsb', BitVec.getLsbD_ofNat, testBit_leNat, hdiv, hmod]
  simp [hbit, hj]

/-- The bytes a write takes from its word. -/
theorem getD_leBytes_toNat (v : Word) {k : Nat} (hk : k < n) :
    (leBytes n v.toNat).getD k 0 = v.extractLsb' (8 * k) 8 := by
  rw [getD_leBytes n v.toNat k hk, BitVec.extractLsb', Nat.shiftRight_eq_div_pow]

/-! ## Reads -/

/-- The window does not show the schedule. -/
@[simp] theorem windowByte_inputs (s : State) (l : List Event) (a : Nat) :
    State.windowByte { s with inputs := l } a = s.windowByte a := rfl

theorem step_read {rest : List Event} (hin : s.inputs = .read addr n :: rest) :
    step s = .next (State.hostRead { s with inputs := rest } addr n) := step_cons hin

theorem hostRead_illegal (h : ¬ LegalAccess addr n) : s.hostRead addr n = { s with response := .busError } := by
  rw [State.hostRead, if_neg (mt (accessLegal_iff addr n).1 h)]

/-- The busy engine answers 0 to a read of a data offset (R62, R291). -/
theorem hostRead_refused (h : LegalAccess addr n) (hrun : s.run = .busy) (ha : 0x0100 ≤ addr) :
    s.hostRead addr n = { s.accessRefused with response := .value 0 } := by
  have hdata : dataStart ≤ addr := ha
  have hrefused : (decide (dataStart ≤ addr) && decide (s.run = .busy)) = true := by simp [hrun, hdata]
  rw [State.hostRead, if_pos ((accessLegal_iff addr n).2 h), if_pos hrefused]

/-- A CSR is read in either `STATE`, a data offset of the idle engine only (R62). -/
theorem hostRead_served (h : LegalAccess addr n) (hs : addr < 0x0100 ∨ s.run = .idle) :
    s.hostRead addr n =
      { s with response := .value (BitVec.ofNat 32 (leNat ((List.range n).map fun k => s.windowByte (addr + k)))) } := by
  have hserved : ¬ (decide (dataStart ≤ addr) && decide (s.run = .busy)) = true := by
    rw [Bool.and_eq_true, decide_eq_true_eq, decide_eq_true_eq]
    rintro ⟨hdata, hbusy⟩
    rcases hs with hlow | hidle
    · exact absurd hdata (Nat.not_le.2 hlow)
    · simp [hidle] at hbusy
  rw [State.hostRead, if_pos ((accessLegal_iff addr n).2 h), if_neg hserved]

/-! ## Writes -/

theorem step_write {v : Word} {rest : List Event} (hin : s.inputs = .write addr n v :: rest) :
    step s = .next (State.hostWrite { s with inputs := rest } addr n v) := step_cons hin

theorem hostWrite_illegal (v : Word) (h : ¬ LegalAccess addr n ∨ (addr < 0x0100 ∧ n ≠ 4)) :
    s.hostWrite addr n v = { s with response := .busError } := by
  have hillegal : ¬ writeLegal addr n = true := by
    rw [writeLegal_iff]
    rintro ⟨hlegal, hword⟩
    rcases h with hnot | ⟨hlow, hne⟩
    · exact hnot hlegal
    · omega
  rw [State.hostWrite, if_neg hillegal]

theorem hostWrite_legal (v : Word) (h : LegalAccess addr n) (hword : 0x0100 ≤ addr ∨ n = 4) :
    s.hostWrite addr n v = { s.landWrite addr n v with response := .written } := by
  rw [State.hostWrite, if_pos ((writeLegal_iff addr n).2 ⟨h, hword⟩)]

/-- The busy engine drops a write to anything but `CMD` and `STATUS` (R63, R291). -/
theorem landWrite_refused (n : Nat) (v : Word) (hrun : s.run = .busy) (hcmd : addr ≠ 0x08) (hstatus : addr ≠ 0x10) :
    s.landWrite addr n v = s.accessRefused := by
  have hcmd' : ¬ addr = csrCmd := hcmd
  have hstatus' : ¬ addr = csrStatus := hstatus
  rw [State.landWrite, if_neg hstatus', if_pos hrun, if_neg hcmd']

/-- Each byte of a stored string lands at its own offset, where that is implemented; every other byte is unchanged. -/
theorem storeBytes_read (bs : List Byte) (s : State) (x a : Nat) :
    (s.storeBytes x bs).mem.read a =
      if x ≤ a ∧ a < x + bs.length ∧ implemented a = true then storedByte a (bs.getD (a - x) 0) else s.mem.read a := by
  induction bs generalizing s x with
  | nil =>
    have hout : ¬ (x ≤ a ∧ a < x + ([] : List Byte).length ∧ implemented a = true) := by
      rintro ⟨hle, hlt, -⟩
      exact absurd hlt (Nat.not_lt.2 hle)
    rw [if_neg hout, State.storeBytes]
  | cons b bs ih =>
    rw [State.storeBytes, ih, storeByte_read, ← storedByte, List.length_cons]
    by_cases hax : a = x
    · subst hax
      simp
    · by_cases hlt : a < x
      · have hle : ¬ x ≤ a := Nat.not_le.2 hlt
        have hle' : ¬ x + 1 ≤ a := by omega
        simp [hax, hle, hle']
      · have hsub : a - x = a - (x + 1) + 1 := by omega
        have hle : x + 1 ≤ a := by omega
        have hle' : x ≤ a := by omega
        have hend : x + 1 + bs.length = x + (bs.length + 1) := by omega
        simp [hax, hle, hle', hsub, hend]

/-- At an implemented offset the slots' high bytes are the odd offsets from the sparse registers on (R61, R66). -/
theorem storedByte_of_implemented {a : Nat} (v : Byte) (h : implemented a = true) :
    storedByte a v = if 0x3000 ≤ a ∧ a % 2 = 1 then v &&& 0x83 else v := by
  have hhigh : slotHigh a = true ↔ 0x3000 ≤ a ∧ a % 2 = 1 := by
    rw [implemented_iff] at h
    rw [slotHigh_iff]
    omega
  rw [storedByte]
  exact if_congr hhigh rfl rfl

end Sys2Proof.Machine

namespace Sys2Proof.Proofs

open Sys2Proof Sys2Proof.Machine

/-- Settles O12: the read is served, and the answer's bytes are those of the window. -/
theorem readReturnsTheWindowBytes : Obligations.ReadReturnsTheWindowBytes := by
  intro s addr n rest hlegal hserved hin
  have hread := hostRead_served (s := { s with inputs := rest }) hlegal hserved
  refine ⟨_, by rw [step_read hin, hread], fun k hk => ?_⟩
  rw [extractLsb'_leNat _ hk]
  by_cases hkn : k < n
  · simp [List.getD_eq_getElem?_getD, hkn]
  · rw [if_neg hkn, List.getD_eq_default _ _ (by simpa using hkn)]

/-- Settles O13: the bytes land one by one, and a stored string changes the memory alone. -/
theorem writeStoresTheBytes : Obligations.WriteStoresTheBytes := by
  intro s addr n v rest hlegal ha hrun hin
  have hland := landWrite_data (s := { s with inputs := rest }) (n := n) (v := v) hrun ha
  refine ⟨_, by rw [step_write hin, hostWrite_legal v hlegal (.inl ha), hland], ?frame, fun a => ?bytes⟩
  case frame =>
    obtain ⟨m, hm⟩ := storeBytes_frame (leBytes n v.toNat) { s with inputs := rest } addr
    rw [hm]
  case bytes =>
    refine (storeBytes_read _ _ addr a).trans ?_
    rw [leBytes_length]
    refine ite_congr rfl (fun hstored => ?_) fun _ => rfl
    obtain ⟨hle, hlt, himp⟩ := hstored
    rw [storedByte_of_implemented _ himp, getD_leBytes_toNat v (by omega)]

/-- Settles O8: both refused accesses set `ACCV` and are answered. -/
theorem busyEngineRefusesAccesses : Obligations.BusyEngineRefusesAccesses := by
  refine fun s addr n rest hrun hlegal => ⟨fun ha hin => ?_, fun v ha hin => ?_⟩
  · have hread := hostRead_refused (s := { s with inputs := rest }) hlegal hrun ha
    rw [step_read hin, hread, State.accessRefused]
  · have hland := landWrite_refused (s := { s with inputs := rest }) (addr := addr) n v hrun (by omega) (by omega)
    rw [step_write hin, hostWrite_legal v hlegal (by omega), hland, State.accessRefused]

/-- Settles O10: the read and the write of an illegal access, the write of a CSR other than as a word among them. -/
theorem busErrorHasNoEffect : Obligations.BusErrorHasNoEffect := by
  refine fun s addr n v rest => ⟨fun hillegal hin => ?_, fun hillegal hin => ?_⟩
  · rw [step_read hin, hostRead_illegal hillegal]
  · rw [step_write hin, hostWrite_illegal v hillegal]

end Sys2Proof.Proofs
end

section
/-! The fields of a command word (R90): a word is its five fields, the fields of a conjunction of words, and the test that no
bit above an operand's is set (R95, R96). -/

namespace Sys2Proof

/-! ## A word and its fields -/

/-- A word is the command word of its fields. -/
theorem commandWord_fields (w : Word) :
    commandWord (opcField w) (rdField w) (raField w) (rbField w) (immField w) = w := by
  apply BitVec.eq_of_toNat_eq
  have hw := w.isLt
  simp only [commandWord, opcField, rdField, raField, rbField, immField, BitVec.toNat_ofNat]
  omega

theorem word_eq_of_fields_eq {v w : Word} (hopc : opcField v = opcField w) (hrd : rdField v = rdField w)
    (hra : raField v = raField w) (hrb : rbField v = rbField w) (himm : immField v = immField w) : v = w := by
  rw [← commandWord_fields v, ← commandWord_fields w, hopc, hrd, hra, hrb, himm]

/-- The fields of a command word are what it was made of, where each fits its field. -/
theorem fields_commandWord {opc rd ra rb imm : Nat} (hopc : opc < 2 ^ 8) (hrd : rd < 2 ^ 4) (hra : ra < 2 ^ 4)
    (hrb : rb < 2 ^ 4) (himm : imm < 2 ^ 12) :
    opcField (commandWord opc rd ra rb imm) = opc ∧ rdField (commandWord opc rd ra rb imm) = rd ∧
    raField (commandWord opc rd ra rb imm) = ra ∧ rbField (commandWord opc rd ra rb imm) = rb ∧
    immField (commandWord opc rd ra rb imm) = imm := by
  simp only [opcField, rdField, raField, rbField, immField, commandWord_toNat opc rd ra rb imm hopc hrd hra hrb himm]
  omega

theorem opcField_lt (w : Word) : opcField w < 2 ^ 8 := by
  have hw := w.isLt
  rw [opcField]
  omega

theorem rdField_lt (w : Word) : rdField w < 2 ^ 4 := Nat.mod_lt _ (by decide)

theorem raField_lt (w : Word) : raField w < 2 ^ 4 := Nat.mod_lt _ (by decide)

theorem rbField_lt (w : Word) : rbField w < 2 ^ 4 := Nat.mod_lt _ (by decide)

theorem immField_lt (w : Word) : immField w < 2 ^ 12 := Nat.mod_lt _ (by decide)

/-! ## Masks -/

theorem opcField_and (v w : Word) : opcField (v &&& w) = opcField v &&& opcField w := by
  rw [opcField, BitVec.toNat_and, Nat.and_div_two_pow, opcField, opcField]

theorem rdField_and (v w : Word) : rdField (v &&& w) = rdField v &&& rdField w := by
  rw [rdField, BitVec.toNat_and, Nat.and_div_two_pow, Nat.and_mod_two_pow (n := 4), rdField, rdField]

theorem raField_and (v w : Word) : raField (v &&& w) = raField v &&& raField w := by
  rw [raField, BitVec.toNat_and, Nat.and_div_two_pow, Nat.and_mod_two_pow (n := 4), raField, raField]

theorem rbField_and (v w : Word) : rbField (v &&& w) = rbField v &&& rbField w := by
  rw [rbField, BitVec.toNat_and, Nat.and_div_two_pow, Nat.and_mod_two_pow (n := 4), rbField, rbField]

theorem immField_and (v w : Word) : immField (v &&& w) = immField v &&& immField w := by
  rw [immField, BitVec.toNat_and, Nat.and_mod_two_pow, immField, immField]

/-- A mask test of a word, field by field. -/
theorem and_eq_iff_fields {w mask pattern : Word} :
    w &&& mask = pattern ↔
      opcField w &&& opcField mask = opcField pattern ∧ rdField w &&& rdField mask = rdField pattern ∧
      raField w &&& raField mask = raField pattern ∧ rbField w &&& rbField mask = rbField pattern ∧
      immField w &&& immField mask = immField pattern := by
  simp only [← opcField_and, ← rdField_and, ← raField_and, ← rbField_and, ← immField_and]
  constructor
  · rintro rfl
    exact ⟨rfl, rfl, rfl, rfl, rfl⟩
  · rintro ⟨hopc, hrd, hra, hrb, himm⟩
    exact word_eq_of_fields_eq hopc hrd hra hrb himm

/-- A number of `n` bits has no bit above its low `k` bits iff it is below `2 ^ k`. -/
theorem and_high_bits_eq_zero {x k n : Nat} (hx : x < 2 ^ n) (hk : k ≤ n) : x &&& (2 ^ n - 2 ^ k) = 0 ↔ x < 2 ^ k := by
  obtain ⟨j, rfl⟩ := Nat.exists_eq_add_of_le hk
  have hmask : 2 ^ (k + j) - 2 ^ k = 2 ^ k * (2 ^ j - 1) := by rw [Nat.pow_add, Nat.mul_sub, Nat.mul_one]
  have hhigh : x / 2 ^ k < 2 ^ j := Nat.div_lt_of_lt_mul (by rwa [← Nat.pow_add])
  have hlow : (x &&& 2 ^ k * (2 ^ j - 1)) % 2 ^ k = 0 := by rw [Nat.and_mod_two_pow, Nat.mul_mod_right, Nat.and_zero]
  have hdiv : (x &&& 2 ^ k * (2 ^ j - 1)) / 2 ^ k = x / 2 ^ k := by
    rw [Nat.and_div_two_pow, Nat.mul_div_cancel_left _ (Nat.two_pow_pos k), Nat.and_two_pow_sub_one_eq_mod,
      Nat.mod_eq_of_lt hhigh]
  have hand : (x &&& 2 ^ k * (2 ^ j - 1)) = 2 ^ k * (x / 2 ^ k) := by
    rw [← hdiv, Nat.mul_div_cancel' (Nat.dvd_of_mod_eq_zero hlow)]
  rw [hmask, hand, Nat.mul_eq_zero, or_iff_right (Nat.two_pow_pos k).ne', Nat.div_eq_zero_iff,
    or_iff_right (Nat.two_pow_pos k).ne']

end Sys2Proof
end

section
/-! The rows of the decoder (R94 to R96): what each register field of a row stands for, which immediates it takes and which
commands it makes. `decode` is `Instr.row` (`decode_eq_ok_iff`), and `encode`, `Instr.wellFormed` and `opcodeRow` each
agree with it by one lemma. -/

namespace Sys2Proof

variable {w : Word} {i j : Instr}

/-! ## Operands -/

/-- What a register field stands for: its decoder, and the operands' numbers, which are those of its low `width` bits. -/
structure OperandField (α : Type) where
  decode : Nat → Except DecodeError α
  num : α → Nat
  width : Nat
  width_le : width ≤ 4
  decode_eq_ok : ∀ v r, decode v = .ok r ↔ num r = v
  num_lt : ∀ r, num r < 2 ^ width
  exists_num : ∀ v, v < 2 ^ width → ∃ r, num r = v

theorem decodeP_eq_ok (v : Nat) (r : PReg) : decodeP v = .ok r ↔ r.num = v := by
  constructor
  · unfold decodeP
    split <;> rintro ⟨⟩ <;> rfl
  · rintro rfl
    cases r <;> rfl

theorem decodeS_eq_ok (v : Nat) (r : SReg) : decodeS v = .ok r ↔ r.num = v := by
  constructor
  · unfold decodeS
    split <;> rintro ⟨⟩ <;> rfl
  · rintro rfl
    cases r <;> rfl

theorem decodeB_eq_ok (v : Nat) (r : BReg) : decodeB v = .ok r ↔ r.num = v := by
  constructor
  · unfold decodeB
    split <;> rintro ⟨⟩ <;> rfl
  · rintro rfl
    cases r <;> rfl

theorem decodeUnused_eq_ok (v : Nat) (r : Unit) : decodeUnused v = .ok r ↔ 0 = v := by
  rw [decodeUnused, eq_comm (a := 0)]
  split <;> simp [*]

/-- A class P register (R94). -/
def OperandField.classP : OperandField PReg where
  decode := decodeP
  num := PReg.num
  width := 2
  width_le := by decide
  decode_eq_ok := decodeP_eq_ok
  num_lt r := by cases r <;> decide
  exists_num
    | 0, _ => ⟨.p0, rfl⟩
    | 1, _ => ⟨.p1, rfl⟩
    | 2, _ => ⟨.p2, rfl⟩
    | 3, _ => ⟨.p3, rfl⟩

/-- A class S register (R94). -/
def OperandField.classS : OperandField SReg where
  decode := decodeS
  num := SReg.num
  width := 1
  width_le := by decide
  decode_eq_ok := decodeS_eq_ok
  num_lt r := by cases r <;> decide
  exists_num
    | 0, _ => ⟨.s0, rfl⟩
    | 1, _ => ⟨.s1, rfl⟩

/-- A class B register (R94). -/
def OperandField.classB : OperandField BReg where
  decode := decodeB
  num := BReg.num
  width := 2
  width_le := by decide
  decode_eq_ok := decodeB_eq_ok
  num_lt r := by cases r <;> decide
  exists_num
    | 0, _ => ⟨.b0, rfl⟩
    | 1, _ => ⟨.b1, rfl⟩
    | 2, _ => ⟨.b2, rfl⟩
    | 3, _ => ⟨.b3, rfl⟩

/-- A field that the opcode does not use (R96). -/
def OperandField.unused : OperandField Unit where
  decode := decodeUnused
  num _ := 0
  width := 0
  width_le := by decide
  decode_eq_ok := decodeUnused_eq_ok
  num_lt _ := by decide
  exists_num _ hv := ⟨(), (Nat.lt_one_iff.1 hv).symm⟩

theorem OperandField.num_lt_16 {α : Type} (f : OperandField α) (r : α) : f.num r < 2 ^ 4 :=
  (f.num_lt r).trans_le (Nat.pow_le_pow_right (by decide) f.width_le)

/-! ## Rows -/

/-- A row of the decoder: its opcode, its register fields, how many immediate bits it uses, and the commands it makes. -/
structure DecoderRow where
  {α β γ : Type}
  opc : Nat
  rd : OperandField α
  ra : OperandField β
  rb : OperandField γ
  bits : Nat
  make : α → β → γ → Nat → Instr
  opc_lt : opc < 2 ^ 8 := by decide
  bits_le : bits ≤ 12 := by decide

open OperandField in
/-- The row of each command. -/
def Instr.row : Instr → DecoderRow
  | .nop => { opc := 0x00, rd := unused, ra := unused, rb := unused, bits := 0, make := fun _ _ _ _ => .nop }
  | .wipe _ =>
    { opc := 0x01, rd := unused, ra := unused, rb := unused, bits := 11, make := fun _ _ _ m => .wipe (BitVec.ofNat 11 m) }
  | .padd _ _ _ => { opc := 0x10, rd := classP, ra := classP, rb := classP, bits := 0, make := fun d a b _ => .padd d a b }
  | .psub _ _ _ => { opc := 0x11, rd := classP, ra := classP, rb := classP, bits := 0, make := fun d a b _ => .psub d a b }
  | .pneg _ _ => { opc := 0x12, rd := classP, ra := classP, rb := unused, bits := 0, make := fun d a _ _ => .pneg d a }
  | .pscale _ _ _ =>
    { opc := 0x13, rd := classP, ra := classP, rb := unused, bits := 8, make := fun d a _ f => .pscale d a (BitVec.ofNat 8 f) }
  | .psrnd _ _ _ _ =>
    { opc := 0x14, rd := classP, ra := classP, rb := unused, bits := 8, make := fun d a _ x => .psrnd d a (x % 16) (x / 16) }
  | .pmuld _ _ _ => { opc := 0x15, rd := classP, ra := classP, rb := classP, bits := 0, make := fun d a b _ => .pmuld d a b }
  | .pmuls _ _ _ => { opc := 0x16, rd := classP, ra := classP, rb := classS, bits := 0, make := fun d a b _ => .pmuls d a b }
  | .ptosp _ _ => { opc := 0x17, rd := classS, ra := classP, rb := unused, bits := 0, make := fun d a _ _ => .ptosp d a }
  | .pfrsp _ _ => { opc := 0x18, rd := classP, ra := classS, rb := unused, bits := 0, make := fun d a _ _ => .pfrsp d a }
  | .pcteq _ _ => { opc := 0x19, rd := unused, ra := classP, rb := classP, bits := 0, make := fun _ a b _ => .pcteq a b }
  | .sunif _ _ => { opc := 0x20, rd := classP, ra := classB, rb := unused, bits := 0, make := fun d a _ _ => .sunif d a }
  | .shwt _ _ _ => { opc := 0x21, rd := classS, ra := classB, rb := unused, bits := 11, make := fun d a _ h => .shwt d a h }
  | .sderive _ _ => { opc := 0x22, rd := classB, ra := classB, rb := unused, bits := 0, make := fun d a _ _ => .sderive d a }
  | .srand _ _ => { opc := 0x23, rd := classB, ra := unused, rb := unused, bits := 7, make := fun d _ _ n => .srand d n }
  | .xefenc _ _ => { opc := 0x30, rd := classB, ra := classB, rb := unused, bits := 0, make := fun d a _ _ => .xefenc d a }
  | .xefdec _ _ => { opc := 0x31, rd := classB, ra := classB, rb := unused, bits := 0, make := fun d a _ _ => .xefdec d a }
  | .d2enc _ _ => { opc := 0x32, rd := classP, ra := classB, rb := unused, bits := 0, make := fun d a _ _ => .d2enc d a }
  | .d2dec _ _ => { opc := 0x33, rd := classB, ra := classP, rb := unused, bits := 0, make := fun d a _ _ => .d2dec d a }
  | .pack _ _ => { opc := 0x40, rd := unused, ra := classP, rb := unused, bits := 4, make := fun _ a _ l => .pack a l }
  | .unpack _ _ => { opc := 0x41, rd := classP, ra := unused, rb := unused, bits := 4, make := fun d _ _ l => .unpack d l }
  | .bcteq _ => { opc := 0x42, rd := unused, ra := unused, rb := unused, bits := 11, make := fun _ _ _ n => .bcteq n }
  | .bsel _ _ _ _ => { opc := 0x43, rd := classB, ra := classB, rb := classB, bits := 7, make := fun d a b n => .bsel d a b n }
  | .pkekg => { opc := 0x80, rd := unused, ra := unused, rb := unused, bits := 0, make := fun _ _ _ _ => .pkekg }
  | .pkeenc _ => { opc := 0x81, rd := unused, ra := classB, rb := unused, bits := 0, make := fun _ a _ _ => .pkeenc a }
  | .pkedec => { opc := 0x82, rd := unused, ra := unused, rb := unused, bits := 0, make := fun _ _ _ _ => .pkedec }
  | .kemkg => { opc := 0x90, rd := unused, ra := unused, rb := unused, bits := 0, make := fun _ _ _ _ => .kemkg }
  | .kemenc => { opc := 0x91, rd := unused, ra := unused, rb := unused, bits := 0, make := fun _ _ _ _ => .kemenc }
  | .kemdec => { opc := 0x92, rd := unused, ra := unused, rb := unused, bits := 0, make := fun _ _ _ _ => .kemdec }

/-! ## `decode` by rows -/

theorem decodeFields_eq_ok {α β γ : Type} {rd : Nat → Except DecodeError α} {ra : Nat → Except DecodeError β}
    {rb : Nat → Except DecodeError γ} {bits : Nat} {k : α → β → γ → Nat → Instr} :
    decodeFields w rd ra rb bits k = .ok i ↔
      ∃ d a b, rd (rdField w) = .ok d ∧ ra (raField w) = .ok a ∧ rb (rbField w) = .ok b ∧ immField w < 2 ^ bits ∧
        k d a b (immField w) = i := by
  unfold decodeFields decodeImm
  rcases rd (rdField w) with e | d
  · simp
  rcases ra (raField w) with e | a
  · simp
  rcases rb (rbField w) with e | b
  · simp
  by_cases himm : immField w < 2 ^ bits <;> simp [himm]

/-- A word with a command's opcode is decoded by the command's row. -/
theorem decode_eq_row (h : opcField w = i.row.opc) :
    decode w = decodeFields w i.row.rd.decode i.row.ra.decode i.row.rb.decode i.row.bits i.row.make := by
  rw [decode, h]
  cases i <;> rfl

/-- A command has the opcode of the word it was decoded from. -/
theorem opcField_of_decode (h : decode w = .ok i) : opcField w = i.row.opc := by
  unfold decode at h
  split at h
  case h_31 => cases h
  all_goals
    obtain ⟨d, a, b, -, -, -, -, rfl⟩ := decodeFields_eq_ok.1 h
    assumption

/-- The words that decode to a command: those with its row's opcode, whose fields are numbers of operands that make it. -/
theorem decode_eq_ok_iff : decode w = .ok i ↔ opcField w = i.row.opc ∧
    ∃ d a b, i.row.rd.num d = rdField w ∧ i.row.ra.num a = raField w ∧ i.row.rb.num b = rbField w ∧
      immField w < 2 ^ i.row.bits ∧ i.row.make d a b (immField w) = i := by
  constructor
  · intro h
    have hopc := opcField_of_decode h
    rw [decode_eq_row hopc] at h
    simpa only [OperandField.decode_eq_ok] using And.intro hopc (decodeFields_eq_ok.1 h)
  · rintro ⟨hopc, hfields⟩
    rw [decode_eq_row hopc]
    simpa only [decodeFields_eq_ok, OperandField.decode_eq_ok] using hfields

/-! ## The other tables by rows -/

/-- A row makes every well-formed command of the row. -/
theorem exists_make (h : i.wellFormed = true) : ∃ d a b m, m < 2 ^ i.row.bits ∧ i.row.make d a b m = i := by
  cases i with
  | nop | pkekg | pkedec | kemkg | kemenc | kemdec => exact ⟨(), (), (), 0, Nat.one_pos, rfl⟩
  | padd d a b | psub d a b | pmuld d a b | pmuls d a b => exact ⟨d, a, b, 0, Nat.one_pos, rfl⟩
  | pneg d a | ptosp d a | pfrsp d a | sunif d a | sderive d a | xefenc d a | xefdec d a | d2enc d a | d2dec d a =>
    exact ⟨d, a, (), 0, Nat.one_pos, rfl⟩
  | pcteq a b => exact ⟨(), a, b, 0, Nat.one_pos, rfl⟩
  | pkeenc a => exact ⟨(), a, (), 0, Nat.one_pos, rfl⟩
  | wipe mask => exact ⟨(), (), (), mask.toNat, mask.isLt, congrArg Instr.wipe (by simp)⟩
  | pscale d a f => exact ⟨d, a, (), f.toNat, f.isLt, congrArg (Instr.pscale d a) (by simp)⟩
  | psrnd d a ln ld =>
    obtain ⟨hln, hld⟩ : ln < 2 ^ 4 ∧ ld < 2 ^ 4 := by simpa [Instr.wellFormed] using h
    have hmod : (ld * 16 + ln) % 16 = ln := by omega
    have hdiv : (ld * 16 + ln) / 16 = ld := by omega
    exact ⟨d, a, (), ld * 16 + ln, show _ < 2 ^ 8 by omega, congrArg₂ (Instr.psrnd d a) hmod hdiv⟩
  | shwt d a h' => exact ⟨d, a, (), h', of_decide_eq_true h, rfl⟩
  | srand d n => exact ⟨d, (), (), n, of_decide_eq_true h, rfl⟩
  | pack a l => exact ⟨(), a, (), l, of_decide_eq_true h, rfl⟩
  | unpack d l => exact ⟨d, (), (), l, of_decide_eq_true h, rfl⟩
  | bcteq n => exact ⟨(), (), (), n, of_decide_eq_true h, rfl⟩
  | bsel d a b n => exact ⟨d, a, b, n, of_decide_eq_true h, rfl⟩

/-- The command that a row makes is well-formed, and its word is the row's opcode with the operands' numbers. -/
theorem wellFormed_encode_make (i : Instr) (d : i.row.α) (a : i.row.β) (b : i.row.γ) {m : Nat} (hm : m < 2 ^ i.row.bits) :
    (i.row.make d a b m).wellFormed = true ∧
      encode (i.row.make d a b m) = commandWord i.row.opc (i.row.rd.num d) (i.row.ra.num a) (i.row.rb.num b) m := by
  cases i with
  | wipe | pscale => exact ⟨rfl, congrArg (commandWord _ _ _ _) (Nat.mod_eq_of_lt hm)⟩
  | psrnd =>
    have hm : m < 2 ^ 8 := hm
    have hln : m % 16 < 2 ^ 4 := Nat.mod_lt _ (by decide)
    have hld : m / 16 < 2 ^ 4 := by omega
    refine ⟨?_, congrArg (commandWord _ _ _ _) (Nat.div_add_mod' m 16)⟩
    simpa only [Instr.row, Instr.wellFormed, Bool.and_eq_true, decide_eq_true_eq] using And.intro hln hld
  | shwt | srand | pack | unpack | bcteq | bsel => exact ⟨decide_eq_true hm, rfl⟩
  | _ =>
    obtain rfl : m = 0 := Nat.lt_one_iff.1 hm
    exact ⟨rfl, rfl⟩

/-- The match and mask of the opcode map, field by field: of each operand, the bits above its width must be 0. -/
theorem opcodeRow_fields (i : Instr) :
    (opcField (opcodeRow i).pattern = i.row.opc ∧ rdField (opcodeRow i).pattern = 0 ∧ raField (opcodeRow i).pattern = 0 ∧
      rbField (opcodeRow i).pattern = 0 ∧ immField (opcodeRow i).pattern = 0) ∧
    opcField (opcodeRow i).mask = 2 ^ 8 - 1 ∧ rdField (opcodeRow i).mask = 2 ^ 4 - 2 ^ i.row.rd.width ∧
    raField (opcodeRow i).mask = 2 ^ 4 - 2 ^ i.row.ra.width ∧ rbField (opcodeRow i).mask = 2 ^ 4 - 2 ^ i.row.rb.width ∧
    immField (opcodeRow i).mask = 2 ^ 12 - 2 ^ i.row.bits := by
  cases i <;> dsimp only [opcodeRow, Instr.row] <;> decide

/-- The words that select a command's row of the opcode map (R96): those with its opcode whose fields fit the operands. -/
theorem selects_iff : i.selects w ↔
    opcField w = i.row.opc ∧ rdField w < 2 ^ i.row.rd.width ∧ raField w < 2 ^ i.row.ra.width ∧
      rbField w < 2 ^ i.row.rb.width ∧ immField w < 2 ^ i.row.bits := by
  obtain ⟨⟨hopc, hrd, hra, hrb, himm⟩, hopcMask, hrdMask, hraMask, hrbMask, himmMask⟩ := opcodeRow_fields i
  rw [Instr.selects, and_eq_iff_fields, hopc, hrd, hra, hrb, himm, hopcMask, hrdMask, hraMask, hrbMask, himmMask,
    Nat.and_two_pow_sub_one_eq_mod, Nat.mod_eq_of_lt (opcField_lt w),
    and_high_bits_eq_zero (rdField_lt w) i.row.rd.width_le, and_high_bits_eq_zero (raField_lt w) i.row.ra.width_le,
    and_high_bits_eq_zero (rbField_lt w) i.row.rb.width_le, and_high_bits_eq_zero (immField_lt w) i.row.bits_le]

/-- The commands that a row of the decoder makes are in one row of the opcode map. -/
theorem opcodeRow_make (i : Instr) (d : i.row.α) (a : i.row.β) (b : i.row.γ) (m : Nat) :
    opcodeRow (i.row.make d a b m) = opcodeRow i := by
  cases i <;> rfl

/-! ## Decoding and encoding -/

theorem decode_encode (h : i.wellFormed = true) : decode (encode i) = .ok i := by
  obtain ⟨d, a, b, m, hm, hmake⟩ := exists_make h
  obtain ⟨-, hencode⟩ := wellFormed_encode_make i d a b hm
  rw [hmake] at hencode
  have hm12 : m < 2 ^ 12 := hm.trans_le (Nat.pow_le_pow_right (by decide) i.row.bits_le)
  obtain ⟨hopc, hrd, hra, hrb, himm⟩ := fields_commandWord i.row.opc_lt (i.row.rd.num_lt_16 d) (i.row.ra.num_lt_16 a)
    (i.row.rb.num_lt_16 b) hm12
  rw [hencode, decode_eq_ok_iff, himm]
  exact ⟨hopc, d, a, b, hrd.symm, hra.symm, hrb.symm, hm, hmake⟩

theorem wellFormed_encode_of_decode (h : decode w = .ok i) : i.wellFormed = true ∧ encode i = w := by
  obtain ⟨hopc, d, a, b, hrd, hra, hrb, himm, hmake⟩ := decode_eq_ok_iff.1 h
  have hrow := wellFormed_encode_make i d a b himm
  rwa [hmake, ← hopc, hrd, hra, hrb, commandWord_fields] at hrow

theorem selects_of_decode (h : decode w = .ok i) : i.selects w := by
  obtain ⟨hopc, d, a, b, hrd, hra, hrb, himm, -⟩ := decode_eq_ok_iff.1 h
  exact selects_iff.2 ⟨hopc, hrd ▸ i.row.rd.num_lt d, hra ▸ i.row.ra.num_lt a, hrb ▸ i.row.rb.num_lt b, himm⟩

theorem exists_decode_of_selects (h : j.selects w) : ∃ i, decode w = .ok i ∧ opcodeRow i = opcodeRow j := by
  obtain ⟨hopc, hrd, hra, hrb, himm⟩ := selects_iff.1 h
  obtain ⟨d, hd⟩ := j.row.rd.exists_num _ hrd
  obtain ⟨a, ha⟩ := j.row.ra.exists_num _ hra
  obtain ⟨b, hb⟩ := j.row.rb.exists_num _ hrb
  refine ⟨j.row.make d a b (immField w), ?_, opcodeRow_make j d a b _⟩
  rw [decode_eq_row hopc, decodeFields_eq_ok]
  simp only [OperandField.decode_eq_ok]
  exact ⟨d, a, b, hd, ha, hb, himm, rfl⟩

/-- A word that selects no row is illegal (R99). -/
theorem exists_decode_error (h : ∀ i : Instr, ¬ i.selects w) : ∃ e, decode w = .error e := by
  rcases hd : decode w with e | i
  · exact ⟨e, rfl⟩
  · exact absurd (selects_of_decode hd) (h i)

end Sys2Proof

namespace Sys2Proof.Proofs

open Sys2Proof Sys2Proof.Machine

/-- Settles O1: the fields of the command's word are its operands' numbers, from which its row makes the command. -/
theorem decodeOfEncodeIsTheCommand : Obligations.DecodeOfEncodeIsTheCommand := fun _ => decode_encode

/-- Settles O2: the command is made by its row from the word's fields, and the word is that of its fields. -/
theorem encodeOfDecodeIsTheWord : Obligations.EncodeOfDecodeIsTheWord := fun _ _ => wellFormed_encode_of_decode

/-- Settles O3: the mask test of a row is that each field fits its operand, and then its operands exist. -/
theorem decoderFollowsTheOpcodeMap : Obligations.DecoderFollowsTheOpcodeMap :=
  fun _ => ⟨fun _ => selects_of_decode, fun _ => exists_decode_of_selects⟩

/-- Settles O4: each word is evaluated. -/
theorem exampleWordsDecode : Obligations.ExampleWordsDecode := by
  unfold Obligations.ExampleWordsDecode
  decide

end Sys2Proof.Proofs
end

section
/-! How a command starts (R91, R292) and how it ends (R92, R99, R241, R246). -/

namespace Sys2Proof.Machine

variable {s t u : State} {d : Destination}

/-! ## Start -/

/-- The idle engine starts the command written to `CMD` (R91). -/
theorem landWrite_cmd_idle (n : Nat) (v : Word) (hrun : s.run = .idle) : s.landWrite 0x08 n v = s.startCommand v := by
  have hstatus : ¬ 0x08 = csrStatus := by decide
  have hbusy : ¬ s.run = .busy := by simp [hrun]
  rw [State.landWrite, if_neg hstatus, if_neg hbusy, if_pos (by rfl)]

/-- The busy engine drops a write to `CMD` (R292). -/
theorem landWrite_cmd_busy (n : Nat) (v : Word) (hrun : s.run = .busy) :
    s.landWrite 0x08 n v = { s with cmdovr := true } := by
  have hstatus : ¬ 0x08 = csrStatus := by decide
  rw [State.landWrite, if_neg hstatus, if_pos hrun, if_pos (by rfl)]

theorem step_writeCmd {v : Word} {rest : List Event} (hin : s.inputs = .write 0x08 4 v :: rest) :
    step s = .next { State.landWrite { s with inputs := rest } 0x08 4 v with response := .written } := by
  rw [step_write hin, hostWrite_csr v (by decide) (by decide)]

/-! ## End -/

/-- A word that selects no row raises `E_ILLCMD` (R99, R242). -/
theorem engineTurn_of_selects_none (hrun : s.run = .busy) (h : ∀ i : Instr, ¬ i.selects s.cmd) :
    engineTurn s = .next (s.failed 1) := by
  obtain ⟨e, hdecode⟩ := exists_decode_error h
  rw [engineTurn_illegal hrun hdecode]
  rfl

/-- The errors of commands have the codes 2 to 5 (R241). -/
theorem ErrorCode.two_le_code {e : ErrorCode} (he : e ≠ .illcmd) : 2 ≤ e.code.toNat := by
  cases e with
  | illcmd => exact absurd rfl he
  | operand | param | len | entropy => decide

/-- What a command leaves: `CFG`, `CMD`, `ACCV`, `CMDOVR`, the host's side and the XEf code. -/
structure KeepsHostSide (s t : State) : Prop where
  cfg : t.cfg = s.cfg
  cmd : t.cmd = s.cmd
  accv : t.accv = s.accv
  cmdovr : t.cmdovr = s.cmdovr
  inputs : t.inputs = s.inputs
  response : t.response = s.response
  xef : t.xef = s.xef

theorem KeepsHostSide.of_control_eq (h : t.control = s.control) : KeepsHostSide s t :=
  ⟨(congrArg State.cfg h :), (congrArg State.cmd h :), (congrArg State.accv h :), (congrArg State.cmdovr h :),
    (congrArg State.inputs h :), (congrArg State.response h :), (congrArg State.xef h :)⟩

theorem flags_eq_of_control_eq (h : t.control = s.control) : t.done = s.done ∧ t.err = s.err ∧ t.errcode = s.errcode :=
  ⟨(congrArg State.done h :), (congrArg State.err h :), (congrArg State.errcode h :)⟩

theorem Ends.run_idle (h : Ends s d t) : t.run = .idle := by
  cases h <;> rfl

theorem Ends.keepsHostSide (h : Ends s d t) : KeepsHostSide s t := by
  cases h with
  | refused e => exact ⟨rfl, rfl, rfl, rfl, rfl, rfl, rfl⟩
  | completed hu | failed hu =>
    obtain ⟨hcfg, hcmd, haccv, hcmdovr, hinputs, hresponse, hxef⟩ := KeepsHostSide.of_control_eq hu.control
    exact ⟨hcfg, hcmd, haccv, hcmdovr, hinputs, hresponse, hxef⟩

/-- A command ends with `DONE`, or with `ERR` and the code of one of its errors; the other flags stay (R92, R246). -/
theorem Ends.outcome (h : Ends s d t) :
    (t.done = true ∧ t.err = s.err ∧ t.errcode = s.errcode) ∨
      (t.done = s.done ∧ t.err = true ∧ 2 ≤ t.errcode.toNat ∧ t.errcode.toNat ≤ 5) := by
  cases h with
  | refused e he => exact .inr ⟨rfl, rfl, e.two_le_code he, e.code_le⟩
  | completed hu =>
    obtain ⟨-, herr, hcode⟩ := flags_eq_of_control_eq hu.control
    exact .inl ⟨rfl, herr, hcode⟩
  | failed hu =>
    obtain ⟨hdone, -, -⟩ := flags_eq_of_control_eq hu.control
    exact .inr ⟨hdone, rfl, ErrorCode.entropy.two_le_code (by decide), ErrorCode.entropy.code_le⟩

end Sys2Proof.Machine

namespace Sys2Proof.Proofs

open Sys2Proof Sys2Proof.Machine

/-- Settles O17: every end that a command's destination allows is such a completion. -/
theorem everyCommandCompletes : Obligations.EveryCommandCompletes := by
  intro i s
  obtain ⟨t, hexec, hends⟩ := exec_ends i s
  obtain ⟨hcfg, hcmd, haccv, hcmdovr, hinputs, hresponse, hxef⟩ := hends.keepsHostSide
  exact ⟨t, hexec, hends.run_idle, hcfg, hcmd, haccv, hcmdovr, hinputs, hresponse, hxef, hends.outcome⟩

/-- Settles O6: the engine's turn, with nothing scheduled and with itself scheduled next. -/
theorem illegalWordEndsWithIllcmd : Obligations.IllegalWordEndsWithIllcmd := by
  refine fun s hrun hnone => ⟨fun hin => ?_, fun rest hin => ?_⟩
  · rw [step_nil hin, engineTurn_of_selects_none hrun hnone]
  · rw [step_cons hin, deliver]
    exact engineTurn_of_selects_none hrun hnone

/-- Settles O7: the write lands on `CMD` in either `STATE`, and is answered. -/
theorem commandWriteStartsOrIsDropped : Obligations.CommandWriteStartsOrIsDropped := by
  refine fun s v rest hin => ⟨fun hrun => ?_, fun hrun => ?_⟩
  · have hland := landWrite_cmd_idle (s := { s with inputs := rest }) 4 v hrun
    rw [step_writeCmd hin, hland, State.startCommand]
  · have hland := landWrite_cmd_busy (s := { s with inputs := rest }) 4 v hrun
    rw [step_writeCmd hin, hland]

end Sys2Proof.Proofs
end

section
/-! The system commands (R110, R111): the ranges that WIPE zeroes, and the state it leaves. -/

namespace Sys2Proof.Machine

/-! ## The wiped ranges -/

/-- The memory with `size` zeros at `base`, where `bit` is set. -/
def Memory.zeroIf (bit : Bool) (base size : Nat) (m : Memory) : Memory :=
  if bit then m.writeRange base (List.replicate size 0) else m

theorem Memory.read_zeroIf (bit : Bool) (base size : Nat) (m : Memory) (a : Nat) :
    (m.zeroIf bit base size).read a = if bit = true ∧ base ≤ a ∧ a < base + size then 0 else m.read a := by
  cases bit with
  | false => simp [zeroIf]
  | true =>
    by_cases ha : base ≤ a ∧ a < base + size
    · obtain ⟨k, rfl⟩ := Nat.exists_eq_add_of_le ha.1
      have hk : k < size := by omega
      rw [if_pos ⟨rfl, ha⟩, zeroIf, if_pos rfl, read_writeRange_in _ _ _ _ (by simpa using hk)]
      simp [hk]
    · have hout : a < base ∨ base + size ≤ a := by omega
      rw [if_neg fun h => ha h.2, zeroIf, if_pos rfl, read_writeRange_out _ _ _ _ (by simpa using hout)]

/-- An item of the window that WIPE can name: its bit of the mask, and the range it fills. -/
structure WipeItem where
  bit : Nat
  base : Nat
  size : Nat

/-- The mask names the item, and the offset `a` is in it. -/
abbrev WipeItem.Wipes (r : WipeItem) (mask : BitVec 11) (a : Nat) : Prop :=
  mask.getLsbD r.bit = true ∧ r.base ≤ a ∧ a < r.base + r.size

/-- The items of the window in the order of the mask's bits (R66, R111). -/
def wipeItems : List WipeItem :=
  [⟨0, Buffer.ssbuf.base, Buffer.ssbuf.size⟩, ⟨1, Buffer.msgbuf.base, Buffer.msgbuf.size⟩,
    ⟨2, Buffer.pkbuf.base, Buffer.pkbuf.size⟩, ⟨3, Buffer.skbuf.base, Buffer.skbuf.size⟩,
    ⟨4, Buffer.ctbuf.base, Buffer.ctbuf.size⟩, ⟨5, Buffer.xbuf.base, Buffer.xbuf.size⟩,
    ⟨6, BReg.b0.base, 4 * bBytes⟩, ⟨7, PReg.p0.base, 4 * nMax⟩, ⟨8, SReg.s0.base, 4 * sMax⟩]

/-- The memory with the items wiped that the mask names. -/
def Memory.wipe (mask : BitVec 11) (items : List WipeItem) (m : Memory) : Memory :=
  items.foldl (fun m r => m.zeroIf (mask.getLsbD r.bit) r.base r.size) m

/-- Wiping makes 0 what stands in a named item, and nothing else, whether or not items overlap. -/
theorem Memory.read_wipe (mask : BitVec 11) (items : List WipeItem) (m : Memory) (a : Nat) :
    (m.wipe mask items).read a = if ∃ r ∈ items, r.Wipes mask a then 0 else m.read a := by
  induction items generalizing m with
  | nil => simp [wipe]
  | cons r items ih =>
    have hcons : m.wipe mask (r :: items) = (m.zeroIf (mask.getLsbD r.bit) r.base r.size).wipe mask items := rfl
    rw [hcons, ih, read_zeroIf, ← ite_or]
    simp only [List.exists_mem_cons_iff, or_comm]

/-- The wiped ranges by their offsets (R66). -/
theorem exists_mem_wipeItems (mask : BitVec 11) (a : Nat) : (∃ r ∈ wipeItems, r.Wipes mask a) ↔
    (mask.getLsbD 0 = true ∧ 0x0100 ≤ a ∧ a < 0x0120) ∨ (mask.getLsbD 1 = true ∧ 0x0120 ≤ a ∧ a < 0x0140) ∨
    (mask.getLsbD 2 = true ∧ 0x0400 ≤ a ∧ a < 0x07A0) ∨ (mask.getLsbD 3 = true ∧ 0x0800 ≤ a ∧ a < 0x0C20) ∨
    (mask.getLsbD 4 = true ∧ 0x1000 ≤ a ∧ a < 0x1700) ∨ (mask.getLsbD 5 = true ∧ 0x1800 ≤ a ∧ a < 0x1F00) ∨
    (mask.getLsbD 6 = true ∧ 0x0200 ≤ a ∧ a < 0x0300) ∨ (mask.getLsbD 7 = true ∧ 0x2000 ≤ a ∧ a < 0x3000) ∨
    (mask.getLsbD 8 = true ∧ 0x3000 ≤ a ∧ a < 0x4000) := by
  simp only [wipeItems, List.exists_mem_cons_iff, List.not_mem_nil, false_and, exists_false, or_false]
  rfl

/-! ## The steps of WIPE -/

namespace State

variable (s : State) (bit : Bool)

theorem wipeIf_zeroAt (base size : Nat) :
    s.wipeIf bit (zeroAt base size) = { s with mem := s.mem.zeroIf bit base size } := by
  cases bit <;> rfl

theorem wipeIf_pklen (base size : Nat) :
    s.wipeIf bit (fun s => { s.zeroAt base size with pklen := 0 }) =
      { s with mem := s.mem.zeroIf bit base size, pklen := if bit then 0 else s.pklen } := by
  cases bit <;> rfl

theorem wipeIf_sklen (base size : Nat) :
    s.wipeIf bit (fun s => { s.zeroAt base size with sklen := 0 }) =
      { s with mem := s.mem.zeroIf bit base size, sklen := if bit then 0 else s.sklen } := by
  cases bit <;> rfl

theorem wipeIf_ctlen (base size : Nat) :
    s.wipeIf bit (fun s => { s.zeroAt base size with ctlen := 0 }) =
      { s with mem := s.mem.zeroIf bit base size, ctlen := if bit then 0 else s.ctlen } := by
  cases bit <;> rfl

theorem wipeIf_sparseLens (base size : Nat) :
    s.wipeIf bit (fun s => { s.zeroAt base size with s0len := 0, s1len := 0 }) =
      { s with
        mem := s.mem.zeroIf bit base size
        s0len := if bit then 0 else s.s0len, s1len := if bit then 0 else s.s1len } := by
  cases bit <;> rfl

theorem wipeIf_arg : s.wipeIf bit (fun s => { s with arg := 0 }) = { s with arg := if bit then 0 else s.arg } := by
  cases bit <;> rfl

theorem wipeIf_eq : s.wipeIf bit (fun s => { s with eq := false }) = { s with eq := if bit then false else s.eq } := by
  cases bit <;> rfl

/-- WIPE's steps together (R111): the memory, the lengths, `ARG` and `EQ`; every other field stays. -/
theorem wipe_eq (mask : BitVec 11) : s.wipe mask = { s with
    mem := s.mem.wipe mask wipeItems
    pklen := if mask.getLsbD 2 then 0 else s.pklen
    sklen := if mask.getLsbD 3 then 0 else s.sklen
    ctlen := if mask.getLsbD 4 then 0 else s.ctlen
    s0len := if mask.getLsbD 8 then 0 else s.s0len
    s1len := if mask.getLsbD 8 then 0 else s.s1len
    arg := if mask.getLsbD 9 then 0 else s.arg
    eq := if mask.getLsbD 10 then false else s.eq } := by
  simp only [wipe, wipeIf_zeroAt, wipeIf_pklen, wipeIf_sklen, wipeIf_ctlen, wipeIf_sparseLens, wipeIf_arg, wipeIf_eq]
  rfl

end State

/-! ## The commands -/

/-- Every opcode: a word with it that selects no row is illegal (R99). -/
theorem raisesIllcmd (opc : Nat) : RaisesIllcmd opc := fun _ hrun _ hnone => engineTurn_of_selects_none hrun hnone

theorem exec_nop (s : State) : exec .nop s = .next s.complete := rfl

theorem exec_wipe (mask : BitVec 11) (s : State) : exec (.wipe mask) s = .next (s.wipe mask).complete := rfl

theorem encode_wipe_toNat (mask : BitVec 11) : (encode (.wipe mask)).toNat = 0x01000000 + mask.toNat := by
  have hmask : mask.toNat < 4096 := mask.isLt.trans (by decide)
  rw [encode, commandWord_toNat _ _ _ _ _ (by decide) (by decide) (by decide) (by decide) hmask]
  omega

end Sys2Proof.Machine

namespace Sys2Proof.Proofs

open Sys2Proof Sys2Proof.Machine

/-- Settles O23: WIPE's fields are `State.wipe_eq`; its bytes are `Memory.read_wipe`, the items written out as ranges. -/
theorem nopCompletesAndWipeZeroes : Obligations.NopCompletesAndWipeZeroes := by
  refine ⟨⟨rfl, raisesIllcmd 0x00, exec_nop⟩, raisesIllcmd 0x01, fun mask s => ?_⟩
  refine ⟨encode_wipe_toNat mask, _, exec_wipe mask s, ?_, fun a => ?_⟩
  · rw [State.wipe_eq]
    rfl
  · have hmem : (s.wipe mask).complete.mem = s.mem.wipe mask wipeItems := by rw [State.wipe_eq]; rfl
    rw [hmem, Memory.read_wipe]
    exact if_congr (exists_mem_wipeItems mask a) rfl rfl

end Sys2Proof.Proofs
end

section
/-! The products of the ring (R130, R132, R140): a coefficient of the schoolbook product as a double sum over the two operands,
over the integers and modulo 256, and what follows from it for sums of operands and for a single term. -/

namespace Sys2Proof.Machine

open Finset

variable {a b c d : List Byte} {n k : Nat}

/-! ## Coefficients of the schoolbook product -/

theorem ofInt_eq_intCast (z : Int) : BitVec.ofInt 8 z = (z : Byte) := rfl

/-- The coefficient of `X^k` in `X^m` modulo `X^n + 1`, for `k < n` and `m < 2n` (R130). -/
def wrapSign (n k m : Nat) : Int := (if m = k then 1 else 0) - (if m = k + n then 1 else 0)

/-- The product of the coefficients at a pair of positions. -/
def pairProduct (a b : List Byte) (p : Nat × Nat) : Nat := (a.getD p.1 0).toNat * (b.getD p.2 0).toNat

theorem pairProduct_of_length_le {p : Nat × Nat} (h : a.length ≤ p.1 ∨ b.length ≤ p.2) : pairProduct a b p = 0 := by
  rcases h with h | h <;> rw [pairProduct, getD_out _ _ h] <;> simp

/-- The accumulator is the sum over all pairs of positions that add up to its own (R130). -/
theorem schoolAcc_eq_sum (ha : a.length = n) (hb : b.length = n) (m : Nat) : schoolAcc a b m =
    ∑ i ∈ range n, ∑ j ∈ range n, if i + j = m then (a.getD i 0).toNat * (b.getD j 0).toNat else 0 := by
  have hsub : (range n ×ˢ range n).filter (fun p => p.1 + p.2 = m) ⊆ antidiagonal m := fun p hp =>
    mem_antidiagonal.2 (mem_filter.1 hp).2
  have hout : ∀ p ∈ antidiagonal m, p ∉ (range n ×ˢ range n).filter (fun p => p.1 + p.2 = m) →
      pairProduct a b p = 0 := by
    intro p hp hnot
    apply pairProduct_of_length_le
    by_contra hlt
    exact hnot (mem_filter.2 ⟨mem_product.2 ⟨mem_range.2 (by omega), mem_range.2 (by omega)⟩, mem_antidiagonal.1 hp⟩)
  calc schoolAcc a b m
      = ∑ p ∈ antidiagonal m, pairProduct a b p := (Nat.sum_antidiagonal_eq_sum_range_succ_mk (pairProduct a b) m).symm
    _ = ∑ p ∈ (range n ×ˢ range n).filter (fun p => p.1 + p.2 = m), pairProduct a b p := (sum_subset hsub hout).symm
    _ = _ := by rw [sum_filter, sum_product]; rfl

/-- Coefficient `k` of the schoolbook product, over the integers (R130). -/
theorem getD_mulSchool (ha : a.length = n) (hb : b.length = n) (hk : k < n) : (mulSchool a b).getD k 0 = BitVec.ofInt 8
    (∑ i ∈ range n, ∑ j ∈ range n, wrapSign n k (i + j) * (((a.getD i 0).toNat * (b.getD j 0).toNat : Nat) : Int)) := by
  have hacc : (mulSchool a b).getD k 0 = BitVec.ofInt 8 ((schoolAcc a b k : Int) - (schoolAcc a b (k + n) : Int)) := by
    simp [mulSchool, List.getD_eq_getElem?_getD, ha, hk]
  rw [hacc, schoolAcc_eq_sum ha hb, schoolAcc_eq_sum ha hb]
  push_cast
  simp only [← sum_sub_distrib, wrapSign, sub_mul, ite_mul, one_mul, zero_mul]

/-- Coefficient `k` of the schoolbook product, in the ring of the coefficients (R130). -/
theorem getD_mulSchool_mod (ha : a.length = n) (hb : b.length = n) (hk : k < n) : (mulSchool a b).getD k 0 =
    ∑ i ∈ range n, ∑ j ∈ range n, (wrapSign n k (i + j) : Byte) * (a.getD i 0 * b.getD j 0) := by
  rw [getD_mulSchool ha hb hk, ofInt_eq_intCast]
  simp

/-! ## Sums of operands -/

theorem mulSchool_polyAdd_right (hb : a.length = b.length) (hc : a.length = c.length) :
    mulSchool a (polyAdd b c) = polyAdd (mulSchool a b) (mulSchool a c) := by
  refine ext_getD _ _ a.length (by simp) (by simp) fun k hk => ?_
  rw [getD_polyAdd _ _ _ (by simpa) (by simpa), getD_mulSchool_mod rfl (by simp; omega) hk,
    getD_mulSchool_mod rfl hb.symm hk, getD_mulSchool_mod rfl hc.symm hk]
  simp only [← sum_add_distrib, ← mul_add]
  refine sum_congr rfl fun i _ => sum_congr rfl fun j hj => ?_
  have hj := mem_range.1 hj
  rw [getD_polyAdd _ _ _ (by omega) (by omega)]

theorem mulSchool_comm (h : a.length = b.length) : mulSchool a b = mulSchool b a := by
  refine ext_getD _ _ a.length (by simp) (by simpa using h.symm) fun k hk => ?_
  rw [getD_mulSchool_mod rfl h.symm hk, getD_mulSchool_mod h.symm rfl hk, sum_comm]
  refine sum_congr rfl fun i _ => sum_congr rfl fun j _ => ?_
  rw [Nat.add_comm, mul_comm (a.getD j 0)]

theorem polyAdd_map_neg (a b : List Byte) :
    (polyAdd a b).map (fun x => -x) = polyAdd (a.map fun x => -x) (b.map fun x => -x) := by
  simp only [polyAdd, List.map_zipWith, List.zipWith_map, neg_add]

theorem rotate_polyAdd (h : a.length = b.length) (j : Nat) : rotate (polyAdd a b) j = polyAdd (rotate a j) (rotate b j) := by
  have hlen : (polyAdd a b).length = b.length := by simp [h]
  have hdrop (m : Nat) : (polyAdd a b).drop m = polyAdd (a.drop m) (b.drop m) := List.drop_zipWith
  have htake (m : Nat) : (polyAdd a b).take m = polyAdd (a.take m) (b.take m) := List.take_zipWith
  rw [rotate, rotate, rotate, hlen, h, hdrop, htake, polyAdd_map_neg]
  exact (List.zipWith_append (by simp [h])).symm

theorem map_plus_apply (a : List Byte) : a.map Sign.plus.apply = a := List.map_id a

theorem map_apply_polyAdd (σ : Sign) (a b : List Byte) :
    (polyAdd a b).map σ.apply = polyAdd (a.map σ.apply) (b.map σ.apply) := by
  cases σ with
  | plus => simp only [map_plus_apply]
  | minus => exact polyAdd_map_neg a b

theorem polyAdd_polyAdd_polyAdd_comm (a b c d : List Byte) :
    polyAdd (polyAdd a b) (polyAdd c d) = polyAdd (polyAdd a c) (polyAdd b d) := by
  refine List.ext_getElem (by simp; omega) fun k _ _ => ?_
  simp only [polyAdd, List.getElem_zipWith]
  exact add_add_add_comm _ _ _ _

/-! ## A list of terms, term by term -/

theorem polyAdd_zeros_left (b : List Byte) : polyAdd (List.replicate b.length 0) b = b := by
  refine List.ext_getElem (by simp) fun k _ _ => ?_
  simp [polyAdd]

theorem mulSparse_append_singleton (d : List Byte) (s : List Term) (t : Term) :
    mulSparse d (s ++ [t]) = polyAdd (mulSparse d s) ((rotate d t.idx).map t.sgn.apply) := by
  simp [mulSparse, List.foldl_append]

theorem mulSparse_singleton (d : List Byte) (t : Term) : mulSparse d [t] = (rotate d t.idx).map t.sgn.apply := by
  have hlen : ((rotate d t.idx).map t.sgn.apply).length = d.length := by simp
  have hzeros := polyAdd_zeros_left ((rotate d t.idx).map t.sgn.apply)
  rwa [hlen] at hzeros

theorem mulSparse_polyAdd (h : a.length = b.length) (s : List Term) :
    mulSparse (polyAdd a b) s = polyAdd (mulSparse a s) (mulSparse b s) := by
  induction s using List.reverseRecOn with
  | nil => simp [mulSparse, polyAdd, h]
  | append_singleton s t ih =>
    simp only [mulSparse_append_singleton, ih, rotate_polyAdd h, map_apply_polyAdd]
    exact polyAdd_polyAdd_polyAdd_comm _ _ _ _

theorem getD_fromSparse_singleton (t : Term) (hk : k < n) :
    (fromSparse n [t]).getD k 0 = if t.idx = k then t.sgn.coeff else 0 := by
  by_cases h : t.idx = k <;> simp [fromSparse, List.getD_eq_getElem?_getD, h, hk]

theorem Sign.coeff_eq_intCast (σ : Sign) : σ.coeff = ((if σ = .plus then 1 else -1 : Int) : Byte) := by
  cases σ <;> decide

/-- Schoolbook multiplication by a signed power of `X` rotates (R130, R132). -/
theorem mulSchool_fromSparse_singleton (t : Term) (ht : t.idx < d.length) :
    mulSchool d (fromSparse d.length [t]) = mulSparse d [t] := by
  refine ext_getD _ _ d.length (by simp) (by simp) fun k hk => ?_
  rw [getD_mulSchool_mod rfl (by simp) hk, getD_mulSparse d _ [t] k rfl hk (by simpa using ht), ofInt_eq_intCast]
  simp only [List.map_singleton, List.sum_singleton, termSum, Int.cast_sum, Int.cast_mul, ← Sign.coeff_eq_intCast]
  refine sum_congr rfl fun i _ => ?_
  rw [sum_eq_single_of_mem t.idx (mem_range.2 ht)]
  · rw [getD_fromSparse_singleton t ht, if_pos rfl]
    simp [wrapSign, mul_comm, mul_assoc]
  · intro j hj hne
    rw [getD_fromSparse_singleton t (mem_range.1 hj), if_neg hne.symm]
    simp

/-- A term with an index of its own adds itself to the dense view (R134). -/
theorem fromSparse_append_singleton (s : List Term) (t : Term) (ht : t.idx ∉ s.map Term.idx) :
    fromSparse n (s ++ [t]) = polyAdd (fromSparse n s) (fromSparse n [t]) := by
  have hset : fromSparse n (s ++ [t]) = (fromSparse n s).set t.idx t.sgn.coeff := by simp [fromSparse, List.foldl_append]
  have hfree : ∀ x ∈ s, x.idx ≠ t.idx := fun x hx h => ht (h ▸ List.mem_map_of_mem hx)
  refine ext_getD _ _ n (by simp) (by simp) fun k hk => ?_
  rw [getD_polyAdd _ _ _ (by simpa) (by simpa), getD_fromSparse_singleton t hk, hset]
  by_cases h : t.idx = k
  · subst h
    have hzero : (fromSparse n s).getD t.idx 0 = 0 := by
      rw [fromSparse, getD_foldl_set_of_not_mem s _ _ hfree]
      simp [hk]
    rw [hzero, if_pos rfl]
    simp [List.getD_eq_getElem?_getD, hk]
  · rw [if_neg h]
    simp [List.getD_eq_getElem?_getD, h]

theorem mulSparse_eq_mulSchool (s : List Term) (hnodup : (s.map Term.idx).Nodup) (hs : ∀ t ∈ s, t.idx < d.length) :
    mulSparse d s = mulSchool d (fromSparse d.length s) := by
  induction s using List.reverseRecOn with
  | nil =>
    refine ext_getD _ _ d.length (by simp) (by simp) fun k hk => ?_
    rw [getD_mulSchool_mod rfl (by simp) hk]
    simp [mulSparse, fromSparse, hk]
  | append_singleton s t ih =>
    rw [List.map_append, List.map_singleton, List.nodup_append'] at hnodup
    obtain ⟨hnodup, -, hdisj⟩ := hnodup
    have ht : t.idx ∉ s.map Term.idx := fun h => hdisj h (by simp)
    rw [mulSparse_append_singleton, ← mulSparse_singleton, ← mulSchool_fromSparse_singleton t (hs t (by simp)),
      ih hnodup fun x hx => hs x (by simp [hx]), fromSparse_append_singleton s t ht,
      mulSchool_polyAdd_right (by simp) (by simp)]

/-! ## Multiplication by `X` -/

/-- `X` is the dense view of its one term. -/
theorem fromSparse_X (n : Nat) : fromSparse (n + 2) [⟨1, .plus⟩] = 0 :: 1 :: List.replicate n 0 := rfl

theorem rotate_one (h : 1 ≤ a.length) : rotate a 1 = (-a.getD (a.length - 1) 0) :: a.take (a.length - 1) := by
  have hdrop : a.drop (a.length - 1) = [a.getD (a.length - 1) 0] := by
    rw [List.drop_eq_getElem_cons (by omega), List.getD_eq_getElem _ _ (by omega), Nat.sub_add_cancel h, List.drop_length]
  rw [rotate, hdrop]
  rfl

/-- Multiplying by `X` rotates by one, the top coefficient re-entering negated. -/
theorem mulSchool_X (h : 2 ≤ a.length) : mulSchool a (0 :: 1 :: List.replicate (a.length - 2) 0) =
    (-a.getD (a.length - 1) 0) :: a.take (a.length - 1) := by
  rw [← fromSparse_X, Nat.sub_add_cancel h, mulSchool_fromSparse_singleton _ (by exact h), mulSparse_singleton,
    map_plus_apply, rotate_one (by omega)]

end Sys2Proof.Machine

namespace Sys2Proof.Proofs

open Sys2Proof Sys2Proof.Machine

/-- Settles O57, by induction on the list from its end: both products add up over the terms. -/
theorem sparseProductIsTheSchoolbookProduct : Obligations.SparseProductIsTheSchoolbookProduct :=
  fun _ => mulSparse_eq_mulSchool

/-- Settles O56: sums and commutation coefficient by coefficient; `X` is the dense view of its one term. -/
theorem ringLaws : Obligations.RingLaws := by
  refine fun a b c hab hac => ⟨?distributes, mulSchool_comm hab, mulSparse_polyAdd hab, fun hlen => ?rotates⟩
  case distributes =>
    rw [mulSchool_comm (by simp; omega), mulSchool_polyAdd_right (by omega) (by omega), mulSchool_comm hac,
      mulSchool_comm (a := b) (by omega)]
  case rotates => exact mulSchool_X hlen

end Sys2Proof.Proofs
end

section
/-! The rounding of decryption (R126, R213, R215): the rounded values, the recovered coefficients and the bits decoded from
them. -/

namespace Sys2Proof.Machine

/-- A coefficient scaled by 2/256 and rounded is 0, 1 or 2, by the interval it lies in (R126). -/
theorem roundedByte_eq (x : Byte) :
    BitVec.ofNat 8 ((x.toNat * 2 + 256 / 2) / 256) = if x.toNat < 64 then 0 else if x.toNat < 192 then 1 else 2 := by
  have hx := x.isLt
  split_ifs with hlow hmid
  · exact congrArg (BitVec.ofNat 8) (by omega : _ = 0)
  · exact congrArg (BitVec.ofNat 8) (by omega : _ = 1)
  · exact congrArg (BitVec.ofNat 8) (by omega : _ = 2)

theorem scaleRound_two_eq (diff : List Byte) :
    scaleRound diff 2 256 = diff.map fun x => if x.toNat < 64 then 0 else if x.toNat < 192 then 1 else 2 :=
  List.map_congr_left fun x _ => roundedByte_eq x

/-- The coefficient that decryption recovers: 128 for a difference nearer to 128 than to 0 (R215). -/
def recoveredByte (x : Byte) : Byte := if 64 ≤ x.toNat ∧ x.toNat ≤ 191 then 128 else 0

theorem pkeRecover_eq (diff : List Byte) : pkeRecover diff = diff.map recoveredByte := by
  rw [pkeRecover, scaleRound_two_eq, polyScale, List.map_map]
  refine List.map_congr_left fun x _ => ?_
  rw [Function.comp_apply, recoveredByte]
  rcases lt_or_ge x.toNat 64 with hlow | hlow
  · rw [if_pos hlow, if_neg (by omega)]
    rfl
  · rcases lt_or_ge x.toNat 192 with hmid | hhigh
    · rw [if_neg (by omega), if_pos hmid, if_pos (by omega)]
      rfl
    · rw [if_neg (by omega), if_neg (by omega), if_neg (by omega)]
      rfl

theorem recoveredByte_toNat (x : Byte) : (recoveredByte x).toNat = if 64 ≤ x.toNat ∧ x.toNat ≤ 191 then 128 else 0 := by
  rw [recoveredByte, apply_ite BitVec.toNat]
  rfl

/-- The sum of two recovered coefficients reaches 128 as soon as one of them is not 0 (R177). -/
theorem recovered_sum_reaches (x y : Byte) : decide (128 ≤ (recoveredByte x).toNat + (recoveredByte y).toNat) =
    (decide (64 ≤ x.toNat ∧ x.toNat ≤ 191) || decide (64 ≤ y.toNat ∧ y.toNat ≤ 191)) := by
  rw [recoveredByte_toNat, recoveredByte_toNat, ← Bool.decide_or, decide_eq_decide]
  split <;> split <;> simp [*]

theorem getD_pkeRecover_of_lt {diff : List Byte} {k : Nat} (hk : k < diff.length) :
    (pkeRecover diff).getD k 0 = recoveredByte (diff.getD k 0) := by
  simp [pkeRecover_eq, List.getD_eq_getElem?_getD, hk]

end Sys2Proof.Machine

namespace Sys2Proof.Proofs

open Sys2Proof Sys2Proof.Machine

/-- Settles O52: the intervals of the rounding, and the bits of two recovered coefficients. -/
theorem recoveredCoefficientIsNearest : Obligations.RecoveredCoefficientIsNearest := by
  refine fun diff => ⟨scaleRound_two_eq diff, fun n hn => List.map_congr_left fun i hi => ?_, pkeRecover_eq diff⟩
  have hi := List.mem_range.1 hi
  rw [getD_pkeRecover_of_lt (by omega), getD_pkeRecover_of_lt (by omega), recovered_sum_reaches]

end Sys2Proof.Proofs
end

section
/-! The polynomial commands (R121 to R138) whose destination is a polynomial register or `EQ`: what they share, and the
coefficients each of them writes. -/

namespace Sys2Proof.Machine

variable {i : Instr} {s : State} {p : Params} {d a b : PReg} {r : SReg} {x y : List Byte} {n k m : Nat}

/-! ## Commands that write a polynomial register -/

theorem raisesParam_of_withParams {result : State → Params → State}
    (h : ∀ s, exec i s = .next (s.withParams (result s))) : RaisesParam i := fun s hs => by
  rw [h, State.withParams_none hs]

/-- What a completed write of a polynomial leaves: its coefficients, the lanes after them 0, everything else unchanged (R21). -/
theorem writePoly_complete (s : State) (d : PReg) {f : Nat → Byte} (hlen : x.length = n) (hn : n ≤ 1024)
    (hf : ∀ k, k < n → x.getD k 0 = f k) :
    CompletesIn s (s.writePoly d x).complete [(d.base, 1024)] ∧
      (∀ k, k < n → (s.writePoly d x).complete.mem.read (d.base + k) = f k) ∧
      ∀ k, n ≤ k → k < 1024 → (s.writePoly d x).complete.mem.read (d.base + k) = 0 :=
  ⟨completesIn_fit s d.base nMax x, fun k hk => (read_fit s d.base nMax x k (hk.trans_le hn)).trans (hf k hk),
    fun k hk => read_fit_zero s d.base nMax x k (hlen.trans_le hk)⟩

/-- The command checks the parameters only, and writes to `d` the polynomial that `value` gives. -/
def WritesPoly (i : Instr) (d : PReg) (value : State → Params → List Byte) : Prop :=
  ∀ s, exec i s = .next (s.withParams fun p => (s.writePoly d (value s p)).complete)

namespace WritesPoly

variable {value : State → Params → List Byte}

theorem raisesParam (h : WritesPoly i d value) : RaisesParam i := raisesParam_of_withParams h

theorem exec_eq (h : WritesPoly i d value) (hp : s.params = some p) :
    exec i s = .next (s.writePoly d (value s p)).complete := by
  rw [h, State.withParams_some hp]

/-- The command completes with the `N` coefficients of its value, given as a function of their position. -/
theorem completes (h : WritesPoly i d value) (hp : s.params = some p) {f : Nat → Byte} (hlen : (value s p).length = p.n)
    (hf : ∀ k, k < p.n → (value s p).getD k 0 = f k) :
    ∃ t, exec i s = .next t ∧ CompletesIn s t [(d.base, 1024)] ∧
      (∀ k, k < p.n → t.mem.read (d.base + k) = f k) ∧ ∀ k, p.n ≤ k → k < 1024 → t.mem.read (d.base + k) = 0 := by
  obtain ⟨-, -, -, -, hn, -⟩ := State.params_bits hp
  exact ⟨_, h.exec_eq hp, writePoly_complete s d hlen hn hf⟩

end WritesPoly

theorem writesPoly_padd (d a b : PReg) :
    WritesPoly (.padd d a b) d fun s p => polyAdd (s.readPoly a p.n) (s.readPoly b p.n) := fun _ => rfl

theorem writesPoly_psub (d a b : PReg) :
    WritesPoly (.psub d a b) d fun s p => polySub (s.readPoly a p.n) (s.readPoly b p.n) := fun _ => rfl

theorem writesPoly_pneg (d a : PReg) : WritesPoly (.pneg d a) d fun s p => polyNeg (s.readPoly a p.n) := fun _ => rfl

theorem writesPoly_pscale (d a : PReg) (f : Byte) :
    WritesPoly (.pscale d a f) d fun s p => polyScale (s.readPoly a p.n) f := fun _ => rfl

theorem writesPoly_pmuld (d a b : PReg) :
    WritesPoly (.pmuld d a b) d fun s p => mulSchool (s.readPoly a p.n) (s.readPoly b p.n) := fun _ => rfl

theorem writesPoly_pmuls (d a : PReg) (r : SReg) :
    WritesPoly (.pmuls d a r) d fun s p => mulSparse (s.readPoly a p.n) (s.readSparse r p.n) := fun _ => rfl

theorem writesPoly_pfrsp (d : PReg) (r : SReg) :
    WritesPoly (.pfrsp d r) d fun s p => fromSparse p.n (s.readSparse r p.n) := fun _ => rfl

/-! ## Coefficients of the pointwise functions -/

theorem getD_map_byte (g : Byte → Byte) (hk : k < x.length) : (x.map g).getD k 0 = g (x.getD k 0) := by
  simp [List.getD_eq_getElem?_getD, hk]

theorem getD_polyAdd_readPoly (hk : k < n) : (polyAdd (s.readPoly a n) (s.readPoly b n)).getD k 0 =
    s.mem.read (a.base + k) + s.mem.read (b.base + k) := by
  rw [getD_polyAdd _ _ _ (by simpa) (by simpa), s.getD_readPoly a n k hk, s.getD_readPoly b n k hk]

theorem getD_polySub_readPoly (hk : k < n) : (polySub (s.readPoly a n) (s.readPoly b n)).getD k 0 =
    s.mem.read (a.base + k) - s.mem.read (b.base + k) := by
  rw [getD_polySub _ _ _ (by simpa) (by simpa), s.getD_readPoly a n k hk, s.getD_readPoly b n k hk]

/-- A function of the coefficients applied to an operand (PNEG, PSCALE, PSRND). -/
theorem getD_map_readPoly (g : Byte → Byte) (hk : k < n) :
    ((s.readPoly a n).map g).getD k 0 = g (s.mem.read (a.base + k)) := by
  rw [getD_map_byte g (by simpa), s.getD_readPoly a n k hk]

/-! ## The rounded scaling -/

/-- With `ln ≤ ld` the rounded value of a byte is a byte (R126, R127). -/
theorem rounded_lt {ln ld : Nat} (v : Byte) (h : ln ≤ ld) : (v.toNat * 2 ^ ln + 2 ^ ld / 2) / 2 ^ ld < 256 := by
  have hpos : 0 < 2 ^ ld := Nat.two_pow_pos ld
  have hscaled : v.toNat * 2 ^ ln ≤ 255 * 2 ^ ld :=
    Nat.mul_le_mul (Nat.le_of_lt_succ v.isLt) (Nat.pow_le_pow_right (by decide) h)
  rw [Nat.div_lt_iff_lt_mul hpos]
  omega

theorem getD_scaleRound_toNat {ln ld : Nat} (h : ln ≤ ld) (hk : k < n) :
    ((scaleRound (s.readPoly a n) (2 ^ ln) (2 ^ ld)).getD k 0).toNat =
      ((s.mem.read (a.base + k)).toNat * 2 ^ ln + 2 ^ ld / 2) / 2 ^ ld := by
  rw [scaleRound, getD_map_readPoly _ hk, BitVec.toNat_ofNat]
  exact Nat.mod_eq_of_lt (rounded_lt _ h)

theorem exec_psrnd {ln ld : Nat} (hp : s.params = some p) : exec (.psrnd d a ln ld) s = .next
    (if 1 ≤ ld ∧ ld ≤ 8 ∧ ln ≤ ld then (s.writePoly d (scaleRound (s.readPoly a p.n) (2 ^ ln) (2 ^ ld))).complete
      else s.failed 2) := by
  have hexec : exec (.psrnd d a ln ld) s = .next (s.require (psrndRange ln ld) .operand
      (s.writePoly d (scaleRound (s.readPoly a p.n) (2 ^ ln) (2 ^ ld))).complete) :=
    congrArg Host.Outcome.next (State.withParams_some hp _)
  rw [hexec, psrndRange_eq]
  split_ifs with h
  · rw [decide_eq_true h, State.require_true]
  · rw [decide_eq_false h, State.require_false]
    rfl

/-! ## The slots of a sparse register -/

/-- The 16-bit entry of slot `m` (R22). -/
def State.slotEntry (s : State) (r : SReg) (m : Nat) : Nat :=
  (s.mem.read (r.base + 2 * m)).toNat + 256 * (s.mem.read (r.base + 2 * m + 1)).toNat

theorem State.slot_idx (s : State) (r : SReg) (n m : Nat) : (s.slot r n m).idx = s.slotEntry r m % 1024 % n := by
  obtain ⟨hidx, -⟩ := slotTerm_entry n (s.mem.read (r.base + 2 * m)) (s.mem.read (r.base + 2 * m + 1))
  exact hidx

theorem State.slot_sgn (s : State) (r : SReg) (n m : Nat) :
    (s.slot r n m).sgn = if s.slotEntry r m / 2 ^ 15 % 2 = 1 then .minus else .plus := by
  obtain ⟨-, hsgn⟩ := slotTerm_entry n (s.mem.read (r.base + 2 * m)) (s.mem.read (r.base + 2 * m + 1))
  exact hsgn

theorem State.readSparse_eq (h : s.sparseLen r ≤ 1024) (n : Nat) :
    s.readSparse r n = (List.range (s.sparseLen r)).map (s.slot r n) := by
  have hmin : min (s.sparseLen r) sMax = s.sparseLen r := Nat.min_eq_left h
  rw [State.readSparse, hmin]

theorem State.idx_lt_of_mem_readSparse (hn : 0 < n) {t : Term} (ht : t ∈ s.readSparse r n) : t.idx < n := by
  rw [State.readSparse, List.mem_map] at ht
  obtain ⟨m, -, rfl⟩ := ht
  exact Nat.mod_lt _ hn

/-! ## The sparse product -/

/-- The share of a slot in coefficient `k` of the sparse product, by the slot's entry (R132). -/
theorem termSum_slot (s : State) (a : PReg) (r : SReg) (n k m : Nat) : termSum (s.readPoly a n) n k (s.slot r n m) =
    ∑ i ∈ Finset.range n, (if s.slotEntry r m / 2 ^ 15 % 2 = 1 then -1 else 1) *
      ((if i + s.slotEntry r m % 1024 % n = k then 1 else 0) - (if i + s.slotEntry r m % 1024 % n = k + n then 1 else 0)) *
        ((s.mem.read (a.base + i)).toNat : Int) := by
  have hsign : (if (s.slot r n m).sgn = .plus then (1 : Int) else -1) =
      if s.slotEntry r m / 2 ^ 15 % 2 = 1 then -1 else 1 := by
    rw [State.slot_sgn]
    split <;> rfl
  refine Finset.sum_congr rfl fun i hi => ?_
  rw [hsign, State.slot_idx, s.getD_readPoly a n i (Finset.mem_range.1 hi)]

theorem getD_mulSparse_readSparse (hlen : s.sparseLen r ≤ 1024) (hk : k < n) :
    (mulSparse (s.readPoly a n) (s.readSparse r n)).getD k 0 = BitVec.ofInt 8
      (∑ m ∈ Finset.range (s.sparseLen r), ∑ i ∈ Finset.range n, (if s.slotEntry r m / 2 ^ 15 % 2 = 1 then -1 else 1) *
        ((if i + s.slotEntry r m % 1024 % n = k then 1 else 0) -
          (if i + s.slotEntry r m % 1024 % n = k + n then 1 else 0)) * ((s.mem.read (a.base + i)).toNat : Int)) := by
  rw [getD_mulSparse _ n _ k (s.readPoly_length a n) hk fun t => State.idx_lt_of_mem_readSparse (Nat.zero_lt_of_lt hk),
    State.readSparse_eq hlen, List.map_map, sum_map_range]
  exact congrArg _ (Finset.sum_congr rfl fun m _ => termSum_slot s a r n k m)

/-! ## The dense view -/

theorem getD_fromSparse_of_not_mem {l : List Term} (h : ∀ t ∈ l, t.idx ≠ k) : (fromSparse n l).getD k 0 = 0 := by
  rw [fromSparse, getD_foldl_set_of_not_mem l _ k h, List.getD_eq_getElem?_getD, List.getElem?_replicate]
  split <;> rfl

/-- A coefficient that no slot names is 0 (R134). -/
theorem getD_fromSparse_readSparse_of_free (hlen : s.sparseLen r ≤ 1024)
    (h : ∀ m, m < s.sparseLen r → s.slotEntry r m % 1024 % n ≠ k) : (fromSparse n (s.readSparse r n)).getD k 0 = 0 := by
  refine getD_fromSparse_of_not_mem fun t ht => ?_
  rw [State.readSparse_eq hlen, List.mem_map] at ht
  obtain ⟨m, hm, rfl⟩ := ht
  rw [State.slot_idx]
  exact h m (List.mem_range.1 hm)

/-- The last slot that names a coefficient decides it (R134, R136). -/
theorem getD_fromSparse_readSparse_of_last (hlen : s.sparseLen r ≤ 1024) (hn : 0 < n) (hm : m < s.sparseLen r)
    (hlast : ∀ m', m < m' → m' < s.sparseLen r → s.slotEntry r m' % 1024 % n ≠ s.slotEntry r m % 1024 % n) :
    (fromSparse n (s.readSparse r n)).getD (s.slotEntry r m % 1024 % n) 0 =
      if s.slotEntry r m / 2 ^ 15 % 2 = 1 then 255 else 1 := by
  have hlast' : ∀ m' (h' : m' < ((List.range (s.sparseLen r)).map (s.slot r n)).length), m < m' →
      ((List.range (s.sparseLen r)).map (s.slot r n))[m'].idx ≠
        (((List.range (s.sparseLen r)).map (s.slot r n))[m]'(by simpa)).idx := by
    intro m' h' hlt
    simpa [State.slot_idx] using hlast m' hlt (by simpa using h')
  rw [State.readSparse_eq hlen, fromSparse, getD_foldl_set_of_last _ _ _ m (by simpa) hlast'
    (by simp [State.slot_idx]) (by simpa using Nat.mod_lt _ hn)]
  simp only [List.getElem_map, List.getElem_range, State.slot_sgn]
  split <;> rfl

/-! ## The comparison -/

theorem ctEqual_eq_ones_iff (h : x.length = y.length) : ctEqual x y = 0xFF ↔ x = y := by
  rw [ctEqual_eq x y h]
  split <;> simp [*]

theorem exec_pcteq (hp : s.params = some p) : exec (.pcteq a b) s = .next { s with
    run := .idle, done := true
    eq := decide (∀ k, k < p.n → s.mem.read (a.base + k) = s.mem.read (b.base + k)) } := by
  have hexec : exec (.pcteq a b) s = .next (s.setEq (ctEqual (s.readPoly a p.n) (s.readPoly b p.n))).complete :=
    congrArg Host.Outcome.next (State.withParams_some hp _)
  have hagree : ctEqual (s.readPoly a p.n) (s.readPoly b p.n) = 0xFF ↔
      ∀ k, k < p.n → s.mem.read (a.base + k) = s.mem.read (b.base + k) := by
    rw [ctEqual_eq_ones_iff (by simp)]
    exact Memory.readRange_eq_iff s.mem a.base b.base p.n
  rw [hexec, State.setEq, decide_eq_decide.2 hagree]
  rfl

end Sys2Proof.Machine

namespace Sys2Proof.Proofs

open Sys2Proof Sys2Proof.Machine

/-- Settles O24: the sums and the differences of the operands' coefficients. -/
theorem paddAndPsubCombineCoefficients : Obligations.PaddAndPsubCombineCoefficients := by
  refine fun d a b => ⟨commandWord_toNat 0x10 _ _ _ 0 (by decide) d.num_lt a.num_lt b.num_lt (by decide),
    commandWord_toNat 0x11 _ _ _ 0 (by decide) d.num_lt a.num_lt b.num_lt (by decide),
    (writesPoly_padd d a b).raisesParam, raisesIllcmd 0x10, (writesPoly_psub d a b).raisesParam, raisesIllcmd 0x11,
    fun s p hp => ⟨?sums, ?differences⟩⟩
  case sums => exact (writesPoly_padd d a b).completes hp (by simp) fun k => getD_polyAdd_readPoly
  case differences => exact (writesPoly_psub d a b).completes hp (by simp) fun k => getD_polySub_readPoly

/-- Settles O25: two functions applied to every coefficient of the operand. -/
theorem pnegAndPscaleMapCoefficients : Obligations.PnegAndPscaleMapCoefficients := by
  refine fun d a f => ⟨commandWord_toNat 0x12 _ _ 0 0 (by decide) d.num_lt a.num_lt (by decide) (by decide),
    commandWord_toNat 0x13 _ _ 0 _ (by decide) d.num_lt a.num_lt (by decide) (f.isLt.trans (by decide)),
    (writesPoly_pneg d a).raisesParam, raisesIllcmd 0x12, (writesPoly_pscale d a f).raisesParam, raisesIllcmd 0x13,
    fun s p hp => ⟨?negated, ?scaled⟩⟩
  case negated => exact (writesPoly_pneg d a).completes hp (by simp) fun k => getD_map_readPoly _
  case scaled => exact (writesPoly_pscale d a f).completes hp (by simp) fun k => getD_map_readPoly _

/-- Settles O26: in the range of the exponents no rounded coefficient exceeds a byte. -/
theorem psrndRoundsCoefficients : Obligations.PsrndRoundsCoefficients := by
  refine fun d a ln ld hln hld => ⟨?word, raisesParam_of_withParams fun _ => rfl, raisesIllcmd 0x14,
    fun s p hp => ⟨fun hrange => ?refused, fun h1 h8 hle => ?rounded⟩⟩
  case word =>
    rw [encode, commandWord_toNat 0x14 _ _ 0 _ (by decide) d.num_lt a.num_lt (by decide) (by omega)]
    omega
  case refused => rw [exec_psrnd hp, if_neg hrange]
  case rounded =>
    obtain ⟨-, -, -, -, hn, -⟩ := State.params_bits hp
    obtain ⟨hframe, hcoeffs, hzeros⟩ := writePoly_complete s d
      (x := scaleRound (s.readPoly a p.n) (2 ^ ln) (2 ^ ld)) (by simp) hn fun _ _ => rfl
    refine ⟨_, by rw [exec_psrnd hp, if_pos ⟨h1, h8, hle⟩], hframe, fun k hk => ?_, hzeros⟩
    rw [hcoeffs k hk, getD_scaleRound_toNat hle hk]

/-- Settles O27: the coefficients of the schoolbook product, read from the window. -/
theorem pmuldMultipliesInTheRing : Obligations.PmuldMultipliesInTheRing := by
  refine fun d a b => ⟨commandWord_toNat 0x15 _ _ _ 0 (by decide) d.num_lt a.num_lt b.num_lt (by decide),
    (writesPoly_pmuld d a b).raisesParam, raisesIllcmd 0x15, fun s p hp => ?_⟩
  refine (writesPoly_pmuld d a b).completes hp (by simp) fun k hk => ?_
  rw [getD_mulSchool (s.readPoly_length a p.n) (s.readPoly_length b p.n) hk]
  refine congrArg _ (Finset.sum_congr rfl fun i hi => Finset.sum_congr rfl fun j hj => ?_)
  rw [s.getD_readPoly a _ _ (Finset.mem_range.1 hi), s.getD_readPoly b _ _ (Finset.mem_range.1 hj)]
  rfl

/-- Settles O28: the shares of the slots, each read by its entry. -/
theorem pmulsAddsTheRotatedTerms : Obligations.PmulsAddsTheRotatedTerms := by
  refine fun d a r => ⟨commandWord_toNat 0x16 _ _ _ 0 (by decide) d.num_lt a.num_lt r.num_lt (by decide),
    (writesPoly_pmuls d a r).raisesParam, raisesIllcmd 0x16, fun s p hp hlen => ?_⟩
  exact (writesPoly_pmuls d a r).completes hp (by simp) fun k => getD_mulSparse_readSparse hlen

/-- Settles O30: the last slot with an index decides, and a lane that no slot names is 0. -/
theorem pfrspWritesTheListedCoefficients : Obligations.PfrspWritesTheListedCoefficients := by
  refine fun d r => ⟨commandWord_toNat 0x18 _ _ 0 0 (by decide) d.num_lt r.num_lt (by decide) (by decide),
    (writesPoly_pfrsp d r).raisesParam, raisesIllcmd 0x18, fun s p hp hlen => ?_⟩
  obtain ⟨-, -, -, -, -, -, hpos, -⟩ := State.params_bits hp
  obtain ⟨t, hexec, hframe, hcoeffs, hzeros⟩ := (writesPoly_pfrsp d r).completes hp (by simp) fun _ _ => rfl
  refine ⟨t, hexec, hframe, fun m hm hlast => ?listed, fun k hk hfree => ?free⟩
  case listed =>
    rw [hcoeffs _ (Nat.mod_lt _ hpos)]
    exact getD_fromSparse_readSparse_of_last hlen hpos hm hlast
  case free =>
    rcases lt_or_ge k p.n with hlt | hge
    · rw [hcoeffs k hlt]
      exact getD_fromSparse_readSparse_of_free hlen hfree
    · exact hzeros k hge hk

/-- Settles O31: the comparator's mask is all ones exactly on equal operands. -/
theorem pcteqComparesTheCoefficients : Obligations.PcteqComparesTheCoefficients := fun a b =>
  ⟨commandWord_toNat 0x19 0 _ _ 0 (by decide) (by decide) a.num_lt b.num_lt (by decide),
    raisesParam_of_withParams fun _ => rfl, raisesIllcmd 0x19, fun _ _ hp => exec_pcteq hp⟩

end Sys2Proof.Proofs
end

section
/-! PTOSP (R134, R135): the terms of the scan by the positions they come from, and the slots that hold them. -/

namespace Sys2Proof.Machine

variable {c : Nat → Byte} {d : SReg} {a : PReg} {s : State} {p : Params} {l : List Term} {t : Term} {i j n : Nat}

/-! ## The scan -/

/-- The scan takes the coefficient: it is 1 or 255 (R134). -/
def isTernary (x : Byte) : Bool := x == 1 || x == 255

/-- How many of the coefficients before position `i` the scan takes: the slot of coefficient `i`, if it takes it. -/
def ternaryRank (c : Nat → Byte) (i : Nat) : Nat := ((List.range i).filter fun j => isTernary (c j)).length

/-- The terms that the scan of the first `i` coefficients yields. -/
def termsBelow (c : Nat → Byte) (i : Nat) : List Term := (List.range i).filterMap fun j => termOf (c j) j

/-- The coefficients of a polynomial register (R21). -/
def State.coefficient (s : State) (a : PReg) (j : Nat) : Byte := s.mem.read (a.base + j)

theorem toSparse_readPoly (s : State) (a : PReg) (n : Nat) :
    toSparse (s.readPoly a n) = termsBelow (s.coefficient a) n := by
  have hzip : (s.readPoly a n).zipIdx = (List.range n).map fun j => (s.coefficient a j, j) :=
    List.ext_getElem (by simp) fun k _ _ => by simp [State.readPoly, Memory.readRange, State.coefficient]
  rw [toSparse, hzip, List.filterMap_map]
  rfl

theorem isSome_termOf (x : Byte) (i : Nat) : (termOf x i).isSome = isTernary x := by
  rw [termOf, isTernary, Bool.eq_iff_iff, Bool.or_eq_true, beq_iff_eq, beq_iff_eq]
  split_ifs with h1 h255
  · exact iff_of_true rfl (.inl h1)
  · exact iff_of_true rfl (.inr h255)
  · exact iff_of_false Bool.false_ne_true (not_or.2 ⟨h1, h255⟩)

/-- A coefficient that the scan takes yields its position, with the sign minus for 255 (R134). -/
theorem termOf_of_isTernary {x : Byte} (h : isTernary x = true) (i : Nat) :
    termOf x i = some ⟨i, if x = 255 then .minus else .plus⟩ := by
  rw [isTernary, Bool.or_eq_true, beq_iff_eq, beq_iff_eq] at h
  rcases h with rfl | rfl <;> rfl

theorem length_termsBelow (c : Nat → Byte) (i : Nat) : (termsBelow c i).length = ternaryRank c i := by
  rw [termsBelow, ternaryRank, List.length_filterMap_eq_countP, List.countP_eq_length_filter]
  simp only [isSome_termOf]

/-- A longer scan only adds terms after those of a shorter one. -/
theorem termsBelow_eq_append (c : Nat → Byte) (h : i ≤ n) : ∃ rest, termsBelow c n = termsBelow c i ++ rest := by
  obtain ⟨m, rfl⟩ := Nat.exists_eq_add_of_le h
  rw [termsBelow, List.range_add, List.filterMap_append]
  exact ⟨_, rfl⟩

/-- The term of a coefficient that the scan takes stands at the coefficient's rank. -/
theorem getElem?_termsBelow (hi : i < n) (h : isTernary (c i) = true) :
    (termsBelow c n)[ternaryRank c i]? = some ⟨i, if c i = 255 then .minus else .plus⟩ := by
  have hnext : termsBelow c (i + 1) = termsBelow c i ++ [⟨i, if c i = 255 then .minus else .plus⟩] := by
    rw [termsBelow, List.range_succ, List.filterMap_append,
      List.filterMap_cons_some (f := fun j => termOf (c j) j) (termOf_of_isTernary h i)]
    rfl
  obtain ⟨rest, hrest⟩ := termsBelow_eq_append c (Nat.succ_le_of_lt hi)
  rw [hrest, Nat.succ_eq_add_one, hnext, ← length_termsBelow, List.append_assoc, List.getElem?_append_right le_rfl,
    Nat.sub_self]
  rfl

theorem ternaryRank_le (c : Nat → Byte) (n : Nat) : ternaryRank c n ≤ n := by
  simpa [ternaryRank] using List.length_filter_le (fun j => isTernary (c j)) (List.range n)

/-! ## The slots -/

/-- The two bytes of the slot that holds a term of the list (R22). -/
theorem getD_slots (h : l[i]? = some t) (hj : j < 2) :
    (l.flatMap slotBytes).getD (2 * i + j) 0 = (slotBytes t).getD j 0 := by
  obtain ⟨hlt, rfl⟩ := List.getElem?_eq_some_iff.1 h
  have hdiv : (2 * i + j) / 2 = i := by omega
  have hmod : (2 * i + j) % 2 = j := by omega
  rw [getD_flatMap_slotBytes]
  simp only [hdiv, hmod, hlt, dite_true]

theorem getD_slots_of_le {m : Nat} (h : 2 * l.length ≤ m) : (l.flatMap slotBytes).getD m 0 = 0 := by
  rw [getD_flatMap_slotBytes, dif_neg (by omega)]

/-- The two bytes of a slot by the coefficient it stands for (R22, R134). -/
theorem slotBytes_of_coefficient (x : Byte) (hi : i < 1024) :
    (slotBytes ⟨i, if x = 255 then .minus else .plus⟩).getD 0 0 = BitVec.ofNat 8 i ∧
      (slotBytes ⟨i, if x = 255 then .minus else .plus⟩).getD 1 0 =
        BitVec.ofNat 8 (i / 256) ||| if x = 255 then 0x80 else 0 := by
  refine ⟨slotBytes_low _, ?_⟩
  rw [slotBytes_high i hi]
  by_cases h : x = 255 <;> simp [h]

theorem exec_ptosp (hp : s.params = some p) :
    exec (.ptosp d a) s = .next (s.writeSparse d (termsBelow (s.coefficient a) p.n)).complete := by
  rw [← toSparse_readPoly]
  exact congrArg Host.Outcome.next (State.withParams_some hp _)

end Sys2Proof.Machine

namespace Sys2Proof.Proofs

open Sys2Proof Sys2Proof.Machine

/-- Settles O29: the list is the scan's; a taken coefficient's term stands at its rank, and its slot holds it. -/
theorem ptospListsTheTernaryCoefficients : Obligations.PtospListsTheTernaryCoefficients := by
  refine fun d a => ⟨commandWord_toNat 0x17 _ _ 0 0 (by decide) d.num_lt a.num_lt (by decide) (by decide),
    raisesParam_of_withParams fun _ => rfl, raisesIllcmd 0x17, fun s p hp => ?_⟩
  intro live rank
  obtain ⟨-, -, -, -, hn, -⟩ := State.params_bits hp
  have hlen : (termsBelow (s.coefficient a) p.n).length = rank p.n := length_termsBelow (s.coefficient a) p.n
  have hrank : rank p.n ≤ p.n := ternaryRank_le (s.coefficient a) p.n
  obtain ⟨hfields, hlens, hframe, hbytes⟩ := writeSparse_complete s d (termsBelow (s.coefficient a) p.n) (by omega)
  refine ⟨_, exec_ptosp hp, hfields, fun r => hlen ▸ hlens r, hframe, fun i hi hlive => ?listed, fun m hm hlt => ?rest⟩
  case listed =>
    have hterm := getElem?_termsBelow (c := s.coefficient a) hi hlive
    have hslot : rank i < rank p.n := hlen ▸ (List.getElem?_eq_some_iff.1 hterm).1
    obtain ⟨hlow, hhigh⟩ := slotBytes_of_coefficient (s.coefficient a i) (hi.trans_le hn)
    exact ⟨(hbytes _ (by omega)).trans ((getD_slots hterm (j := 0) (by decide)).trans hlow),
      (hbytes (2 * rank i + 1) (by omega)).trans ((getD_slots hterm (j := 1) (by decide)).trans hhigh)⟩
  case rest => rw [hbytes m hlt, getD_slots_of_le (by omega)]

end Sys2Proof.Proofs
end

section
/-! The sampler's positions (R152, R154): what an exchange does to the entries and to their list as a whole, hence what the
shuffle keeps after each of its steps, and the terms that are read off it. -/

namespace Sys2Proof.Machine

variable {st : List Byte} {pos : List Nat} {n h i j k : Nat}

/-! ## One exchange -/

@[simp] theorem swapAt_length (pos : List Nat) (i j : Nat) : (swapAt pos i j).length = pos.length := by simp [swapAt]

/-- An exchange renames the places `i` and `j` and no other. -/
theorem getD_swapAt (hi : i < pos.length) (hj : j < pos.length) (k : Nat) :
    (swapAt pos i j).getD k 0 = pos.getD (if k = i then j else if k = j then i else k) 0 := by
  simp only [swapAt, List.getD_eq_getElem?_getD, List.getElem?_set, List.length_set]
  rcases eq_or_ne k j with rfl | hkj
  · have hplace : (if k = i then k else i) = i := ite_eq_right_iff.2 id
    simp [hplace, hj]
  rcases eq_or_ne k i with rfl | hki
  · simp [hkj.symm, hi]
  · simp [hkj, hkj.symm, hki, hki.symm]

theorem swapAt_perm (hi : i < pos.length) (hj : j < pos.length) : (swapAt pos i j).Perm pos := by
  rw [swapAt, List.getD_eq_getElem _ _ hi, List.getD_eq_getElem _ _ hj]
  exact List.set_set_perm hi hj

/-! ## The shuffle, step by step -/

/-- The place that step `i` of the shuffle exchanges with place `i` (R152). -/
def shuffleTarget (st : List Byte) (n i : Nat) : Nat := i + be16 st (2 * i) % (n - i)

theorem shuffleTarget_lt (st : List Byte) (hi : i < n) : shuffleTarget st n i < n := by
  have := Nat.mod_lt (be16 st (2 * i)) (Nat.sub_pos_of_lt hi)
  rw [shuffleTarget]
  omega

@[simp] theorem shuffle_zero (st : List Byte) (n : Nat) : shuffle st n 0 = List.range n := rfl

theorem shuffle_succ (st : List Byte) (n i : Nat) :
    shuffle st n (i + 1) = swapAt (shuffle st n i) i (shuffleTarget st n i) := by
  rw [shuffle, List.range_succ, List.foldl_concat]
  rfl

@[simp] theorem shuffle_length (st : List Byte) (n h : Nat) : (shuffle st n h).length = n := by
  induction h with
  | zero => simp
  | succ i ih => rw [shuffle_succ, swapAt_length, ih]

theorem getD_shuffle_succ (st : List Byte) (hi : i < n) (k : Nat) : (shuffle st n (i + 1)).getD k 0 =
    (shuffle st n i).getD (if k = i then shuffleTarget st n i else if k = shuffleTarget st n i then i else k) 0 := by
  rw [shuffle_succ, getD_swapAt (by simpa) (by simpa using shuffleTarget_lt st hi)]

/-- The positions stay a permutation of `0 .. N − 1` (R154 (b)). -/
theorem shuffle_perm_range (st : List Byte) (hle : h ≤ n) : (shuffle st n h).Perm (List.range n) := by
  induction h with
  | zero => rfl
  | succ i ih =>
    rw [shuffle_succ]
    exact (swapAt_perm (by simpa) (by simpa using shuffleTarget_lt st hle)).trans (ih (Nat.le_of_succ_le hle))

theorem lt_of_mem_shuffle (hle : h ≤ n) (hk : k ∈ shuffle st n h) : k < n :=
  List.mem_range.1 ((shuffle_perm_range st hle).mem_iff.1 hk)

theorem getD_shuffle_lt (st : List Byte) (hle : h ≤ n) (hk : k < n) : (shuffle st n h).getD k 0 < n := by
  have hlt : k < (shuffle st n h).length := by simpa
  rw [List.getD_eq_getElem _ _ hlt]
  exact lt_of_mem_shuffle hle (List.getElem_mem hlt)

/-! ## The sampled terms -/

@[simp] theorem sampleFrom_length (st : List Byte) (n h : Nat) : (sampleFrom st n h).length = h := by simp [sampleFrom]

theorem getElem?_sampleFrom (st : List Byte) (n : Nat) (hi : i < h) :
    (sampleFrom st n h)[i]? = some ⟨(shuffle st n h).getD i 0, signOf st h i⟩ := by
  simp [sampleFrom, hi]

/-- The sampled indices are the first `h` positions. -/
theorem map_idx_sampleFrom (st : List Byte) (hle : h ≤ n) :
    (sampleFrom st n h).map Term.idx = (shuffle st n h).take h := by
  refine List.ext_getElem (by simpa using hle) fun i hi _ => ?_
  have hlt : i < (shuffle st n h).length := by simp at hi ⊢; omega
  simp [sampleFrom, List.getElem?_eq_getElem hlt]

theorem nodup_idx_sampleFrom (st : List Byte) (hle : h ≤ n) : ((sampleFrom st n h).map Term.idx).Nodup := by
  rw [map_idx_sampleFrom st hle]
  exact ((shuffle_perm_range st hle).nodup_iff.2 List.nodup_range).sublist (List.take_sublist _ _)

theorem idx_lt_of_mem_sampleFrom (hle : h ≤ n) {t : Term} (ht : t ∈ sampleFrom st n h) : t.idx < n := by
  have hmem : t.idx ∈ (shuffle st n h).take h := map_idx_sampleFrom st hle ▸ List.mem_map_of_mem ht
  exact lt_of_mem_shuffle hle (List.mem_of_mem_take hmem)

end Sys2Proof.Machine

namespace Sys2Proof.Proofs

open Sys2Proof Sys2Proof.Machine

/-- Settles O34: each step is one exchange, so the positions stay a permutation and the first `h` of them are distinct. -/
theorem samplerPositionsAreDistinct : Obligations.SamplerPositionsAreDistinct := fun st n h hle =>
  ⟨fun k hk => by simp [hk], fun _ hi k _ => getD_shuffle_succ st hi k, shuffle_perm_range st hle,
    sampleFrom_length st n h, nodup_idx_sampleFrom st hle, fun _ => idx_lt_of_mem_sampleFrom hle⟩

end Sys2Proof.Proofs
end

section
/-! The sampling commands (R151, R153, R156, R158): the bytes and slots each of them writes, and the draw of SRAND. -/

namespace Sys2Proof.Machine

variable {s : State} {p : Params} {e : EntropyPort} {x y : List Byte} {d a : BReg} {r : SReg} {h m n k : Nat}

/-! ## The hash-derived values -/

theorem writesPoly_sunif (d : PReg) (a : BReg) :
    WritesPoly (.sunif d a) d fun s p => uniformPoly (s.seed a) p.n := fun _ => rfl

theorem le32_eq (c : Word) :
    le32 c = [c.extractLsb' 0 8, c.extractLsb' 8 8, c.extractLsb' 16 8, c.extractLsb' 24 8] := by
  simp [le32, leBytes, BitVec.extractLsb', Nat.shiftRight_eq_div_pow, Nat.div_div_eq_div_mul]

@[simp] theorem derive_length (base : List Byte) (counter : Word) : (derive base counter).length = 32 := by simp [derive]

theorem getD_derive (base : List Byte) (counter : Word) (hk : k < 32) :
    (derive base counter).getD k 0 = Config.shake256Byte (base ++ le32 counter) k := getD_shake256 _ _ _ hk

theorem exec_sderive (hp : s.params = some p) :
    exec (.sderive d a) s = .next (s.writeBytes d (derive (s.seed a) s.arg)).complete :=
  congrArg Host.Outcome.next (State.withParams_some hp _)

/-! ## The sampled slots -/

/-- A failed operand check is the error completion with code 2 (R247). -/
theorem State.require_operand (s u : State) (c : Prop) [Decidable c] :
    s.require (decide c) .operand u = if c then u else s.failed 2 := by
  split_ifs with hc
  · rw [decide_eq_true hc, State.require_true]
  · rw [decide_eq_false hc, State.require_false]
    rfl

theorem exec_shwt (hp : s.params = some p) : exec (.shwt r a h) s = .next
    (if h ≤ p.n then (s.writeSparse r (sampleSparse (s.seed a) p.n h)).complete else s.failed 2) := by
  have hexec : exec (.shwt r a h) s = .next (s.require (decide (h ≤ p.n)) .operand
      (s.writeSparse r (sampleSparse (s.seed a) p.n h)).complete) :=
    congrArg Host.Outcome.next (State.withParams_some hp _)
  rw [hexec, State.require_operand]

/-- The sign of a sampled term is the low bit of its byte of the stream (R152). -/
theorem signOf_shake256 (x : List Byte) (hm : m < h) : signOf (shake256 x (3 * h)) h m =
    if (Config.shake256Byte x (2 * h + m)).getLsbD 0 then .plus else .minus := by
  rw [signOf, getD_shake256 x _ _ (by omega)]

/-- The two bytes of the slot of a sampled term (R22, R152). -/
theorem getD_slots_sampleSparse (x : List Byte) (hle : h ≤ n) (hn : n ≤ 1024) (hm : m < h) :
    ((sampleSparse x n h).flatMap slotBytes).getD (2 * m) 0 =
        BitVec.ofNat 8 ((shuffle (shake256 x (3 * h)) n h).getD m 0) ∧
      ((sampleSparse x n h).flatMap slotBytes).getD (2 * m + 1) 0 =
        BitVec.ofNat 8 ((shuffle (shake256 x (3 * h)) n h).getD m 0 / 256) |||
          if (Config.shake256Byte x (2 * h + m)).getLsbD 0 then 0 else 0x80 := by
  have hterm := getElem?_sampleFrom (shake256 x (3 * h)) n hm
  have hidx := getD_shuffle_lt (shake256 x (3 * h)) hle (hm.trans_le hle)
  refine ⟨getD_slots hterm (j := 0) (by decide), (getD_slots hterm (j := 1) (by decide)).trans ?_⟩
  rw [slotBytes_high _ (hidx.trans_le hn), signOf_shake256 x hm]
  cases (Config.shake256Byte x (2 * h + m)).getLsbD 0 <;> rfl

/-! ## A written byte-string register -/

/-- What a completed write of a byte string leaves: its bytes, zeros after them, everything else unchanged (R23). -/
theorem writeBytes_complete (s : State) (d : BReg) (hlen : x.length = n) (hn : n ≤ 64) :
    CompletesIn s (s.writeBytes d x).complete [(d.base, 64)] ∧
      (∀ k, k < n → (s.writeBytes d x).complete.mem.read (d.base + k) = x.getD k 0) ∧
      ∀ k, n ≤ k → k < 64 → (s.writeBytes d x).complete.mem.read (d.base + k) = 0 :=
  ⟨completesIn_fit s d.base bBytes x, fun k hk => read_fit s d.base bBytes x k (hk.trans_le hn),
    fun k hk => read_fit_zero s d.base bBytes x k (hlen.trans_le hk)⟩

/-- What a failed draw leaves: the register zeroed and the error, everything else unchanged (R246). -/
theorem writeBytes_nil_raise (s : State) (d : BReg) (err : ErrorCode) :
    SameOutside s ((s.writeBytes d []).raise err) [(d.base, 64)] ∧
      ∀ k, k < 64 → ((s.writeBytes d []).raise err).mem.read (d.base + k) = 0 :=
  ⟨fun b hb => Memory.read_writeRange_fit_out s.mem d.base bBytes [] b (hb (d.base, 64) (by simp)),
    fun k hk => Memory.read_writeRange_fit s.mem d.base bBytes [] k hk⟩

/-! ## The draw of SRAND -/

theorem exec_srand (hp : s.params = some p) : exec (.srand d n) s = .next
    (if 1 ≤ n ∧ n ≤ 64 then s.draw [n] (fun xs s => (s.writeBytes d xs.flatten).complete)
      (fun s => (s.writeBytes d []).raise .entropy) else s.failed 2) := by
  have hexec : exec (.srand d n) s = .next (s.require (countRange n) .operand
      (s.draw [n] (fun xs s => (s.writeBytes d xs.flatten).complete) (fun s => (s.writeBytes d []).raise .entropy))) :=
    congrArg Host.Outcome.next (State.withParams_some hp _)
  rw [hexec, countRange_eq, State.require_operand]

theorem exec_srand_of_bytes (hp : s.params = some p) (hn : 1 ≤ n ∧ n ≤ 64) (hdraw : s.entropy.read n = (some y, e)) :
    exec (.srand d n) s = .next (State.writeBytes { s with entropy := e } d y).complete := by
  have hreads : s.entropy.reads [n] = (some [y], e) := EntropyPort.reads_cons_of_bytes hdraw []
  rw [exec_srand hp, if_pos hn, State.draw_ok hreads, List.flatten_singleton]

theorem exec_srand_of_failure (hp : s.params = some p) (hn : 1 ≤ n ∧ n ≤ 64) (hdraw : s.entropy.read n = (none, e)) :
    exec (.srand d n) s = .next ((State.writeBytes { s with entropy := e } d []).raise .entropy) := by
  rw [exec_srand hp, if_pos hn, State.draw_fail (EntropyPort.reads_cons_of_failure hdraw [])]

end Sys2Proof.Machine

namespace Sys2Proof.Proofs

open Sys2Proof Sys2Proof.Machine

/-- Settles O32: the polynomial written is the hash stream of the seed. -/
theorem sunifExpandsTheSeed : Obligations.SunifExpandsTheSeed := fun d a =>
  ⟨commandWord_toNat 0x20 _ _ 0 0 (by decide) d.num_lt a.num_lt (by decide) (by decide),
    (writesPoly_sunif d a).raisesParam, raisesIllcmd 0x20, fun s p hp =>
    (writesPoly_sunif d a).completes hp (uniformPoly_length _ _) (getD_shake256 (s.seed a) p.n)⟩

/-- Settles O33: the slots hold the sampled terms, whose indices fit a slot because the shuffle keeps them below `N`. -/
theorem shwtSamplesTheList : Obligations.ShwtSamplesTheList := by
  refine fun d a h hh => ⟨?word, raisesParam_of_withParams fun _ => rfl, raisesIllcmd 0x21, fun s p hp => ?_⟩
  case word =>
    rw [encode, commandWord_toNat 0x21 _ _ 0 _ (by decide) d.num_lt a.num_lt (by decide) (by omega)]
    omega
  intro seed pos
  refine ⟨fun hgt => ?refused, fun hle => ?sampled⟩
  case refused => rw [exec_shwt hp, if_neg (by omega)]
  case sampled =>
    obtain ⟨-, -, -, -, hn, -⟩ := State.params_bits hp
    have hlen : (sampleSparse seed p.n h).length = h := sampleSparse_length _ _ _
    obtain ⟨hfields, hlens, hframe, hbytes⟩ := writeSparse_complete s d (sampleSparse seed p.n h) (by omega)
    refine ⟨_, (exec_shwt hp).trans (by rw [if_pos hle]; rfl), hfields, fun r => (hlens r).trans (by rw [hlen]), hframe,
      fun m hm => ?slot, fun m hm hlt => ?rest⟩
    case slot =>
      obtain ⟨hlow, hhigh⟩ := getD_slots_sampleSparse seed hle hn hm
      exact ⟨(hbytes _ (by omega)).trans hlow, (hbytes (2 * m + 1) (by omega)).trans hhigh⟩
    case rest => rw [hbytes m hlt, getD_slots_of_le (by omega)]

/-- Settles O35: the derived bytes fill the first half of the register, the counter's bytes least significant first. -/
theorem sderiveHashesSeedAndCounter : Obligations.SderiveHashesSeedAndCounter := by
  refine fun d a => ⟨commandWord_toNat 0x22 _ _ 0 0 (by decide) d.num_lt a.num_lt (by decide) (by decide),
    raisesParam_of_withParams fun _ => rfl, raisesIllcmd 0x22, fun s p hp => ?_⟩
  obtain ⟨hframe, hbytes, hzeros⟩ := writeBytes_complete s d (derive_length (s.seed a) s.arg) (by decide)
  refine ⟨_, exec_sderive hp, hframe, fun k hk => ?_, hzeros⟩
  rw [hbytes k hk, getD_derive _ _ hk, le32_eq]
  rfl

/-- Settles O36: outside its range the command is refused before the draw; the draw's outcome decides between the two ends. -/
theorem srandWritesTheDraw : Obligations.SrandWritesTheDraw := by
  refine fun d n hn => ⟨?word, raisesParam_of_withParams fun _ => rfl, raisesIllcmd 0x23,
    fun s p hp => ⟨fun hrange => ?refused, fun h1 h64 => ⟨fun y e hdraw => ?drawn, fun e hdraw => ?failed⟩⟩⟩
  case word =>
    rw [encode, commandWord_toNat 0x23 _ 0 0 _ (by decide) d.num_lt (by decide) (by decide) (by omega)]
    omega
  case refused => rw [exec_srand hp, if_neg (by omega)]
  case drawn =>
    exact ⟨_, exec_srand_of_bytes hp ⟨h1, h64⟩ hdraw,
      writeBytes_complete { s with entropy := e } d (EntropyPort.read_length hdraw) h64⟩
  case failed =>
    exact ⟨_, exec_srand_of_failure hp ⟨h1, h64⟩ hdraw, rfl, writeBytes_nil_raise { s with entropy := e } d .entropy⟩

end Sys2Proof.Proofs
end

section
/-! The registers of `XEF_DEFAULT` (R168 to R170): sums modulo 2, the place of a message bit among the registers' bits, and the
parity and the votes as sums over these places, for any list of register lengths. -/

namespace Sys2Proof.Machine

open Finset

variable {d j i k : Nat} {lens : List Nat} {m a b : List Bool}

/-! ## Bit strings added modulo 2 -/

theorem xorBits_length (h : a.length = b.length) : (xorBits a b).length = a.length := by simp [xorBits, h]

theorem getD_xorBits (h : a.length = b.length) (i : Nat) :
    (xorBits a b).getD i false = (a.getD i false ^^ b.getD i false) := by
  simp only [xorBits, List.getD_eq_getElem?_getD, List.getElem?_zipWith]
  rcases lt_or_ge i a.length with hi | hi
  · simp [hi, h ▸ hi]
  · simp [hi, h ▸ hi]

theorem ext_getD_false (h : a.length = b.length) (hbits : ∀ i, i < a.length → a.getD i false = b.getD i false) : a = b :=
  List.ext_getElem h fun i hi hi' => by
    rw [← List.getD_eq_getElem a false hi, hbits i hi, List.getD_eq_getElem b false hi']

/-- The weight of a word, bit by bit. -/
theorem count_true_eq_sum (w : List Bool) : w.count true = ∑ i ∈ range w.length, (w.getD i false).toNat := by
  induction w with
  | nil => rfl
  | cons b w ih =>
    rw [List.length_cons, sum_range_succ', List.count_cons, ih]
    cases b <;> rfl

/-! ## Sums modulo 2 -/

theorem bodd_eq_decide (n : Nat) : n.bodd = decide (n % 2 = 1) := by
  rw [Nat.mod_two_of_bodd]
  cases n.bodd <;> rfl

theorem toNat_bodd_le (n : Nat) : n.bodd.toNat ≤ n := by
  rw [← Nat.mod_two_of_bodd]
  exact Nat.mod_le n 2

theorem toNat_xor_le (x y : Bool) : (x ^^ y).toNat ≤ x.toNat + y.toNat := by cases x <;> cases y <;> decide

theorem xor_xor_xor_left (x y z : Bool) : ((x ^^ y) ^^ (x ^^ z)) = (y ^^ z) := by cases x <;> simp

theorem xor_xor_xor_comm (x y z u : Bool) : ((x ^^ y) ^^ (z ^^ u)) = ((x ^^ z) ^^ (y ^^ u)) := by
  cases y <;> cases z <;> simp

theorem bodd_toNat (x : Bool) : x.toNat.bodd = x := by cases x <;> rfl

/-- How many of the first `d` bits that register `j` puts at position `p` are set. -/
def registerCount (d j len : Nat) (c : Nat → Bool) (p : Nat) : Nat :=
  ∑ i ∈ range d, if xefPos d j len i = p ∧ c i = true then 1 else 0

theorem registerCount_congr {x y : Nat → Bool} (h : ∀ i, i < d → x i = y i) {len p : Nat} :
    registerCount d j len x p = registerCount d j len y p :=
  sum_congr rfl fun i hi => by rw [h i (mem_range.1 hi)]

/-- A register's bit is the sum modulo 2 of the message bits at its position (R169). -/
theorem xefRegisterBit_eq (d j len : Nat) (m : List Bool) (p : Nat) : xefRegisterBit d j len m p =
    (∑ i ∈ range m.length, if xefPos d j len i = p ∧ m.getD i false = true then 1 else 0).bodd := by
  induction m using List.reverseRecOn with
  | nil => simp [xefRegisterBit]
  | append_singleton m b ih =>
    have hold : ∀ i ∈ range m.length, (m ++ [b]).getD i false = m.getD i false := fun i hi =>
      List.getD_append _ _ _ _ (mem_range.1 hi)
    have hnew : (m ++ [b]).getD m.length false = b := by simp
    rw [List.length_append, List.length_singleton, sum_range_succ, Nat.bodd_add, hnew,
      sum_congr rfl fun i hi => by rw [hold i hi], ← ih, xefRegisterBit, List.zipIdx_append, List.foldl_append]
    by_cases hp : xefPos d j len m.length = p <;> cases b <;> simp [hp, xefRegisterBit]

/-- The sum of two words has at each position the sum of the bits (R169 is linear). -/
theorem bodd_registerCount_xor (d j len : Nat) (x y : Nat → Bool) (p : Nat) :
    (registerCount d j len (fun i => x i ^^ y i) p).bodd =
      ((registerCount d j len x p).bodd ^^ (registerCount d j len y p).bodd) := by
  have hbit : ∀ i, (if xefPos d j len i = p ∧ (x i ^^ y i) = true then 1 else 0 : Nat).bodd =
      ((if xefPos d j len i = p ∧ x i = true then 1 else 0 : Nat).bodd ^^
        (if xefPos d j len i = p ∧ y i = true then 1 else 0 : Nat).bodd) := fun i => by
    by_cases hp : xefPos d j len i = p <;> cases x i <;> cases y i <;> simp [hp]
  unfold registerCount
  generalize range d = bits
  induction bits using Finset.induction_on with
  | empty => simp
  | insert i bits hi ih =>
    rw [sum_insert hi, sum_insert hi, sum_insert hi, Nat.bodd_add, Nat.bodd_add, Nat.bodd_add, ih, hbit]
    exact xor_xor_xor_comm _ _ _ _

/-! ## The registers one after the other (R168) -/

theorem xefPos_of_pos {len : Nat} (hj : 0 < j) : xefPos d j len i = i % len := if_neg hj.ne'

/-- The place of message bit `i` among the bits of the registers, which are numbered from `j₀` on: the offset of the register
and the bit's position in it. -/
def xefPlace (d j₀ : Nat) (lens : List Nat) (j i : Nat) : Nat :=
  (lens.take j).sum + xefPos d (j₀ + j) (lens.getD j 0) i

@[simp] theorem xefPlace_cons_zero (d j₀ len : Nat) (rest : List Nat) (i : Nat) :
    xefPlace d j₀ (len :: rest) 0 i = xefPos d j₀ len i := by simp [xefPlace]

@[simp] theorem xefPlace_cons_succ (d j₀ len : Nat) (rest : List Nat) (j i : Nat) :
    xefPlace d j₀ (len :: rest) (j + 1) i = len + xefPlace d (j₀ + 1) rest j i := by
  simp [xefPlace, add_assoc, add_comm 1 j]

/-- Every position is inside its register. -/
def PositionsFit (d j₀ : Nat) (lens : List Nat) : Prop :=
  ∀ j, j < lens.length → ∀ i, i < d → xefPos d (j₀ + j) (lens.getD j 0) i < lens.getD j 0

theorem PositionsFit.head {j₀ len : Nat} {rest : List Nat} (h : PositionsFit d j₀ (len :: rest)) (hi : i < d) :
    xefPos d j₀ len i < len := h 0 (by simp) i hi

theorem PositionsFit.tail {j₀ len : Nat} {rest : List Nat} (h : PositionsFit d j₀ (len :: rest)) :
    PositionsFit d (j₀ + 1) rest := fun j hj i hi => by
  simpa [add_assoc, add_comm 1 j] using h (j + 1) (by simpa using hj) i hi

/-- How many set bits all registers put at place `k`. -/
def placeCount (d j₀ : Nat) (lens : List Nat) (c : Nat → Bool) (k : Nat) : Nat :=
  ∑ j ∈ range lens.length, ∑ i ∈ range d, if xefPlace d j₀ lens j i = k ∧ c i = true then 1 else 0

theorem placeCount_cons_of_lt {j₀ len : Nat} (rest : List Nat) (c : Nat → Bool) (hk : k < len) :
    placeCount d j₀ (len :: rest) c k = registerCount d j₀ len c k := by
  have hlater : ∀ j i, len + xefPlace d (j₀ + 1) rest j i ≠ k := fun j i => by omega
  simp [placeCount, registerCount, sum_range_succ', hlater]

theorem placeCount_cons_of_le {j₀ len : Nat} {rest : List Nat} (h : PositionsFit d j₀ (len :: rest)) (c : Nat → Bool)
    (hk : len ≤ k) : placeCount d j₀ (len :: rest) c k = placeCount d (j₀ + 1) rest c (k - len) := by
  have hfirst : ∀ i ∈ range d, (if xefPos d j₀ len i = k ∧ c i = true then 1 else 0) = 0 := fun i hi => by
    have := h.head (mem_range.1 hi)
    rw [if_neg (by omega)]
  have hlater : ∀ j i, len + xefPlace d (j₀ + 1) rest j i = k ↔ xefPlace d (j₀ + 1) rest j i = k - len := fun j i => by
    omega
  simp only [placeCount, List.length_cons, sum_range_succ', xefPlace_cons_zero, xefPlace_cons_succ, hlater,
    sum_eq_zero hfirst, add_zero]

/-- A parity bit is the sum modulo 2 of the message bits whose place it is, over all registers (R169). -/
theorem getD_xefRegisters {j₀ : Nat} (hm : m.length = d) (h : PositionsFit d j₀ lens) (k : Nat) :
    (xefRegisters d m j₀ lens).getD k false = (placeCount d j₀ lens (m.getD · false) k).bodd := by
  induction lens generalizing j₀ k with
  | nil => simp [xefRegisters, placeCount]
  | cons len rest ih =>
    have hlen : (xefRegister d j₀ len m).length = len := by simp [xefRegister]
    rw [xefRegisters]
    rcases lt_or_ge k len with hk | hk
    · rw [List.getD_append _ _ _ _ (hlen.symm ▸ hk), placeCount_cons_of_lt rest _ hk, registerCount, ← hm,
        ← xefRegisterBit_eq]
      simp [xefRegister, hk]
    · rw [List.getD_append_right _ _ _ _ (hlen.symm ▸ hk), hlen, ih h.tail, placeCount_cons_of_le h _ hk]

/-- The votes are the syndrome bits at the places of the bit (R170). -/
theorem xefVotes_eq_sum (d : Nat) (syn : List Bool) (i j₀ off : Nat) (lens : List Nat) : xefVotes d syn i j₀ off lens =
    ∑ j ∈ range lens.length, (syn.getD (off + xefPlace d j₀ lens j i) false).toNat := by
  induction lens generalizing j₀ off with
  | nil => rfl
  | cons len rest ih =>
    rw [xefVotes, ih, List.length_cons, sum_range_succ', add_comm]
    simp only [xefPlace_cons_zero, xefPlace_cons_succ, add_assoc]

end Sys2Proof.Machine
end

section
/-! `XEF_DEFAULT` with the lengths of its table (R168 to R171): the parity and the decoder bit by bit, and why the vote of the
majority corrects: two message bits share a position in at most one register, so the wrong votes on a bit come from different
errors. -/

namespace Sys2Proof.Machine

open Finset

variable {d f j j' i i' : Nat} {lens : List Nat} {m w : List Bool}

/-! ## The table of register lengths (R168) -/

/-- What the lengths of R168 have in common: block register of 16 positions, then pairwise coprime registers, no shorter than a
block, the product of any two of them at least `d`. -/
structure IsXefTable (d f : Nat) (lens : List Nat) : Prop where
  lengths : xefLengths d f = lens
  registers : lens.length = 2 * f
  fits : lens.sum ≤ d
  block : lens.getD 0 0 = 16 ∧ d / 16 * 16 = d
  long : ∀ j, j < lens.length → 0 < j → d / 16 ≤ lens.getD j 0
  coprime : ∀ j', j' < lens.length → ∀ j, j < j' → 0 < j →
    (lens.getD j 0).Coprime (lens.getD j' 0) ∧ d ≤ lens.getD j 0 * lens.getD j' 0

theorem isXefTable_of_mem (h : (d = 128 ∧ f = 3 ∧ lens = [16, 11, 13, 15, 17, 19]) ∨
    (d = 256 ∧ f = 5 ∧ lens = [16, 16, 17, 19, 21, 23, 25, 29, 31, 37])) : IsXefTable d f lens := by
  rcases h with ⟨rfl, rfl, rfl⟩ | ⟨rfl, rfl, rfl⟩
  · exact ⟨rfl, rfl, by decide, by decide, by decide, by decide⟩
  · exact ⟨rfl, rfl, by decide, by decide, by decide, by decide⟩

theorem exists_isXefTable (h : (d = 128 ∧ f = 3) ∨ (d = 256 ∧ f = 5)) : ∃ lens, IsXefTable d f lens := by
  rcases h with ⟨rfl, rfl⟩ | ⟨rfl, rfl⟩
  · exact ⟨_, isXefTable_of_mem (.inl ⟨rfl, rfl, rfl⟩)⟩
  · exact ⟨_, isXefTable_of_mem (.inr ⟨rfl, rfl, rfl⟩)⟩

/-! ## The codeword (R169) -/

theorem xefDefaultEncode_length (d f : Nat) (m : List Bool) : (xefDefaultEncode d f m).length = m.length + d :=
  xefEncode_length .xefDefault d f m

theorem getD_xefDefaultEncode_of_lt (hi : i < m.length) : (xefDefaultEncode d f m).getD i false = m.getD i false :=
  List.getD_append _ _ _ _ hi

theorem getD_xefDefaultEncode_add (hm : m.length = d) (k : Nat) :
    (xefDefaultEncode d f m).getD (d + k) false = (xefParity d f m).getD k false := by
  rw [xefDefaultEncode, List.getD_append_right _ _ _ _ (by omega), hm, Nat.add_sub_cancel_left]

/-! ## Votes (R170) -/

/-- How many set bits other than bit `i` register `j` puts at the position of bit `i`. -/
def otherErrors (d j len : Nat) (x : Nat → Bool) (i : Nat) : Nat :=
  ∑ i' ∈ (range d).erase i, if xefPos d j len i' = xefPos d j len i ∧ x i' = true then 1 else 0

theorem registerCount_eq_add_otherErrors (j len : Nat) (x : Nat → Bool) (hi : i < d) :
    registerCount d j len x (xefPos d j len i) = (x i).toNat + otherErrors d j len x i := by
  rw [registerCount, otherErrors, ← add_sum_erase _ _ (mem_range.2 hi)]
  cases x i <;> simp

/-- The vote of register `j` on bit `i` for the errors `x` on the message bits and `y` on the parity bits. -/
def errorVote (d : Nat) (lens : List Nat) (x y : Nat → Bool) (j i : Nat) : Bool :=
  (registerCount d j (lens.getD j 0) x (xefPos d j (lens.getD j 0) i)).bodd ^^ y (xefPlace d 0 lens j i)

/-- A wrong vote needs an error on another message bit at the position, or on the parity bit there. -/
theorem toNat_wrong_vote_le (hi : i < d) (x y : Nat → Bool) : (errorVote d lens x y j i ^^ x i).toNat ≤
    otherErrors d j (lens.getD j 0) x i + (y (xefPlace d 0 lens j i)).toNat := by
  have hvote : (errorVote d lens x y j i ^^ x i) =
      ((otherErrors d j (lens.getD j 0) x i).bodd ^^ y (xefPlace d 0 lens j i)) := by
    rw [errorVote, registerCount_eq_add_otherErrors _ _ _ hi, Nat.bodd_add, bodd_toNat]
    cases x i <;> simp
  have hodd := toNat_bodd_le (otherErrors d j (lens.getD j 0) x i)
  rw [hvote]
  exact (toNat_xor_le _ _).trans (Nat.add_le_add_right hodd _)

/-- Where the wrong votes and the error `x` of the bit itself are at most `f` together, `2f` votes reach `f + 1` iff `x` is 1. -/
theorem majority_eq {x : Bool} {vote : Nat → Bool}
    (h : ∑ j ∈ range (2 * f), (vote j ^^ x).toNat + x.toNat ≤ f) :
    decide (f + 1 ≤ ∑ j ∈ range (2 * f), (vote j).toNat) = x := by
  cases x with
  | false =>
    simp only [Bool.xor_false, Bool.toNat_false, add_zero] at h
    exact decide_eq_false (by omega)
  | true =>
    have hall : ∑ j ∈ range (2 * f), ((vote j ^^ true).toNat + (vote j).toNat) = 2 * f := by
      rw [sum_congr rfl fun j _ => (by cases vote j <;> rfl : (vote j ^^ true).toNat + (vote j).toNat = 1)]
      simp
    rw [sum_add_distrib] at hall
    rw [Bool.toNat_true] at h
    exact decide_eq_true (by omega)

namespace IsXefTable

theorem positionsFit (h : IsXefTable d f lens) : PositionsFit d 0 lens := by
  intro j hj i hi
  obtain ⟨hlen, hd⟩ := h.block
  rw [zero_add, xefPos]
  split_ifs with hj0
  · rw [hj0, hlen]
    exact Nat.div_lt_of_lt_mul (by omega)
  · have := h.long j hj (Nat.pos_of_ne_zero hj0)
    exact Nat.mod_lt _ (by omega)

/-- Two message bits with one position in each of two registers are one bit (R168; what R171 rests on). -/
theorem eq_of_two_positions (h : IsXefTable d f lens) (hj' : j' < lens.length) (hlt : j < j') (hi : i < d) (hi' : i' < d)
    (hpos : xefPos d j (lens.getD j 0) i = xefPos d j (lens.getD j 0) i')
    (hpos' : xefPos d j' (lens.getD j' 0) i = xefPos d j' (lens.getD j' 0) i') : i = i' := by
  have hmod' : i ≡ i' [MOD lens.getD j' 0] := by
    rwa [xefPos_of_pos (Nat.zero_lt_of_lt hlt), xefPos_of_pos (Nat.zero_lt_of_lt hlt)] at hpos'
  rcases Nat.eq_zero_or_pos j with rfl | hj
  case inl =>
    have hquot : i / (d / 16) = i' / (d / 16) := by simpa [xefPos] using hpos
    have hsize := h.long j' hj' hlt
    obtain ⟨-, hd⟩ := h.block
    have hblock : 0 < d / 16 := by omega
    have hrem : i % (d / 16) ≡ i' % (d / 16) [MOD lens.getD j' 0] := by
      rw [← Nat.div_add_mod i (d / 16), ← Nat.div_add_mod i' (d / 16), hquot] at hmod'
      exact Nat.ModEq.add_left_cancel' _ hmod'
    have hrem_eq := hrem.eq_of_lt_of_lt ((Nat.mod_lt i hblock).trans_le hsize) ((Nat.mod_lt i' hblock).trans_le hsize)
    rw [← Nat.div_add_mod i (d / 16), ← Nat.div_add_mod i' (d / 16), hquot, hrem_eq]
  case inr =>
    have hmod : i ≡ i' [MOD lens.getD j 0] := by rwa [xefPos_of_pos hj, xefPos_of_pos hj] at hpos
    obtain ⟨hcoprime, hsize⟩ := h.coprime j' hj' j hlt hj
    exact ((Nat.modEq_and_modEq_iff_modEq_mul hcoprime).1 ⟨hmod, hmod'⟩).eq_of_lt_of_lt (hi.trans_le hsize)
      (hi'.trans_le hsize)

/-! ## The parity and the decoder by the table (R169, R170) -/

theorem xefPlace_lt_offset (h : IsXefTable d f lens) (hj : j < lens.length) (hi : i < d) :
    xefPlace d 0 lens j i < (lens.take (j + 1)).sum := by
  have hfit := h.positionsFit j hj i hi
  rw [List.sum_take_succ _ _ hj, ← List.getD_eq_getElem _ 0 hj, xefPlace]
  exact Nat.add_lt_add_left hfit _

/-- The registers do not overlap. -/
theorem xefPlace_lt_xefPlace (h : IsXefTable d f lens) (hlt : j < j') (hj' : j' < lens.length) (hi : i < d) (i' : Nat) :
    xefPlace d 0 lens j i < xefPlace d 0 lens j' i' :=
  calc xefPlace d 0 lens j i < (lens.take (j + 1)).sum := h.xefPlace_lt_offset (hlt.trans hj') hi
    _ ≤ (lens.take j').sum := List.Sublist.sum_le_sum (List.take_sublist_take_left hlt) fun _ _ => Nat.zero_le _
    _ ≤ xefPlace d 0 lens j' i' := Nat.le_add_right _ _

theorem register_eq_of_xefPlace_eq (h : IsXefTable d f lens) (hj : j < lens.length) (hj' : j' < lens.length) (hi : i < d)
    (hi' : i' < d) (heq : xefPlace d 0 lens j i = xefPlace d 0 lens j' i') : j = j' := by
  rcases lt_trichotomy j j' with hlt | hjj | hgt
  · exact absurd heq (h.xefPlace_lt_xefPlace hlt hj' hi i').ne
  · exact hjj
  · exact absurd heq (h.xefPlace_lt_xefPlace hgt hj hi' i).ne'

theorem xefPlace_lt (h : IsXefTable d f lens) (hj : j < lens.length) (hi : i < d) : xefPlace d 0 lens j i < d :=
  calc xefPlace d 0 lens j i < (lens.take (j + 1)).sum := h.xefPlace_lt_offset hj hi
    _ ≤ lens.sum := List.Sublist.sum_le_sum (List.take_sublist _ _) fun _ _ => Nat.zero_le _
    _ ≤ d := h.fits

theorem getD_xefParity {k : Nat} (h : IsXefTable d f lens) (hm : m.length = d) (hk : k < d) :
    (xefParity d f m).getD k false = (placeCount d 0 lens (m.getD · false) k).bodd := by
  rw [← getD_xefRegisters hm h.positionsFit, xefParity, h.lengths]
  simp only [List.getD_eq_getElem?_getD, List.getElem?_take, hk, if_true, List.getElem?_append, List.getElem?_replicate]
  split
  · rfl
  · next hge => rw [List.getElem?_eq_none (Nat.le_of_not_lt hge)]; split <;> rfl

/-- At a place of register `j` only register `j` counts. -/
theorem placeCount_xefPlace (h : IsXefTable d f lens) (hj : j < lens.length) (hi : i < d) (c : Nat → Bool) :
    placeCount d 0 lens c (xefPlace d 0 lens j i) =
      registerCount d j (lens.getD j 0) c (xefPos d j (lens.getD j 0) i) := by
  rw [placeCount, sum_eq_single_of_mem j (mem_range.2 hj)]
  · simp [registerCount, xefPlace]
  · refine fun j' hj' hne => sum_eq_zero fun i' hi' => if_neg fun hplace => hne ?_
    exact h.register_eq_of_xefPlace_eq (mem_range.1 hj') hj (mem_range.1 hi') hi hplace.1

/-- A decoded bit is flipped iff at least `f + 1` registers vote for it (R170). -/
theorem getD_xefDefaultDecode (h : IsXefTable d f lens) (hw : w.length = 2 * d) (hi : i < d) :
    (xefDefaultDecode d f w).getD i false = (w.getD i false ^^ decide (f + 1 ≤ ∑ j ∈ range lens.length,
      ((xefParity d f (w.take d)).getD (xefPlace d 0 lens j i) false ^^
        w.getD (d + xefPlace d 0 lens j i) false).toNat)) := by
  have hsyn : (xefParity d f (w.take d)).length = (w.drop d).length := by rw [xefParity_length, List.length_drop]; omega
  have hdrop : ∀ k, (w.drop d).getD k false = w.getD (d + k) false := fun k => by simp [List.getD_eq_getElem?_getD]
  have hiw : i < w.length := by omega
  simp only [← hdrop, ← getD_xorBits hsyn]
  simp [xefDefaultDecode, xefVotes_eq_sum, h.lengths, List.getD_eq_getElem?_getD, hi, hiw]

/-! ## Correction (R171) -/

/-- Two different message bits share a position in at most one register. -/
theorem sum_shared_positions_le (h : IsXefTable d f lens) (hi : i < d) (hi' : i' < d) (hne : i' ≠ i) (x : Bool) :
    (∑ j ∈ range lens.length,
      if xefPos d j (lens.getD j 0) i' = xefPos d j (lens.getD j 0) i ∧ x = true then 1 else 0) ≤ x.toNat := by
  cases x with
  | false => simp
  | true =>
    simp only [and_true, ← card_filter, Bool.toNat_true]
    refine card_le_one.2 fun j hj j' hj' => ?_
    obtain ⟨hj, hpos⟩ := mem_filter.1 hj
    obtain ⟨hj', hpos'⟩ := mem_filter.1 hj'
    rcases lt_trichotomy j j' with hlt | hjj | hgt
    · exact absurd (h.eq_of_two_positions (mem_range.1 hj') hlt hi' hi hpos hpos') hne
    · exact hjj
    · exact absurd (h.eq_of_two_positions (mem_range.1 hj) hgt hi' hi hpos' hpos) hne

theorem sum_parity_errors_le (h : IsXefTable d f lens) (hi : i < d) (y : Nat → Bool) :
    ∑ j ∈ range lens.length, (y (xefPlace d 0 lens j i)).toNat ≤ ∑ k ∈ range d, (y k).toNat := by
  have hinj : Set.InjOn (xefPlace d 0 lens · i) (range lens.length) := fun j hj j' hj' heq =>
    h.register_eq_of_xefPlace_eq (mem_range.1 hj) (mem_range.1 hj') hi hi heq
  have himage : (range lens.length).image (xefPlace d 0 lens · i) ⊆ range d :=
    image_subset_iff.2 fun j hj => mem_range.2 (h.xefPlace_lt (mem_range.1 hj) hi)
  rw [← sum_image (f := fun k => (y k).toNat) hinj]
  exact sum_le_sum_of_subset himage

/-- Over all registers, the votes that are wrong on bit `i` are at most the errors other than on bit `i`: `x` are the errors on
the message bits, `y` those on the parity bits (R171). -/
theorem sum_wrong_votes_le (h : IsXefTable d f lens) (hi : i < d) (x y : Nat → Bool) :
    ∑ j ∈ range lens.length, (errorVote d lens x y j i ^^ x i).toNat + (x i).toNat ≤
      ∑ i' ∈ range d, (x i').toNat + ∑ k ∈ range d, (y k).toNat := by
  have hmessage : ∑ j ∈ range lens.length, otherErrors d j (lens.getD j 0) x i ≤
      ∑ i' ∈ (range d).erase i, (x i').toNat := by
    simp only [otherErrors]
    rw [sum_comm]
    refine sum_le_sum fun i' hi' => ?_
    obtain ⟨hne, hlt⟩ := mem_erase.1 hi'
    exact h.sum_shared_positions_le hi (mem_range.1 hlt) hne (x i')
  have hparity := h.sum_parity_errors_le hi y
  have hself := sum_erase_add (range d) (fun i' => (x i').toNat) (mem_range.2 hi)
  have hvotes := sum_le_sum fun j (_ : j ∈ range lens.length) => toNat_wrong_vote_le (lens := lens) (j := j) hi x y
  rw [sum_add_distrib] at hvotes
  omega

/-- The vote of register `j` depends on the error alone (R170, R171). -/
theorem vote_eq_errorVote (h : IsXefTable d f lens) {e : List Bool} (hm : m.length = d) (he : e.length = 2 * d)
    (hj : j < lens.length) (hi : i < d) :
    ((xefParity d f ((xorBits (xefDefaultEncode d f m) e).take d)).getD (xefPlace d 0 lens j i) false ^^
      (xorBits (xefDefaultEncode d f m) e).getD (d + xefPlace d 0 lens j i) false) =
    errorVote d lens (e.getD · false) (fun k => e.getD (d + k) false) j i := by
  have hcw : (xefDefaultEncode d f m).length = e.length := by rw [xefDefaultEncode_length]; omega
  have htake : ((xorBits (xefDefaultEncode d f m) e).take d).length = d := by
    rw [List.length_take, xorBits_length hcw]; omega
  have hplace := h.xefPlace_lt hj hi
  have hbits : ∀ i', i' < d → ((xorBits (xefDefaultEncode d f m) e).take d).getD i' false =
      (m.getD i' false ^^ e.getD i' false) := fun i' hi' => by
    have hmessage := getD_xefDefaultEncode_of_lt (d := d) (f := f) (m := m) (i := i') (by omega)
    rw [← hmessage, ← getD_xorBits hcw]
    simp [List.getD_eq_getElem?_getD, hi']
  rw [h.getD_xefParity htake hplace, h.placeCount_xefPlace hj hi, registerCount_congr hbits, bodd_registerCount_xor,
    getD_xorBits hcw, getD_xefDefaultEncode_add hm, h.getD_xefParity hm hplace, h.placeCount_xefPlace hj hi, errorVote]
  exact xor_xor_xor_left _ _ _

/-- `XEF_DEFAULT` corrects every error of weight at most `f` (R167 X2, R171). -/
theorem xefDefaultDecode_xorBits (h : IsXefTable d f lens) {e : List Bool} (hm : m.length = d) (he : e.length = 2 * d)
    (hweight : e.count true ≤ f) : xefDefaultDecode d f (xorBits (xefDefaultEncode d f m) e) = m := by
  have hcw : (xefDefaultEncode d f m).length = e.length := by rw [xefDefaultEncode_length]; omega
  have hw : (xorBits (xefDefaultEncode d f m) e).length = 2 * d := by rw [xorBits_length hcw, hcw, he]
  have hlen : (xefDefaultDecode d f (xorBits (xefDefaultEncode d f m) e)).length = d :=
    xefDecode_length .xefDefault d f _ (by omega)
  refine ext_getD_false (hlen.trans hm.symm) fun i hi => ?_
  have hi : i < d := hlen ▸ hi
  have hwrong := h.sum_wrong_votes_le hi (e.getD · false) fun k => e.getD (d + k) false
  rw [← sum_range_add, ← two_mul, ← he, ← count_true_eq_sum, h.registers] at hwrong
  have hvotes := sum_congr rfl fun j (hj : j ∈ range lens.length) =>
    congrArg Bool.toNat (h.vote_eq_errorVote hm he (mem_range.1 hj) hi)
  rw [h.getD_xefDefaultDecode hw hi, hvotes, h.registers, majority_eq (hwrong.trans hweight), getD_xorBits hcw,
    getD_xefDefaultEncode_of_lt (hm.symm ▸ hi)]
  simp

end IsXefTable

/-! ## Every code of the engine (R167; log 8) -/

/-- The codeword begins with the message (X1). -/
theorem take_xefEncode (code : XefCode) (d f : Nat) (m : List Bool) : (xefEncode code d f m).take m.length = m := by
  have hdefault : (xefDefaultEncode d f m).take m.length = m := List.take_left
  cases code with
  | xefDefault => exact hdefault
  | external =>
    rcases xef_external_cases d f with ⟨henc, -, -⟩ | ⟨henc, -⟩
    · rw [henc, xefOfferedEncode]
      exact List.take_left
    · rw [henc]
      exact hdefault

/-- Every code corrects errors of weight at most `f` (X2). -/
theorem xefDecode_xorBits (code : XefCode) (h : (d = 128 ∧ f = 3) ∨ (d = 256 ∧ f = 5)) {e : List Bool} (hm : m.length = d)
    (he : e.length = 2 * d) (hweight : e.count true ≤ f) : xefDecode code d f (xorBits (xefEncode code d f m) e) = m := by
  obtain ⟨lens, htable⟩ := exists_isXefTable h
  have hdefault := htable.xefDefaultDecode_xorBits hm he hweight
  cases code with
  | xefDefault => exact hdefault
  | external =>
    rcases xef_external_cases d f with ⟨henc, hdec, hcorrects⟩ | ⟨henc, hdec⟩
    · rw [henc, hdec]
      exact hcorrects m e hm he hweight
    · rw [henc, hdec]
      exact hdefault

/-- An error-free codeword decodes to its message. -/
theorem xefDecode_xefEncode (code : XefCode) (h : (d = 128 ∧ f = 3) ∨ (d = 256 ∧ f = 5)) (hm : m.length = d) :
    xefDecode code d f (xefEncode code d f m) = m := by
  have hcw : (xefEncode code d f m).length = 2 * d := by rw [xefEncode_length]; omega
  have hnone : xorBits (xefEncode code d f m) (List.replicate (2 * d) false) = xefEncode code d f m :=
    ext_getD_false ((xorBits_length (by simp [hcw]))) fun i _ => by
      rw [getD_xorBits (by simp [hcw]), List.getD_eq_getElem?_getD (l := List.replicate _ _),
        List.getElem?_getD_replicate_default_eq, Bool.xor_false]
  have hcorrected := xefDecode_xorBits code h hm (List.length_replicate (n := 2 * d) (a := false))
    (by simp [List.count_replicate])
  rwa [hnone] at hcorrected

end Sys2Proof.Machine

namespace Sys2Proof.Proofs

open Sys2Proof Sys2Proof.Machine

/-- Settles O40: the parity is the sum over the places, and the votes are read at the places of the bit. -/
theorem xefDefaultParityIsTheRegisterSum : Obligations.XefDefaultParityIsTheRegisterSum := by
  intro d f lens hlens place parity
  have htable := isXefTable_of_mem hlens
  have hplace : xefPlace d 0 lens = place := funext₂ fun j i => by rw [xefPlace, zero_add]; rfl
  have hparity : ∀ m : List Bool, m.length = d → ∀ k, (xefParity d f m).getD k false = parity m k := fun m hm k =>
    (getD_xefDefaultEncode_add hm k).symm
  refine ⟨fun m hm => ⟨?length, hm ▸ take_xefEncode .xefDefault d f m, fun k hk => ?sum⟩,
    fun w hw => ⟨xefDecode_length .xefDefault d f w (by omega), fun i hi => ?vote⟩⟩
  case length => rw [xefEncode_length]; omega
  case sum =>
    rw [← hparity m hm, htable.getD_xefParity hm hk, bodd_eq_decide, placeCount, htable.registers, hplace]
  case vote =>
    have htake : (w.take d).length = d := by rw [List.length_take]; omega
    rw [← hplace, ← htable.registers]
    simp only [← hparity _ htake]
    exact htable.getD_xefDefaultDecode hw hi

/-- Settles O41: the decoder's majority is right because the wrong votes on a bit come from different errors. -/
theorem xefDefaultCorrectsUpToFErrors : Obligations.XefDefaultCorrectsUpToFErrors := fun code d f hdf =>
  ⟨fun m hm => ⟨hm ▸ take_xefEncode code d f m, by rw [xefEncode_length]; omega⟩,
    fun w hw => xefDecode_length code d f w (by omega),
    fun _ _ hm he hweight => xefDecode_xorBits code hdf hm he hweight⟩

end Sys2Proof.Proofs
end

section
/-! The error-correction commands (R172 to R177): the bits and coefficients each of them writes. -/

namespace Sys2Proof.Machine

variable {s t : State} {p : Params} {d a : BReg} {r : PReg} {bits : List Bool} {b b' i k n : Nat}

/-! ## Command words of two registers (R90) -/

theorem registersWord_toNat {opc rd ra pattern : Nat} (hopc : opc < 256) (hd : rd < 16) (ha : ra < 16)
    (hpattern : opc * 2 ^ 24 = pattern) : (commandWord opc rd ra 0 0).toNat = pattern + rd * 2 ^ 20 + ra * 2 ^ 16 := by
  rw [commandWord_toNat opc rd ra 0 0 hopc hd ha (by decide) (by decide), hpattern]
  omega

/-! ## Bits and bytes of the window (R13) -/

theorem bitAt_eq_getLsbD (s : State) (b k : Nat) {j : Nat} (hj : j < 8) :
    s.bitAt b (8 * k + (7 - j)) = (s.mem.read (b + k)).getLsbD j := by
  have hdiv : (8 * k + (7 - j)) / 8 = k := by omega
  have hmod : 7 - (8 * k + (7 - j)) % 8 = j := by omega
  rw [State.bitAt, hdiv, hmod]

/-- Two bytes whose eight bits agree are equal. -/
theorem read_eq_of_bitAt_eq (h : ∀ j, j < 8 → t.bitAt b (8 * k + j) = s.bitAt b' (8 * k + j)) :
    t.mem.read (b + k) = s.mem.read (b' + k) :=
  BitVec.eq_of_getLsbD_eq fun j hj => by
    rw [← bitAt_eq_getLsbD t b k hj, ← bitAt_eq_getLsbD s b' k hj, h (7 - j) (by omega)]

theorem getD_map_bitAt (s : State) (b : Nat) (hi : i < n) :
    ((List.range n).map (s.bitAt b)).getD i false = s.bitAt b i := by simp [hi]

/-- What a completed write of a bit string leaves: its bits, zeros after them, everything else unchanged (R13, R23). -/
theorem writeBits_complete (s : State) (d : BReg) (hlen : bits.length = 8 * n) (hn : n ≤ 64) :
    CompletesIn s (s.writeBytes d (bytesOf bits)).complete [(d.base, 64)] ∧
      (∀ i, i < 8 * n → (s.writeBytes d (bytesOf bits)).complete.bitAt d.base i = bits.getD i false) ∧
      ∀ k, n ≤ k → k < 64 → (s.writeBytes d (bytesOf bits)).complete.mem.read (d.base + k) = 0 := by
  have hbytes : (bytesOf bits).length = n := by rw [bytesOf_length, hlen]; omega
  obtain ⟨hframe, -, hzeros⟩ := writeBytes_complete s d hbytes hn
  refine ⟨hframe, fun i hi => ?_, hzeros⟩
  exact (bitAt_fit s d.base bBytes (bytesOf bits) i (Nat.lt_of_lt_of_le (by omega) hn)).trans
    (bit_bytesOf bits i (by omega))

/-! ## XEFENC and XEFDEC -/

/-- The message length and the capacity of a selected set are those of a row of R168. -/
theorem State.params_code (hp : s.params = some p) : (p.d = 128 ∧ p.f = 3) ∨ (p.d = 256 ∧ p.f = 5) := by
  rcases State.params_cases hp with rfl | rfl | rfl <;> decide

theorem exec_xefenc (hp : s.params = some p) : exec (.xefenc d a) s = .next
    (s.writeBytes d (bytesOf (xefEncode s.xef p.d p.f ((List.range p.d).map (s.bitAt a.base))))).complete := by
  obtain ⟨hmsg, -⟩ := State.params_bits hp
  rw [← bitsOf_readRange s a.base p.d p.msgBytes hmsg.ge]
  exact congrArg Host.Outcome.next (State.withParams_some hp _)

theorem exec_xefdec (hp : s.params = some p) : exec (.xefdec d a) s = .next
    (s.writeBytes d (bytesOf (xefDecode s.xef p.d p.f ((List.range (2 * p.d)).map (s.bitAt a.base))))).complete := by
  obtain ⟨-, hcw, -⟩ := State.params_bits hp
  rw [← bitsOf_readRange s a.base (2 * p.d) p.cwBytes hcw.ge]
  exact congrArg Host.Outcome.next (State.withParams_some hp _)

/-! ## D2ENC and D2DEC -/

theorem writesPoly_d2enc (r : PReg) (a : BReg) :
    WritesPoly (.d2enc r a) r fun s p => d2Encode (bitsOf (s.readBytes a p.cwBytes) (2 * p.d)) p.n := fun _ => rfl

theorem exec_d2dec (hp : s.params = some p) : exec (.d2dec d r) s = .next
    (s.writeBytes d (bytesOf (d2Decode (s.readPoly r p.n) (2 * p.d)))).complete :=
  congrArg Host.Outcome.next (State.withParams_some hp _)

theorem getD_d2Decode (x : List Byte) (hi : i < n) : (d2Decode x n).getD i false =
    decide (128 ≤ (x.getD (2 * i) 0).toNat + (x.getD (2 * i + 1) 0).toNat) := by
  simp [d2Decode, hi]

end Sys2Proof.Machine

namespace Sys2Proof.Proofs

open Sys2Proof Sys2Proof.Machine

/-- Settles O38: the codeword's bits are written, and those of its first half are the message's. -/
theorem xefencWritesTheCodeword : Obligations.XefencWritesTheCodeword := by
  refine fun d a => ⟨registersWord_toNat (by decide) d.num_lt a.num_lt (by norm_num),
    raisesParam_of_withParams fun _ => rfl, raisesIllcmd 0x30, fun s p hp => ?_⟩
  obtain ⟨hmsg, hcw, -, hfits, -⟩ := State.params_bits hp
  set message := (List.range p.d).map (s.bitAt a.base) with hmessage
  have hlen : message.length = p.d := by simp [hmessage]
  have hcodeword : (xefEncode s.xef p.d p.f message).length = 8 * p.cwBytes := by rw [xefEncode_length]; omega
  obtain ⟨hframe, hbits, hzeros⟩ := writeBits_complete s d hcodeword hfits
  refine ⟨_, exec_xefenc hp, hframe, fun i hi => hbits i (by omega), fun k hk => read_eq_of_bitAt_eq fun j hj => ?_, hzeros⟩
  have hi : 8 * k + j < p.d := by omega
  calc _ = (xefEncode s.xef p.d p.f message).getD (8 * k + j) false := hbits _ (by omega)
    _ = ((xefEncode s.xef p.d p.f message).take p.d).getD (8 * k + j) false := by simp [List.getD_eq_getElem?_getD, hi]
    _ = message.getD (8 * k + j) false := by rw [← hlen, take_xefEncode]
    _ = s.bitAt a.base (8 * k + j) := getD_map_bitAt s a.base hi

/-- Settles O39: the decoded bits are written; a word that agrees with a codeword bit by bit is that codeword. -/
theorem xefdecWritesTheMessage : Obligations.XefdecWritesTheMessage := by
  refine fun d a => ⟨registersWord_toNat (by decide) d.num_lt a.num_lt (by norm_num),
    raisesParam_of_withParams fun _ => rfl, raisesIllcmd 0x31, fun s p hp => ?_⟩
  obtain ⟨hmsg, -, -, -, -, -, -, hfits, -⟩ := State.params_bits hp
  set word := (List.range (2 * p.d)).map (s.bitAt a.base) with hword
  have hlen : word.length = 2 * p.d := by simp [hword]
  have hdecoded : (xefDecode s.xef p.d p.f word).length = 8 * p.msgBytes := by
    rw [xefDecode_length _ _ _ _ (by omega), hmsg]
  obtain ⟨hframe, hbits, hzeros⟩ := writeBits_complete s d hdecoded (by omega)
  refine ⟨_, exec_xefdec hp, hframe, fun i hi => hbits i (by omega), fun m hm hagree i hi => ?_, hzeros⟩
  have hcodeword : word = xefEncode s.xef p.d p.f m := by
    refine ext_getD_false (by rw [hlen, xefEncode_length]; omega) fun i hi => ?_
    rw [hlen] at hi
    exact (getD_map_bitAt s a.base hi).trans (hagree i hi)
  rw [hbits i (by omega), hcodeword, xefDecode_xefEncode s.xef (State.params_code hp) hm]

/-- Settles O42: each bit of the codeword gives two coefficients, and they fill the polynomial. -/
theorem d2encRepeatsEachBit : Obligations.D2encRepeatsEachBit := by
  refine fun d a => ⟨registersWord_toNat (by decide) d.num_lt a.num_lt (by norm_num),
    (writesPoly_d2enc d a).raisesParam, raisesIllcmd 0x32, fun s p hp => ?_⟩
  obtain ⟨-, hcw, hn, -⟩ := State.params_bits hp
  have hcoefficient : ∀ k, k < p.n → (d2Encode (bitsOf (s.readBytes a p.cwBytes) (2 * p.d)) p.n).getD k 0 =
      d2Amplitude (s.bitAt a.base (k / 2)) := fun k hk => by
    rw [getD_d2Encode _ _ _ hk, State.readBytes, bitsOf_readRange _ _ _ _ hcw.ge, if_pos (by simp; omega),
      getD_map_bitAt _ _ (by omega)]
  obtain ⟨t, hexec, hframe, hcoefficients, hzeros⟩ :=
    (writesPoly_d2enc d a).completes hp (d2Encode_length _ _) hcoefficient
  refine ⟨t, hexec, hframe, fun i hi => ⟨?even, ?odd⟩, fun k hk => hzeros k (by omega)⟩
  case even =>
    rw [hcoefficients _ (by omega), Nat.mul_div_cancel_left _ two_pos]
    rfl
  case odd =>
    have hhalf : (2 * i + 1) / 2 = i := by omega
    rw [add_assoc, hcoefficients _ (by omega), hhalf]
    rfl

/-- Settles O43: each bit written is the threshold of its two coefficients. -/
theorem d2decThresholdsEachPair : Obligations.D2decThresholdsEachPair := by
  refine fun d a => ⟨registersWord_toNat (by decide) d.num_lt a.num_lt (by norm_num),
    raisesParam_of_withParams fun _ => rfl, raisesIllcmd 0x33, fun s p hp => ?_⟩
  obtain ⟨-, hcw, hn, hfits, -⟩ := State.params_bits hp
  have hlen : (d2Decode (s.readPoly a p.n) (2 * p.d)).length = 8 * p.cwBytes := by rw [d2Decode_length, hcw]
  obtain ⟨hframe, hbits, hzeros⟩ := writeBits_complete s d hlen hfits
  refine ⟨_, exec_d2dec hp, hframe, fun i hi => ?_, hzeros⟩
  rw [hbits i (by omega), getD_d2Decode _ hi, State.getD_readPoly _ _ _ _ (by omega),
    State.getD_readPoly _ _ _ _ (by omega), add_assoc]

end Sys2Proof.Proofs
end

section
/-! The packer as a pair of number codings (R186, R187): the stream of a polynomial as digits in base `2 ^ l`, and what packing
and unpacking make of each other. -/

namespace Sys2Proof.Machine

variable {a x : List Byte} {l n v : Nat}

/-! ## The top bits of a coefficient -/

/-- The low `8 − l` bits of a coefficient cleared (R190). -/
def clearLow (l : Nat) (b : Byte) : Byte := b - BitVec.ofNat 8 (b.toNat % 2 ^ (8 - l))

theorem clearLow_eq_topBits (l : Nat) (b : Byte) :
    BitVec.ofNat 8 (b.toNat / 2 ^ (8 - l) * 2 ^ (8 - l)) = clearLow l b := by
  have hsplit := Nat.div_add_mod' b.toNat (2 ^ (8 - l))
  have hbyte := b.isLt
  rw [clearLow]
  apply BitVec.eq_of_toNat_eq
  rw [BitVec.toNat_sub_of_le (BitVec.le_def.2 (by rw [BitVec.toNat_ofNat]; omega)), BitVec.toNat_ofNat,
    BitVec.toNat_ofNat]
  omega

theorem topBits_lt (h8 : l ≤ 8) (b : Byte) : b.toNat / 2 ^ (8 - l) < 2 ^ l := by
  rw [Nat.div_lt_iff_lt_mul (Nat.two_pow_pos _), ← Nat.pow_add, Nat.add_sub_cancel' h8]
  exact b.isLt

/-- The top bits of an unpacked coefficient are the digit it was made from (R187). -/
theorem topBits_of_digit (h8 : l ≤ 8) (hv : v < 2 ^ l) :
    (BitVec.ofNat 8 (v * 2 ^ (8 - l))).toNat / 2 ^ (8 - l) = v := by
  have hfits : v * 2 ^ (8 - l) < 2 ^ 8 :=
    calc v * 2 ^ (8 - l) < 2 ^ l * 2 ^ (8 - l) := Nat.mul_lt_mul_of_pos_right hv (Nat.two_pow_pos _)
      _ = 2 ^ 8 := by rw [← Nat.pow_add, Nat.add_sub_cancel' h8]
  rw [BitVec.toNat_ofNat, Nat.mod_eq_of_lt hfits, Nat.mul_div_cancel _ (Nat.two_pow_pos _)]

/-! ## The stream as one number -/

theorem unpackNat_packNat (h8 : l ≤ 8) (a : List Byte) : unpackNat l a.length (packNat l a) = a.map (clearLow l) := by
  induction a with
  | nil => rfl
  | cons b a ih =>
    have hdigit : (b.toNat / 2 ^ (8 - l) + 2 ^ l * packNat l a) % 2 ^ l = b.toNat / 2 ^ (8 - l) := by
      rw [Nat.add_mul_mod_self_left, Nat.mod_eq_of_lt (topBits_lt h8 b)]
    have hrest : (b.toNat / 2 ^ (8 - l) + 2 ^ l * packNat l a) / 2 ^ l = packNat l a := by
      rw [Nat.add_mul_div_left _ _ (Nat.two_pow_pos l), Nat.div_eq_of_lt (topBits_lt h8 b), Nat.zero_add]
    rw [List.length_cons, packNat, unpackNat, hdigit, hrest, ih, clearLow_eq_topBits, List.map_cons]

theorem packNat_unpackNat (h8 : l ≤ 8) (hv : v < 2 ^ (n * l)) : packNat l (unpackNat l n v) = v := by
  induction n generalizing v with
  | zero => rw [Nat.zero_mul, Nat.pow_zero, Nat.lt_one_iff] at hv; rw [hv]; rfl
  | succ n ih =>
    have hrest : v / 2 ^ l < 2 ^ (n * l) := by
      rw [Nat.div_lt_iff_lt_mul (Nat.two_pow_pos l), ← Nat.pow_add, ← Nat.succ_mul]
      exact hv
    rw [unpackNat, packNat, topBits_of_digit h8 (Nat.mod_lt _ (Nat.two_pow_pos l)), ih hrest, Nat.mod_add_div]

theorem leNat_lt (x : List Byte) : leNat x < 256 ^ x.length := by
  induction x with
  | nil => exact Nat.one_pos
  | cons b x ih =>
    have hbyte := b.isLt
    rw [leNat, List.length_cons, Nat.pow_succ]
    omega

/-! ## The two laws (R190) -/

theorem decompress_compress (h8 : l ≤ 8) (hbytes : 8 ∣ a.length * l) :
    decompress (compress a l) a.length l = a.map (clearLow l) := by
  have hfits : packNat l a < 256 ^ (a.length * l / 8) := by
    rw [show 256 = 2 ^ 8 from rfl, ← Nat.pow_mul, Nat.mul_div_cancel' hbytes]
    exact packNat_lt l h8 a
  rw [decompress, compress, leNat_leBytes _ _ hfits, unpackNat_packNat h8]

theorem compress_decompress (h8 : l ≤ 8) (hbytes : 8 * x.length = n * l) : compress (decompress x n l) l = x := by
  have hfits : leNat x < 2 ^ (n * l) := by
    rw [← hbytes, Nat.pow_mul]
    exact leNat_lt x
  have hlen : n * l / 8 = x.length := by omega
  rw [compress, decompress_length, hlen, decompress, packNat_unpackNat h8 hfits, leBytes_leNat]

end Sys2Proof.Machine

namespace Sys2Proof.Proofs

open Sys2Proof Sys2Proof.Machine

/-- Settles O46: the digits of the stream in base `2 ^ l` are the top bits of the coefficients, in both directions. -/
theorem compressionLaws : Obligations.CompressionLaws :=
  ⟨fun _ _ _ h8 hbytes => decompress_compress h8 hbytes, fun _ _ _ _ h8 hbytes => compress_decompress h8 hbytes⟩

end Sys2Proof.Proofs
end

section
/-! Packing, comparison and selection (R188, R189, R196, R197): how each command ends, and the bits and bytes it writes. -/

namespace Sys2Proof.Machine

variable {s : State} {p : Params} {r : PReg} {d a b : BReg} {l n i k u : Nat}

/-! ## PACK -/

theorem exec_pack (hp : s.params = some p) : exec (.pack r l) s = .next
    (if 1 ≤ l ∧ l ≤ 8 ∧ s.arg.toNat / 4096 = 0 ∧ s.arg.toNat % 4096 + p.n * l / 8 ≤ 1792 then
      (s.writeAt (0x1800 + s.arg.toNat % 4096) (fit (p.n * l / 8) (compress (s.readPoly r p.n) l))).complete
      else s.failed 2) := by
  have hexec : exec (.pack r l) s = .next (s.require (s.packRange p.n l) .operand
      (s.writeAt (0x1800 + s.arg.toNat % 4096) (fit (p.n * l / 8) (compress (s.readPoly r p.n) l))).complete) :=
    congrArg Host.Outcome.next (State.withParams_some hp _)
  rw [hexec, State.packRange_eq, State.require_operand]

/-- A stream of whole coefficients of a selected set fills whole bytes (R186). -/
theorem div_eight_lt_of_stream (hp : s.params = some p) (hk : k < p.n * l) : k / 8 < p.n * l / 8 := by
  obtain ⟨-, -, -, -, -, hdvd, -⟩ := State.params_bits hp
  obtain ⟨m, hm⟩ := hdvd.mul_right l
  omega

/-- A bit of the packed string of an operand is a bit of its coefficient (R186). -/
theorem bit_compress_readPoly (h1 : 1 ≤ l) (h8 : l ≤ 8) (hbyte : k / 8 < n * l / 8) (hk : k < n * l) :
    ((compress (s.readPoly r n) l).getD (k / 8) 0).getLsbD (k % 8) =
      (s.mem.read (r.base + k / l)).getLsbD (8 - l + k % l) := by
  rw [bit_compress _ _ _ h1 h8 (by rwa [State.readPoly_length]),
    State.getD_readPoly _ _ _ _ ((Nat.div_lt_iff_lt_mul h1).2 hk)]

/-! ## UNPACK -/

theorem exec_unpack (hp : s.params = some p) : exec (.unpack r l) s = .next
    (if 1 ≤ l ∧ l ≤ 8 ∧ s.arg.toNat / 4096 = 0 ∧ s.arg.toNat % 4096 + p.n * l / 8 ≤ 1792 then
      (s.writePoly r (decompress (s.mem.readRange (0x1800 + s.arg.toNat % 4096) (p.n * l / 8)) p.n l)).complete
      else s.failed 2) := by
  have hexec : exec (.unpack r l) s = .next (s.require (s.packRange p.n l) .operand
      (s.writePoly r (decompress (s.mem.readRange (0x1800 + s.arg.toNat % 4096) (p.n * l / 8)) p.n l)).complete) :=
    congrArg Host.Outcome.next (State.withParams_some hp _)
  rw [hexec, State.packRange_eq, State.require_operand]

theorem stream_index_lt (hi : i < n) (hu : u < l) : i * l + u < n * l :=
  calc i * l + u < (i + 1) * l := by rw [Nat.succ_mul]; omega
    _ ≤ n * l := Nat.mul_le_mul_right l hi

/-! ## BCTEQ -/

theorem exec_bcteq (hp : s.params = some p) : exec (.bcteq n) s = .next
    (if n ≤ 1792 then { s with
      run := .idle, done := true
      eq := decide (∀ k, k < n → s.mem.read (0x1000 + k) = s.mem.read (0x1800 + k)) } else s.failed 2) := by
  have hexec : exec (.bcteq n) s = .next (s.require (decide (n ≤ 1792)) .operand
      (s.setEq (ctEqual (s.readBuf .ctbuf n) (s.readBuf .xbuf n))).complete) :=
    congrArg Host.Outcome.next (State.withParams_some hp _)
  have hagree : ctEqual (s.readBuf .ctbuf n) (s.readBuf .xbuf n) = 0xFF ↔
      ∀ k, k < n → s.mem.read (0x1000 + k) = s.mem.read (0x1800 + k) := by
    rw [ctEqual_eq_ones_iff (by simp)]
    exact Memory.readRange_eq_iff s.mem 0x1000 0x1800 n
  rw [hexec, State.require_operand, State.setEq, decide_eq_decide.2 hagree]
  rfl

/-! ## BSEL -/

/-- The mask of `EQ` selects the first string where `EQ` is 1, the second where it is 0 (R197). -/
theorem select_eqMask (s : State) {x y : List Byte} (h : x.length = y.length) :
    select s.eqMask x y = if s.eq then x else y := by
  rw [State.eqMask]
  split_ifs
  · exact select_ones x y h
  · exact select_zero x y h

theorem exec_bsel (hp : s.params = some p) : exec (.bsel d a b n) s = .next
    (if 1 ≤ n ∧ n ≤ 64 then (s.writeBytes d (s.readBytes (if s.eq then a else b) n)).complete else s.failed 2) := by
  have hexec : exec (.bsel d a b n) s = .next (s.require (countRange n) .operand
      (s.writeBytes d (select s.eqMask (s.readBytes a n) (s.readBytes b n))).complete) :=
    congrArg Host.Outcome.next (State.withParams_some hp _)
  rw [hexec, countRange_eq, State.require_operand, select_eqMask s (by simp), apply_ite (s.readBytes · n)]

end Sys2Proof.Machine

namespace Sys2Proof.Proofs

open Sys2Proof Sys2Proof.Machine

/-- Settles O44: the packed string is written whole at the offset, and its bits are the top bits of the coefficients. -/
theorem packWritesTheBitStream : Obligations.PackWritesTheBitStream := by
  refine fun a l hl => ⟨?word, raisesParam_of_withParams fun _ => rfl, raisesIllcmd 0x40, fun s p hp => ?_⟩
  case word =>
    rw [encode, commandWord_toNat 0x40 0 _ 0 _ (by decide) (by decide) a.num_lt (by decide) (by omega)]
    omega
  intro off
  refine ⟨fun hrange => ?refused, fun h1 h8 harg hend => ?packed⟩
  case refused => rw [exec_pack hp, if_neg hrange]
  case packed =>
    refine ⟨_, by rw [exec_pack hp, if_pos ⟨h1, h8, harg, hend⟩], completesIn_fit _ _ _ _, fun k hk => ?_⟩
    have hbyte := div_eight_lt_of_stream hp hk
    rw [read_fit _ _ _ _ _ hbyte, bit_compress_readPoly h1 h8 hbyte hk]

/-- Settles O45: the coefficients written are those of the string at the offset, high bits from the stream, low bits 0. -/
theorem unpackReadsTheBitStream : Obligations.UnpackReadsTheBitStream := by
  refine fun d l hl => ⟨?word, raisesParam_of_withParams fun _ => rfl, raisesIllcmd 0x41, fun s p hp => ?_⟩
  case word =>
    rw [encode, commandWord_toNat 0x41 _ 0 0 _ (by decide) d.num_lt (by decide) (by decide) (by omega)]
    omega
  intro off
  refine ⟨fun hrange => ?refused, fun h1 h8 harg hend => ?unpacked⟩
  case refused => rw [exec_unpack hp, if_neg hrange]
  case unpacked =>
    obtain ⟨-, -, -, -, hn, -⟩ := State.params_bits hp
    obtain ⟨hframe, hcoeffs, hzeros⟩ := writePoly_complete s d
      (decompress_length (s.mem.readRange (0x1800 + off) (p.n * l / 8)) p.n l) hn fun _ _ => rfl
    refine ⟨_, by rw [exec_unpack hp, if_pos ⟨h1, h8, harg, hend⟩], hframe,
      fun i hi => ⟨fun u hu => ?low, fun u hu => ?high⟩, hzeros⟩
    case low => rw [hcoeffs i hi, bit_decompress_low _ _ _ _ _ hi hu]
    case high =>
      rw [hcoeffs i hi, bit_decompress_high _ _ _ _ _ h8 hi hu,
        Memory.getD_readRange _ _ _ _ (div_eight_lt_of_stream hp (stream_index_lt hi hu))]

/-- Settles O47: the comparator's mask is all ones exactly where the two buffers' first bytes agree. -/
theorem bcteqComparesTheBuffers : Obligations.BcteqComparesTheBuffers := by
  refine fun n hn => ⟨?word, raisesParam_of_withParams fun _ => rfl, raisesIllcmd 0x42,
    fun s p hp => ⟨fun hgt => ?refused, fun hle => ?compared⟩⟩
  case word =>
    rw [encode, commandWord_toNat 0x42 0 0 0 _ (by decide) (by decide) (by decide) (by decide) (by omega)]
    omega
  case refused => rw [exec_bcteq hp, if_neg (by omega)]
  case compared => rw [exec_bcteq hp, if_pos hle]

/-- Settles O48: the bytes written are those of the register that `EQ` names. -/
theorem bselSelectsByEq : Obligations.BselSelectsByEq := by
  refine fun d a b n hn => ⟨?word, raisesParam_of_withParams fun _ => rfl, raisesIllcmd 0x43,
    fun s p hp => ⟨fun hrange => ?refused, fun h1 h64 => ?selected⟩⟩
  case word => exact commandWord_toNat 0x43 _ _ _ n (by decide) d.num_lt a.num_lt b.num_lt (by omega)
  case refused => rw [exec_bsel hp, if_neg (by omega)]
  case selected =>
    obtain ⟨hframe, hbytes, hzeros⟩ :=
      writeBytes_complete s d (s.readBytes_length (if s.eq then a else b) n) h64
    refine ⟨_, by rw [exec_bsel hp, if_pos ⟨h1, h64⟩], hframe, fun k hk => ?_, hzeros⟩
    rw [hbytes k hk, State.getD_readBytes _ _ _ _ hk, apply_ite (fun r : BReg => s.mem.read (r.base + k))]

end Sys2Proof.Proofs
end

section
/-! Public-key encryption on the window's buffers (R205 to R214): the operands that the commands take from the buffers, the
buffers they write, how each command ends, and why decryption recovers a message from few wrong bits (R216). -/

namespace Sys2Proof.Machine

variable {s : State} {p : Params} {e : EntropyPort} {x y : List Byte} {bits : List Bool} {k m n : Nat}

/-! ## Parts of a string of the window -/

theorem Memory.take_readRange (m : Memory) (b : Nat) (h : k ≤ n) : (m.readRange b n).take k = m.readRange b k := by
  rw [readRange, ← List.map_take, List.take_range, Nat.min_eq_left h, readRange]

theorem Memory.drop_readRange (m : Memory) (b k n : Nat) : (m.readRange b n).drop k = m.readRange (b + k) (n - k) := by
  refine List.ext_getElem (by simp) fun i hi hi' => ?_
  simp [readRange, Nat.add_assoc]

/-! ## The operands (R192, R194) -/

/-- The seed stands at the start of `PKBUF` (R192). -/
theorem pkSeed_readBuf (s : State) (h : 32 ≤ n) : pkSeed (s.readBuf .pkbuf n) = s.mem.readRange 0x0400 32 :=
  Memory.take_readRange s.mem 0x0400 h

/-- The packed polynomial stands after the seed (R192). -/
theorem pkPoly_readBuf (hp : s.params = some p) :
    pkPoly p (s.readBuf .pkbuf p.pkBytes) = decompress (s.mem.readRange 0x0420 (p.pkBytes - 32)) p.n 7 := by
  obtain ⟨-, -, -, -, -, -, -, -, -, -, hlog, -⟩ := State.params_sizes hp
  have hpacked : (s.readBuf .pkbuf p.pkBytes).drop 32 = s.mem.readRange 0x0420 (p.pkBytes - 32) :=
    Memory.drop_readRange s.mem 0x0400 32 p.pkBytes
  rw [pkPoly, hlog, hpacked]

/-- `c1` stands at the start of `CTBUF` (R194). -/
theorem ctFirst_readBuf (s : State) (p : Params) : ctFirst p (s.readBuf .ctbuf p.ctBytes) =
    decompress (s.mem.readRange 0x1000 p.c1Bytes) p.n (Nat.log2 p.k1) :=
  congrArg (decompress · p.n (Nat.log2 p.k1)) (Memory.take_readRange s.mem 0x1000 (Nat.le_add_right _ _))

/-- `c2` stands after `c1` (R194). -/
theorem ctSecond_readBuf (s : State) (p : Params) : ctSecond p (s.readBuf .ctbuf p.ctBytes) =
    decompress (s.mem.readRange (0x1000 + p.c1Bytes) p.c2Bytes) p.n (Nat.log2 p.k2) := by
  have hpacked : (s.readBuf .ctbuf p.ctBytes).drop p.c1Bytes = s.mem.readRange (0x1000 + p.c1Bytes) (p.ctBytes - p.c1Bytes) :=
    Memory.drop_readRange s.mem 0x1000 p.c1Bytes p.ctBytes
  rw [ctSecond, hpacked, Params.ctBytes, Nat.add_sub_cancel_left]

/-- The message bits of R207 step 6 are those of `MSGBUF`. -/
theorem bitsOf_readBuf_msgbuf (hp : s.params = some p) :
    bitsOf (s.readBuf .msgbuf p.msgBytes) p.d = (List.range p.d).map (s.bitAt 0x0120) := by
  obtain ⟨hmsg, -⟩ := State.params_bits hp
  exact bitsOf_readRange s 0x0120 p.d p.msgBytes hmsg.ge

/-! ## The written buffers -/

/-- A key pair written: each buffer holds its string and zeros after it, every other byte is unchanged (R26). -/
theorem writePk_writeSk_window (s : State) (hx : x.length ≤ 928) (hy : y.length ≤ 1056) :
    SameOutside s ((s.writePk x).writeSk y) [(0x0400, 928), (0x0800, 1056)] ∧
      ((s.writePk x).writeSk y).mem.readRange 0x0400 928 = x ++ List.replicate (928 - x.length) 0 ∧
      ((s.writePk x).writeSk y).mem.readRange 0x0800 1056 = y ++ List.replicate (1056 - y.length) 0 := by
  rw [← fit_eq_append 928 x hx, ← fit_eq_append 1056 y hy, State.writePk_writeSk_eq]
  obtain ⟨hpk, hsk, hframe⟩ := Memory.two_writes s.mem 0x0400 928 0x0800 1056 x y (.inl (by decide))
  exact ⟨hframe, hpk, hsk⟩

/-- What a completed key generation leaves, its draws made: the keys with their lengths, everything else unchanged (R206). -/
theorem writePk_writeSk_complete (s : State) (e : EntropyPort) (hx : x.length = m) (hy : y.length = n) (hm : m ≤ 928)
    (hn : n ≤ 1056) :
    ∃ t, ((State.writePk { s with entropy := e } x).writeSk y).complete = t ∧
      t = { s with
        run := .idle, done := true, entropy := e, mem := t.mem
        pklen := BitVec.ofNat 11 m, sklen := BitVec.ofNat 11 n } ∧
      SameOutside s t [(0x0400, 928), (0x0800, 1056)] ∧
      t.mem.readRange 0x0400 928 = x ++ List.replicate (928 - m) 0 ∧
      t.mem.readRange 0x0800 1056 = y ++ List.replicate (1056 - n) 0 := by
  subst hx hy
  exact ⟨_, rfl, by rw [State.writePk_writeSk_eq]; rfl, writePk_writeSk_window { s with entropy := e } hm hn⟩

/-- What a failed key generation leaves: the error, both key buffers and both lengths zero (R246). -/
theorem noKeys_raise (s : State) (e : EntropyPort) :
    ∃ t, (State.noKeys { s with entropy := e }).raise .entropy = t ∧
      t = { s with run := .idle, err := true, errcode := 5, entropy := e, mem := t.mem, pklen := 0, sklen := 0 } ∧
      SameOutside s t [(0x0400, 928), (0x0800, 1056)] ∧
      t.mem.readRange 0x0400 928 = List.replicate 928 0 ∧ t.mem.readRange 0x0800 1056 = List.replicate 1056 0 :=
  ⟨_, rfl, by rw [State.noKeys_eq]; rfl,
    writePk_writeSk_window (x := []) (y := []) { s with entropy := e } (Nat.zero_le _) (Nat.zero_le _)⟩

/-- A ciphertext written and completed: `CTBUF` holds it and zeros after it, everything else is unchanged (R26). -/
theorem writeCt_complete (s : State) (hx : x.length = n) (hn : n ≤ 1792) :
    ∃ t, (s.writeCt x).complete = t ∧
      t = { s with run := .idle, done := true, mem := t.mem, ctlen := BitVec.ofNat 11 n } ∧
      SameOutside s t [(0x1000, 1792)] ∧ t.mem.readRange 0x1000 1792 = x ++ List.replicate (1792 - n) 0 := by
  subst hx
  obtain ⟨-, hframe⟩ := completesIn_fit s 0x1000 1792 x
  exact ⟨_, rfl, rfl, hframe, (Memory.readRange_writeRange_fit s.mem 0x1000 1792 x).trans (fit_eq_append 1792 x hn)⟩

/-- A completed write of a bit string to `MSGBUF`: its bits, zeros after them, everything else unchanged (R13, R26). -/
theorem writeMsg_complete (s : State) (hlen : bits.length = 8 * n) (hn : n ≤ 32) :
    CompletesIn s (s.writeBuf .msgbuf (bytesOf bits)).complete [(0x0120, 32)] ∧
      (∀ i, i < 8 * n → (s.writeBuf .msgbuf (bytesOf bits)).complete.bitAt 0x0120 i = bits.getD i false) ∧
      ∀ k, n ≤ k → k < 32 → (s.writeBuf .msgbuf (bytesOf bits)).complete.mem.read (0x0120 + k) = 0 := by
  have hbytes : (bytesOf bits).length = n := by rw [bytesOf_length, hlen]; omega
  refine ⟨completesIn_fit s 0x0120 32 _, fun i hi => ?_, fun k hk => read_fit_zero s 0x0120 32 _ k (hbytes.trans_le hk)⟩
  exact (bitAt_fit s 0x0120 32 (bytesOf bits) i (by omega)).trans (bit_bytesOf bits i (by omega))

/-! ## Key generation (R205, R206) -/

theorem pkeKeyGenPk_length (p : Params) {seedA : List Byte} (seedS : List Byte) (h : seedA.length = 32) :
    (pkeKeyGenPk p seedA seedS).length = p.pkBytes := by
  simp [pkeKeyGenPk, packPk, Params.pkBytes, h]

theorem pkeKeyGenSk_length (p : Params) (seedS : List Byte) : (pkeKeyGenSk p seedS).length = p.n :=
  fromSparse_length _ _

/-- The public key of a selected set: the seed and the rounded product at 7 bits a coefficient (R9, R192). -/
theorem pkeKeyGenPk_eq (hp : s.params = some p) (seedA seedS : List Byte) : pkeKeyGenPk p seedA seedS =
    seedA ++ compress (scaleRound (mulSparse (uniformPoly seedA p.n) (sampleSparse seedS p.n p.hs)) p.p 256) 7 := by
  obtain ⟨-, -, -, -, -, -, -, -, -, -, hlog, -⟩ := State.params_sizes hp
  rw [pkeKeyGenPk, packPk, hlog]

theorem exec_pkekg (hp : s.params = some p) : exec .pkekg s = .next (s.draw [32, 32]
    (fun xs s => ((s.writePk (pkeKeyGenPk p (xs.getD 0 []) (xs.getD 1 []))).writeSk (pkeKeyGenSk p (xs.getD 1 []))).complete)
    (fun s => s.noKeys.raise .entropy)) :=
  congrArg Host.Outcome.next (State.withParams_some hp _)

theorem exec_pkekg_of_bytes (hp : s.params = some p) (hdraw : s.entropy.reads [32, 32] = (some [x, y], e)) :
    exec .pkekg s = .next
      ((State.writePk { s with entropy := e } (pkeKeyGenPk p x y)).writeSk (pkeKeyGenSk p y)).complete := by
  rw [exec_pkekg hp, State.draw_ok hdraw]
  rfl

theorem exec_pkekg_of_failure (hp : s.params = some p) (hdraw : s.entropy.reads [32, 32] = (none, e)) :
    exec .pkekg s = .next ((State.noKeys { s with entropy := e }).raise .entropy) := by
  rw [exec_pkekg hp, State.draw_fail hdraw]

/-! ## Encryption and decryption (R207, R208, R213, R214) -/

/-- A failed length check is the error completion with code 4 (R244). -/
theorem State.require_len (s u : State) (c : Prop) [Decidable c] :
    s.require (decide c) .len u = if c then u else s.failed 4 := by
  split_ifs with hc
  · rw [decide_eq_true hc, State.require_true]
  · rw [decide_eq_false hc, State.require_false]
    rfl

theorem exec_pkeenc (hp : s.params = some p) (a : BReg) : exec (.pkeenc a) s = .next
    (if s.pklen.toNat = p.pkBytes then
      (s.writeCt (pkeEncrypt s.xef p (s.readBuf .pkbuf p.pkBytes) (s.readBuf .msgbuf p.msgBytes) (s.seed a))).complete
      else s.failed 4) := by
  rw [← State.require_len]
  exact congrArg Host.Outcome.next (State.withParams_some hp _)

/-- The first polynomial of the ciphertext under the key of `PKBUF` (R207 step 5). -/
theorem pkeC1_readBuf (hp : s.params = some p) (coin : List Byte) : pkeC1 p (s.readBuf .pkbuf p.pkBytes) coin =
    polyAdd (mulSparse (uniformPoly (s.mem.readRange 0x0400 32) p.n) (sampleSparse coin p.n p.hr))
      (fromSparse p.n (sampleSparse (derive coin 0) p.n p.he)) := by
  obtain ⟨hpk, -⟩ := State.params_sizes hp
  rw [pkeC1, pkSeed_readBuf s hpk, pkeEphemeral, pkeError]

/-- The second polynomial of the ciphertext of the message of `MSGBUF` (R207 step 7). -/
theorem pkeC2_readBuf (hp : s.params = some p) (code : XefCode) (coin : List Byte) :
    pkeC2 code p (s.readBuf .pkbuf p.pkBytes) (s.readBuf .msgbuf p.msgBytes) coin =
      polyAdd (polyAdd (d2Encode (xefEncode code p.d p.f ((List.range p.d).map (s.bitAt 0x0120))) p.n)
        (mulSparse (polyScale (decompress (s.mem.readRange 0x0420 (p.pkBytes - 32)) p.n 7) 2) (sampleSparse coin p.n p.hr)))
        (fromSparse p.n (sampleSparse (derive coin 1) p.n p.he)) := by
  obtain ⟨-, -, -, -, -, -, -, -, -, -, -, hscale⟩ := State.params_sizes hp
  rw [pkeC2, eccEncode, bitsOf_readBuf_msgbuf hp, pkPoly_readBuf hp, hscale, pkeEphemeral, pkeError]
  rfl

theorem exec_pkedec (hp : s.params = some p) : exec .pkedec s = .next
    (if (s.sklen.toNat = p.n ∨ s.sklen.toNat = p.skBytes) ∧ s.ctlen.toNat = p.ctBytes then
      (s.writeBuf .msgbuf (pkeDecrypt s.xef p (s.readBuf .skbuf p.n) (s.readBuf .ctbuf p.ctBytes))).complete
      else s.failed 4) := by
  rw [← State.require_len, Bool.decide_and, Bool.decide_or]
  exact congrArg Host.Outcome.next (State.withParams_some hp _)

/-- The difference that decryption rounds, from `CTBUF` and `SKBUF` (R213). -/
theorem pkeDiff_readBuf (s : State) (p : Params) : pkeDiff p (s.readBuf .skbuf p.n) (s.readBuf .ctbuf p.ctBytes) =
    polySub (decompress (s.mem.readRange (0x1000 + p.c1Bytes) p.c2Bytes) p.n (Nat.log2 p.k2))
      (mulSparse (decompress (s.mem.readRange 0x1000 p.c1Bytes) p.n (Nat.log2 p.k1))
        (toSparse (s.mem.readRange 0x0800 p.n))) := by
  rw [pkeDiff, ctFirst_readBuf, ctSecond_readBuf]
  rfl

/-! ## Correctness up to `f` wrong bits (R171, R216) -/

/-- Adding a word twice gives the other word back. -/
theorem xorBits_xorBits_self {v w : List Bool} (h : v.length = w.length) : xorBits v (xorBits v w) = w := by
  have hinner : v.length = (xorBits v w).length := (xorBits_length h).symm
  refine ext_getD_false ((xorBits_length hinner).trans h) fun i _ => ?_
  rw [getD_xorBits hinner, getD_xorBits h, ← Bool.xor_assoc, Bool.xor_self, Bool.false_xor]

/-- Every code decodes a word that differs from a codeword in at most `f` bits to the codeword's message (X2 of R167). -/
theorem xefDecode_of_near_codeword (code : XefCode) {d f : Nat} {word : List Bool}
    (h : (d = 128 ∧ f = 3) ∨ (d = 256 ∧ f = 5)) (hbits : bits.length = d) (hword : word.length = 2 * d)
    (hnear : (xorBits (xefEncode code d f bits) word).count true ≤ f) : xefDecode code d f word = bits := by
  have hlen : (xefEncode code d f bits).length = word.length := by rw [xefEncode_length]; omega
  have hcorrected := xefDecode_xorBits code h hbits ((xorBits_length hlen).trans (hlen.trans hword)) hnear
  rwa [xorBits_xorBits_self hlen] at hcorrected

/-- Decryption recovers a message whose codeword is near the decoded word, whichever code is built in (R216). -/
theorem pkeDecrypt_of_near_codeword (code : XefCode) {secret ct msg : List Byte}
    (h : (p.d = 128 ∧ p.f = 3) ∨ (p.d = 256 ∧ p.f = 5)) (hmsg : 8 * msg.length = p.d)
    (hnear : (xorBits (xefEncode code p.d p.f (bitsOf msg p.d))
      (d2Decode (pkeRecover (pkeDiff p secret ct)) (2 * p.d))).count true ≤ p.f) :
    pkeDecrypt code p secret ct = msg := by
  rw [pkeDecrypt, eccDecode,
    xefDecode_of_near_codeword code h (bitsOf_length msg p.d hmsg.ge) (d2Decode_length _ _) hnear, ← hmsg,
    bytesOf_bitsOf]

end Sys2Proof.Machine

namespace Sys2Proof.Proofs

open Sys2Proof Sys2Proof.Machine

/-- Settles O49: the two draws decide between the keys and the zeroed buffers; the two buffers are disjoint ranges. -/
theorem pkekgGeneratesTheKeys : Obligations.PkekgGeneratesTheKeys := by
  refine ⟨rfl, raisesParam_of_withParams fun _ => rfl, raisesIllcmd 0x80,
    fun s p hp => ⟨fun seedA seedS e hdraw => ?drawn, fun e hdraw => ?failed⟩⟩
  case drawn =>
    intro secret b
    obtain ⟨-, hpkFits, -, hskFits, -⟩ := State.params_sizes hp
    obtain ⟨hseed, -⟩ := List.cons.inj (EntropyPort.reads_lengths hdraw)
    obtain ⟨t, ht, hfields, hframe, hpk, hsk⟩ := writePk_writeSk_complete s e (pkeKeyGenPk_length p seedS hseed)
      (pkeKeyGenSk_length p seedS) hpkFits hskFits
    exact ⟨t, ht ▸ exec_pkekg_of_bytes hp hdraw, hfields, hframe, pkeKeyGenPk_eq hp seedA seedS ▸ hpk, hsk⟩
  case failed =>
    obtain ⟨t, ht, hzeroed⟩ := noKeys_raise s e
    exact ⟨t, ht ▸ exec_pkekg_of_failure hp hdraw, hzeroed⟩

/-- Settles O50: the operands are parts of `PKBUF` and `MSGBUF`, and the two packed polynomials fill `ct_bytes`. -/
theorem pkeencEncryptsTheMessage : Obligations.PkeencEncryptsTheMessage := by
  refine fun a => ⟨?word, raisesParam_of_withParams fun _ => rfl, raisesIllcmd 0x81,
    fun s p hp => ⟨fun hlen => ?refused, fun hlen => ?encrypted⟩⟩
  case word =>
    rw [encode, commandWord_toNat 0x81 0 _ 0 0 (by decide) (by decide) a.num_lt (by decide) (by decide)]
    omega
  case refused => rw [exec_pkeenc hp, if_neg hlen]
  case encrypted =>
    intro coin seedA b r e1 e2 c1 m c2
    obtain ⟨-, -, -, -, hfits, -⟩ := State.params_sizes hp
    have hct := pkeEncrypt_length s.xef p (s.readBuf .pkbuf p.pkBytes) (s.readBuf .msgbuf p.msgBytes) coin
    obtain ⟨t, ht, hfields, hframe, hctbuf⟩ := writeCt_complete s hct hfits
    refine ⟨t, ht ▸ (exec_pkeenc hp a).trans (by rw [if_pos hlen]; rfl), hfields, hframe, hctbuf.trans ?_⟩
    rw [pkeEncrypt, packCt, pkeC1_readBuf hp, pkeC2_readBuf hp]

/-- Settles O51: the operands are parts of `CTBUF` and `SKBUF`, and the decoded bits are written to `MSGBUF`. -/
theorem pkedecDecryptsTheMessage : Obligations.PkedecDecryptsTheMessage := by
  refine ⟨rfl, raisesParam_of_withParams fun _ => rfl, raisesIllcmd 0x82,
    fun s p hp => ⟨fun hlens => ?refused, fun hsk hct => ?decrypted⟩⟩
  case refused => rw [exec_pkedec hp, if_neg hlens]
  case decrypted =>
    intro c1 c2 diff bits
    obtain ⟨hmsg, -, -, -, -, -, -, hfits, -⟩ := State.params_bits hp
    have hdecrypt : pkeDecrypt s.xef p (s.readBuf .skbuf p.n) (s.readBuf .ctbuf p.ctBytes) =
        bytesOf (xefDecode s.xef p.d p.f bits) := by
      rw [pkeDecrypt, eccDecode, pkeDiff_readBuf, pkeRecover]
    have hdecoded : (xefDecode s.xef p.d p.f bits).length = 8 * p.msgBytes := by
      rw [xefDecode_length _ _ _ _ (by rw [d2Decode_length]; omega), hmsg]
    obtain ⟨hframe, hbits, hzeros⟩ := writeMsg_complete s hdecoded hfits
    exact ⟨_, by rw [exec_pkedec hp, if_pos ⟨hsk, hct⟩, hdecrypt], hframe, fun i hi => hbits i (by omega), hzeros⟩

/-- Settles O59: the decoded word is its codeword with at most `f` wrong bits, which the code corrects. -/
theorem decryptionCorrectsUpToFErrors : Obligations.DecryptionCorrectsUpToFErrors := by
  intro p secret ct msg hset hlen hnear
  obtain ⟨hcode, hmsg⟩ : ((p.d = 128 ∧ p.f = 3) ∨ (p.d = 256 ∧ p.f = 5)) ∧ 8 * p.msgBytes = p.d := by
    rcases hset with rfl | rfl | rfl <;> decide
  exact pkeDecrypt_of_near_codeword .xefDefault hcode (hlen ▸ hmsg) hnear

end Sys2Proof.Proofs
end

section
/-! Key encapsulation (R225 to R230): the buffers that the commands write, the secret of decapsulation as a choice between the
decrypted message and `u`, and how each command ends. -/

namespace Sys2Proof.Machine

variable {s : State} {p : Params} {e : EntropyPort} {code : XefCode} {x y z pk sk c : List Byte}

/-! ## The written buffers -/

/-- A ciphertext and a secret written: each buffer holds its string and zeros after it, every other byte is unchanged (R26). -/
theorem writeCt_writeSs_window (s : State) (hx : x.length ≤ 1792) (hy : y.length ≤ 32) :
    SameOutside s ((s.writeCt x).writeBuf .ssbuf y) [(0x1000, 1792), (0x0100, 32)] ∧
      ((s.writeCt x).writeBuf .ssbuf y).mem.readRange 0x1000 1792 = x ++ List.replicate (1792 - x.length) 0 ∧
      ((s.writeCt x).writeBuf .ssbuf y).mem.readRange 0x0100 32 = y ++ List.replicate (32 - y.length) 0 := by
  rw [← fit_eq_append 1792 x hx, ← fit_eq_append 32 y hy, State.writeCt_writeSs_eq]
  obtain ⟨hct, hss, hframe⟩ := Memory.two_writes s.mem 0x1000 1792 0x0100 32 x y (.inr (by decide))
  exact ⟨hframe, hct, hss⟩

/-- What a completed encapsulation leaves, its draw made: ciphertext, length and secret, everything else unchanged (R228). -/
theorem writeCt_writeSs_complete (s : State) (e : EntropyPort) (hx : x.length = p.ctBytes) (hfits : p.ctBytes ≤ 1792)
    (hy : y.length = 32) :
    ∃ t, ((State.writeCt { s with entropy := e } x).writeBuf .ssbuf y).complete = t ∧
      t = { s with run := .idle, done := true, entropy := e, mem := t.mem, ctlen := BitVec.ofNat 11 p.ctBytes } ∧
      SameOutside s t [(0x1000, 1792), (0x0100, 32)] ∧
      t.mem.readRange 0x1000 1792 = x ++ List.replicate (1792 - p.ctBytes) 0 ∧ t.mem.readRange 0x0100 32 = y := by
  obtain ⟨hframe, hct, hss⟩ := writeCt_writeSs_window { s with entropy := e } (hx.trans_le hfits) hy.le
  rw [hy, Nat.sub_self, List.replicate_zero, List.append_nil] at hss
  rw [hx] at hct
  exact ⟨_, rfl, by rw [State.writeCt_writeSs_eq, hx]; rfl, hframe, hct, hss⟩

/-- What a failed encapsulation leaves: the error, both destinations and the length zero (R246). -/
theorem noEncapsulation_raise (s : State) (e : EntropyPort) :
    ∃ t, ((State.writeCt { s with entropy := e } []).writeBuf .ssbuf []).raise .entropy = t ∧
      t = { s with run := .idle, err := true, errcode := 5, entropy := e, mem := t.mem, ctlen := 0 } ∧
      SameOutside s t [(0x1000, 1792), (0x0100, 32)] ∧
      t.mem.readRange 0x1000 1792 = List.replicate 1792 0 ∧ t.mem.readRange 0x0100 32 = List.replicate 32 0 :=
  ⟨_, rfl, by rw [State.writeCt_writeSs_eq]; rfl,
    writeCt_writeSs_window (x := []) (y := []) { s with entropy := e } (Nat.zero_le _) (Nat.zero_le _)⟩

/-- What a completed decapsulation leaves: the secret in `SSBUF`, `EQ` cleared, everything else unchanged (R230). -/
theorem writeSs_clearEq_complete (s : State) (hy : y.length = 32) :
    ∃ t, State.complete { s.writeBuf .ssbuf y with eq := false } = t ∧
      t = { s with run := .idle, done := true, eq := false, mem := t.mem } ∧
      SameOutside s t [(0x0100, 32)] ∧ t.mem.readRange 0x0100 32 = y := by
  obtain ⟨-, hframe⟩ := completesIn_fit s 0x0100 32 y
  exact ⟨_, rfl, rfl, hframe, (Memory.readRange_writeRange_fit s.mem 0x0100 32 y).trans (fit_eq_self 32 y hy)⟩

/-! ## The functions (R225, R227, R229) -/

theorem kemKeyGenSk_length (p : Params) (seedS : List Byte) (hu : y.length = p.uSize) :
    (kemKeyGenSk p seedS y).length = p.skBytes := by
  rw [kemKeyGenSk, packSk, List.length_append, pkeKeyGenSk_length, hu, Params.skBytes]

theorem kemSecret_length (c z : List Byte) : (kemSecret c z).length = 32 := shake256_length _ _

theorem kemDelta_length (code : XefCode) (p : Params) (sk c : List Byte) : (kemDelta code p sk c).length = p.msgBytes :=
  pkeDecrypt_length _ _ _ _

/-- The mask of implicit rejection selects the first string where the ciphertext re-encrypts to itself, else the second. -/
theorem select_kemMatch (hc : c.length = p.ctBytes) (h : x.length = y.length) :
    select (kemMatch code p pk sk c) x y =
      if c = kemEncapsCt code p pk (kemDelta code p sk c) then x else y := by
  have hct : c.length = (kemEncapsCt code p pk (kemDelta code p sk c)).length := hc.trans (pkeEncrypt_length _ _ _ _ _).symm
  rw [kemMatch, ctEqual_eq _ _ hct]
  split_ifs
  · exact select_ones x y h
  · exact select_zero x y h

/-- Implicit rejection (R229): the secret hashes the decrypted message where the ciphertext re-encrypts to itself, else `u`,
the bytes of the secret key after its `N` coefficients. -/
theorem kemDecaps_eq (hu : p.uSize = p.msgBytes) (hsk : sk.length = p.skBytes) (hc : c.length = p.ctBytes) :
    kemDecaps code p pk sk c = kemSecret c
      (if c = kemEncapsCt code p pk (kemDelta code p sk c) then kemDelta code p sk c else sk.drop p.n) := by
  have hdrop : (sk.drop p.n).length = p.uSize := by rw [List.length_drop, hsk, Params.skBytes, Nat.add_sub_cancel_left]
  rw [kemDecaps, List.take_of_length_le hdrop.le,
    select_kemMatch hc ((kemDelta_length code p sk c).trans (hu.symm.trans hdrop.symm))]

/-! ## Key generation (R226) -/

theorem exec_kemkg (hp : s.params = some p) : exec .kemkg s = .next (s.draw [32, 32, p.uSize]
    (fun xs s => ((s.writePk (pkeKeyGenPk p (xs.getD 0 []) (xs.getD 1 []))).writeSk
      (kemKeyGenSk p (xs.getD 1 []) (xs.getD 2 []))).complete)
    (fun s => s.noKeys.raise .entropy)) :=
  congrArg Host.Outcome.next (State.withParams_some hp _)

theorem exec_kemkg_of_bytes (hp : s.params = some p) (hdraw : s.entropy.reads [32, 32, p.uSize] = (some [x, y, z], e)) :
    exec .kemkg s = .next
      ((State.writePk { s with entropy := e } (pkeKeyGenPk p x y)).writeSk (kemKeyGenSk p y z)).complete := by
  rw [exec_kemkg hp, State.draw_ok hdraw]
  rfl

theorem exec_kemkg_of_failure (hp : s.params = some p) (hdraw : s.entropy.reads [32, 32, p.uSize] = (none, e)) :
    exec .kemkg s = .next ((State.noKeys { s with entropy := e }).raise .entropy) := by
  rw [exec_kemkg hp, State.draw_fail hdraw]

/-! ## Encapsulation (R228) -/

theorem exec_kemenc (hp : s.params = some p) : exec .kemenc s = .next
    (if s.pklen.toNat = p.pkBytes then s.draw [p.msgBytes]
      (fun xs s => ((s.writeCt (kemEncapsCt s.xef p (s.readBuf .pkbuf p.pkBytes) (xs.getD 0 []))).writeBuf .ssbuf
        (kemSecret (kemEncapsCt s.xef p (s.readBuf .pkbuf p.pkBytes) (xs.getD 0 [])) (xs.getD 0 []))).complete)
      (fun s => ((s.writeCt []).writeBuf .ssbuf []).raise .entropy)
      else s.failed 4) := by
  rw [← State.require_len]
  exact congrArg Host.Outcome.next (State.withParams_some hp _)

theorem exec_kemenc_of_bytes (hp : s.params = some p) (hlen : s.pklen.toNat = p.pkBytes)
    (hdraw : s.entropy.read p.msgBytes = (some x, e)) (hc : kemEncapsCt s.xef p (s.readBuf .pkbuf p.pkBytes) x = c) :
    exec .kemenc s = .next
      ((State.writeCt { s with entropy := e } c).writeBuf .ssbuf (kemSecret c x)).complete := by
  have hreads : s.entropy.reads [p.msgBytes] = (some [x], e) := EntropyPort.reads_cons_of_bytes hdraw []
  rw [exec_kemenc hp, if_pos hlen, State.draw_ok hreads, ← hc]
  rfl

theorem exec_kemenc_of_failure (hp : s.params = some p) (hlen : s.pklen.toNat = p.pkBytes)
    (hdraw : s.entropy.read p.msgBytes = (none, e)) :
    exec .kemenc s = .next (((State.writeCt { s with entropy := e } []).writeBuf .ssbuf []).raise .entropy) := by
  rw [exec_kemenc hp, if_pos hlen, State.draw_fail (EntropyPort.reads_cons_of_failure hdraw [])]

/-! ## Decapsulation (R230) -/

theorem exec_kemdec (hp : s.params = some p) : exec .kemdec s = .next
    (if s.pklen.toNat = p.pkBytes ∧ s.sklen.toNat = p.skBytes ∧ s.ctlen.toNat = p.ctBytes then
      State.complete { s.writeBuf .ssbuf (kemDecaps s.xef p (s.readBuf .pkbuf p.pkBytes) (s.readBuf .skbuf p.skBytes)
        (s.readBuf .ctbuf p.ctBytes)) with eq := false }
      else s.failed 4) := by
  rw [← State.require_len, Bool.decide_and, Bool.decide_and, ← Bool.and_assoc]
  exact congrArg Host.Outcome.next (State.withParams_some hp _)

/-- The dense secret stands at the start of `SKBUF` (R193). -/
theorem kemDelta_readBuf (s : State) (code : XefCode) (p : Params) (c : List Byte) :
    kemDelta code p (s.readBuf .skbuf p.skBytes) c = pkeDecrypt code p (s.mem.readRange 0x0800 p.n) c :=
  congrArg (pkeDecrypt code p · c) (Memory.take_readRange s.mem 0x0800 (Nat.le_add_right _ _))

/-- The implicit-rejection value stands after it (R193). -/
theorem drop_readBuf_skbuf (s : State) (p : Params) :
    (s.readBuf .skbuf p.skBytes).drop p.n = s.mem.readRange (0x0800 + p.n) p.uSize := by
  have hdrop : (s.readBuf .skbuf p.skBytes).drop p.n = s.mem.readRange (0x0800 + p.n) (p.skBytes - p.n) :=
    Memory.drop_readRange s.mem 0x0800 p.n p.skBytes
  rw [hdrop, Params.skBytes, Nat.add_sub_cancel_left]

end Sys2Proof.Machine

namespace Sys2Proof.Proofs

open Sys2Proof Sys2Proof.Machine

/-- Settles O53: the three draws decide between the keys and the zeroed buffers; the third ends the secret key. -/
theorem kemkgGeneratesTheKeys : Obligations.KemkgGeneratesTheKeys := by
  refine ⟨rfl, raisesParam_of_withParams fun _ => rfl, raisesIllcmd 0x90,
    fun s p hp => ⟨fun seedA seedS u e hdraw => ?drawn, fun e hdraw => ?failed⟩⟩
  case drawn =>
    intro secret b
    obtain ⟨-, hpkFits, hskFits, -⟩ := State.params_sizes hp
    have hlengths : [seedA.length, seedS.length, u.length] = [32, 32, p.uSize] := EntropyPort.reads_lengths hdraw
    obtain ⟨hseed, -, hu⟩ : seedA.length = 32 ∧ seedS.length = 32 ∧ u.length = p.uSize := by simpa using hlengths
    obtain ⟨t, ht, hfields, hframe, hpk, hsk⟩ := writePk_writeSk_complete s e (pkeKeyGenPk_length p seedS hseed)
      (kemKeyGenSk_length p seedS hu) hpkFits hskFits
    exact ⟨t, ht ▸ exec_kemkg_of_bytes hp hdraw, hfields, hframe, pkeKeyGenPk_eq hp seedA seedS ▸ hpk, hsk⟩
  case failed =>
    obtain ⟨t, ht, hzeroed⟩ := noKeys_raise s e
    exact ⟨t, ht ▸ exec_kemkg_of_failure hp hdraw, hzeroed⟩

/-- Settles O54: the length check comes before the draw, whose outcome decides between the two ends. -/
theorem kemencEncapsulates : Obligations.KemencEncapsulates := by
  refine ⟨rfl, raisesParam_of_withParams fun _ => rfl, raisesIllcmd 0x91,
    fun s p hp => ⟨fun hlen => ?refused, fun hlen => ⟨fun delta e hdraw => ?drawn, fun e hdraw => ?failed⟩⟩⟩
  case refused => rw [exec_kemenc hp, if_neg hlen]
  case drawn =>
    intro c
    obtain ⟨-, -, -, -, hfits, -⟩ := State.params_sizes hp
    obtain ⟨t, ht, hleft⟩ :=
      writeCt_writeSs_complete s e (pkeEncrypt_length s.xef p _ delta _) hfits (kemSecret_length c delta)
    exact ⟨t, ht ▸ exec_kemenc_of_bytes hp hlen hdraw rfl, hleft⟩
  case failed =>
    obtain ⟨t, ht, hzeroed⟩ := noEncapsulation_raise s e
    exact ⟨t, ht ▸ exec_kemenc_of_failure hp hlen hdraw, hzeroed⟩

/-- Settles O55: both outcomes of the re-encryption check end alike, with the secret that implicit rejection selects. -/
theorem kemdecDecapsulates : Obligations.KemdecDecapsulates := by
  refine ⟨rfl, raisesParam_of_withParams fun _ => rfl, raisesIllcmd 0x92,
    fun s p hp => ⟨fun hlens => ?refused, fun hpk hsk hct => ?decapsulated⟩⟩
  case refused => rw [exec_kemdec hp, if_neg hlens]
  case decapsulated =>
    intro c delta c' u
    obtain ⟨-, -, -, -, -, -, -, -, hu⟩ := State.params_bits hp
    have hsecret : kemDecaps s.xef p (s.readBuf .pkbuf p.pkBytes) (s.readBuf .skbuf p.skBytes) (s.readBuf .ctbuf p.ctBytes) =
        kemSecret c (if c = c' then delta else u) := by
      rw [kemDecaps_eq hu (by simp) (by simp), kemDelta_readBuf, drop_readBuf_skbuf]
      rfl
    obtain ⟨t, ht, hleft⟩ := writeSs_clearEq_complete s (kemSecret_length c (if c = c' then delta else u))
    exact ⟨t, by rw [exec_kemdec hp, if_pos ⟨hpk, hsk, hct⟩, hsecret, ht], hleft⟩

/-- Settles O58: a decrypted message that is the encapsulated one re-encrypts to the ciphertext; else the key's tail is hashed. -/
theorem decapsulationOfAnEncapsulation : Obligations.DecapsulationOfAnEncapsulation := by
  intro code p pk sk c hset hsk hc _
  have hu : p.uSize = p.msgBytes := by rcases hset with rfl | rfl | rfl <;> decide
  rw [kemDecaps_eq hu hsk hc]
  refine ⟨fun delta _ hencrypted hdecrypted => ?matching, fun hmismatch => congrArg (kemSecret c) (if_neg hmismatch)⟩
  case matching =>
    have hdelta : kemDelta code p sk c = delta := hdecrypted
    have hmatch : c = kemEncapsCt code p pk delta := hencrypted
    rw [hdelta, if_pos hmatch, kemSecret]

end Sys2Proof.Proofs
end

section
/-! `E_PARAM` (R243) and the accesses of a busy engine (R291, R292): which commands look at `CFG.PSEL`, and that no command
looks at the bus side of the state. -/

namespace Sys2Proof.Machine

variable {i : Instr}

/-! ## The parameter check of a command (R92 step 2) -/

/-- Every command but NOP and WIPE is its parameter check with what it does under a selected set. -/
theorem exec_checks_params (hnop : i ≠ .nop) (hwipe : ∀ m, i ≠ .wipe m) :
    ∃ result : State → Params → State, ∀ s, exec i s = .next (s.withParams (result s)) := by
  cases i with
  | nop => exact absurd rfl hnop
  | wipe mask => exact absurd rfl (hwipe mask)
  | _ => exact ⟨_, fun _ => rfl⟩

theorem State.wipe_err (s : State) (mask : BitVec 11) : (s.wipe mask).err = s.err := by
  obtain ⟨-, herr, -⟩ := flags_eq_of_control_eq (s.wipe_control mask)
  exact herr

/-! ## The bus side of the state -/

/-- What the host's transactions leave while a command is in flight: `ACCV`, `CMDOVR`, the answer and the events to come. -/
structure BusSide where
  accv : Bool
  cmdovr : Bool
  response : HostResponse
  inputs : List Event

/-- The state with another bus side. -/
def State.onBus (s : State) (b : BusSide) : State :=
  { s with accv := b.accv, cmdovr := b.cmdovr, response := b.response, inputs := b.inputs }

@[simp] theorem State.onBus_params (s : State) (b : BusSide) : (s.onBus b).params = s.params := rfl

/-- The function does the same on every bus side and hands the bus side on: it commutes with replacing it. -/
def Undisturbed (f : State → State) : Prop := ∀ s b, f (s.onBus b) = (f s).onBus b

/-! ## The shared operations are undisturbed -/

namespace Undisturbed

variable {f g : State → State}

theorem comp (hg : Undisturbed g) (hf : Undisturbed f) : Undisturbed fun s => g (f s) :=
  fun s b => (congrArg g (hf s b)).trans (hg (f s) b)

theorem complete : Undisturbed State.complete := fun _ _ => rfl

theorem raise (e : ErrorCode) : Undisturbed fun s => s.raise e := fun _ _ => rfl

/-- The parameter check reads `CFG` alone. -/
theorem withParams {k : Params → State → State} (h : ∀ p, Undisturbed (k p)) :
    Undisturbed fun s => s.withParams fun p => k p s := by
  intro s b
  beta_reduce
  rcases hp : s.params with _ | p
  · rw [State.withParams, State.withParams, State.onBus_params, hp]
    exact raise .param s b
  · rw [State.withParams_some hp, State.withParams_some ((s.onBus_params b).trans hp), h p]

theorem require {ok : State → Bool} {e : ErrorCode} (hok : ∀ s b, ok (s.onBus b) = ok s) (hf : Undisturbed f) :
    Undisturbed fun s => s.require (ok s) e (f s) := by
  intro s b
  beta_reduce
  rw [hok, hf]
  cases ok s with
  | true => rfl
  | false => exact raise e s b

/-- A draw reads the entropy port alone. -/
theorem draw {ns : List Nat} {ok : List (List Byte) → State → State} (hok : ∀ xs, Undisturbed (ok xs))
    (hf : Undisturbed f) : Undisturbed fun s => s.draw ns ok f := by
  intro s b
  beta_reduce
  rcases State.draw_cases s ns ok f with ⟨xs, e, hdraw, h⟩ | ⟨e, hdraw, h⟩
  · rw [h, State.draw_ok (s := s.onBus b) hdraw]
    exact hok xs { s with entropy := e } b
  · rw [h, State.draw_fail (s := s.onBus b) hdraw]
    exact hf { s with entropy := e } b

/-- A sparse register filled with a list that does not depend on the bus side. -/
theorem writeSparse {l : State → List Term} (r : SReg) (hl : ∀ s b, l (s.onBus b) = l s) :
    Undisturbed fun s => s.writeSparse r (l s) := by
  intro s b
  beta_reduce
  rw [hl]
  cases r <;> rfl

theorem wipe (mask : BitVec 11) : Undisturbed (State.wipe mask) := fun s b => by
  rw [State.wipe_eq, State.wipe_eq]
  rfl

end Undisturbed

/-! ## Every command is undisturbed -/

/-- Every command is an undisturbed function of the state: its checks and its draws are, and so is what it writes after them. -/
theorem exec_undisturbed (i : Instr) : ∃ f, (∀ s, exec i s = .next (f s)) ∧ Undisturbed f := by
  cases i with
  | nop => exact ⟨_, exec_nop, .complete⟩
  | wipe mask => exact ⟨_, exec_wipe mask, Undisturbed.complete.comp (.wipe mask)⟩
  | padd | psub | pneg | pscale | pmuld | pmuls | pfrsp | pcteq | sunif | sderive | xefenc | xefdec | d2enc | d2dec =>
    exact ⟨_, fun _ => rfl, .withParams fun _ _ _ => rfl⟩
  | psrnd | pack | unpack | bcteq | bsel | pkeenc | pkedec | kemdec =>
    exact ⟨_, fun _ => rfl, .withParams fun _ => .require (fun _ _ => rfl) fun _ _ => rfl⟩
  | ptosp d =>
    exact ⟨_, fun _ => rfl, .withParams fun _ => Undisturbed.complete.comp (.writeSparse d fun _ _ => rfl)⟩
  | shwt d =>
    exact ⟨_, fun _ => rfl, .withParams fun _ => .require (fun _ _ => rfl)
      (Undisturbed.complete.comp (.writeSparse d fun _ _ => rfl))⟩
  | pkekg | kemkg => exact ⟨_, fun _ => rfl, .withParams fun _ => .draw (fun _ _ _ => rfl) fun _ _ => rfl⟩
  | srand | kemenc =>
    exact ⟨_, fun _ => rfl, .withParams fun _ => .require (fun _ _ => rfl) (.draw (fun _ _ _ => rfl) fun _ _ => rfl)⟩

end Sys2Proof.Machine

namespace Sys2Proof.Proofs

open Sys2Proof Sys2Proof.Machine

/-- Settles O18: the parameter check of every other command is its first one; NOP and WIPE have none. -/
theorem everyOtherCommandRaisesParam : Obligations.EveryOtherCommandRaisesParam := by
  refine ⟨fun i hnop hwipe => ?_, fun i s hi => ?_⟩
  · obtain ⟨result, hexec⟩ := exec_checks_params hnop hwipe
    exact raisesParam_of_withParams hexec
  · rcases hi with rfl | ⟨mask, rfl⟩
    · exact ⟨_, exec_nop s, rfl, rfl⟩
    · exact ⟨_, exec_wipe mask s, rfl, s.wipe_err mask⟩

/-- Settles O9: replacing `ACCV`, `CMDOVR`, the answer and the events commutes with every command. -/
theorem accessesDoNotDisturbTheCommand : Obligations.AccessesDoNotDisturbTheCommand := by
  intro i s t a c r l h
  obtain ⟨f, hexec, hf⟩ := exec_undisturbed i
  obtain rfl : f s = t := by
    rw [hexec] at h
    injection h
  exact (hexec _).trans (congrArg Host.Outcome.next (hf s ⟨a, c, r, l⟩))

end Sys2Proof.Proofs
end
